-- ==== Sys2Proof/Word.lean ====
section
/-! DEFINITION. The word types of the block (spec/00_scope.md rules R7 to R9): every quantity is an unsigned
integer; a byte has `SYM_W` = 8 bits, a weight or a count register 64 bits, a bit sequence is a finite list. -/

namespace Sys2Proof

/-- A byte: a symbol, a code-length field, an opcode (rule R6, `SYM_W` = `LEN_W` = 8). -/
abbrev Byte := BitVec 8

/-- A weight, a count, a length or a cursor (rule R6, `WEIGHT_W` = `CNT_W` = 64). -/
abbrev Word := BitVec 64

/-- A bit sequence, element 0 first; `false` is 0 and `true` is 1 (rule R9). -/
abbrev BitSeq := List Bool

end Sys2Proof
end

