-- ==== Sys2Proof/Config.lean ====
section
/-! DEFINITION. What an implementation fixes (spec/00_scope.md rule R6) and the one free value of the model
(notes/assumptions/2.md). The two OPEN parameters, `IN_CAP` and `CHILD_ORDER`, form the structure `Params`; a state
carries its parameters, so a statement about every state is a statement about every value of them
(notes/assumptions/1.md). -/

namespace Sys2Proof

/-- `CHILD_ORDER` (rule R6): which of the two merged entries becomes the left child. -/
inductive ChildOrder where
  /-- The last entry of the sorted collection is the left child. -/
  | lastLeft
  /-- The last entry of the sorted collection is the right child. -/
  | lastRight
  deriving DecidableEq, Repr

/-- The OPEN parameters of rule R6. -/
structure Params where
  /-- `IN_CAP`, the bytes of the IN space. -/
  inCap : Nat
  /-- `CHILD_ORDER`. -/
  childOrder : ChildOrder
  deriving DecidableEq, Repr

/-- `OUT_CAP = 545 + 32 * IN_CAP`, the bytes of the OUT space (rules R6 and R175). -/
def Params.outCap (p : Params) : Nat := 545 + 32 * p.inCap

namespace Config

/-- The values rule R6 gives the OPEN parameters: `IN_CAP` as recommended, `CHILD_ORDER` by default. -/
def defaultParams : Params := { inCap := 65536, childOrder := .lastLeft }

/-- `NSYM`, the number of symbol values (rule R6). -/
def symbolCount : Nat := 256

/-- `SENTINEL`, the end-of-payload symbol (rule R6). -/
def sentinel : Byte := 0x00

/-- `CP_CAP`, the most CodePoints a descriptor may hold (rule R6). -/
def cpCap : Nat := 256

/-- `LEAF_MAX`, the most leaves of a built tree (rule R6). -/
def leafMax : Nat := 256

/-- `INTERNAL_MAX`, the most internal nodes of a built tree (rule R6). -/
def internalMax : Nat := 255

/-- `NODE_MAX`, the entries of the NODE space (rule R6). -/
def nodeMax : Nat := 511

/-- `DEPTH_MAX`, the greatest depth of a leaf (rules R6 and R131). -/
def depthMax : Nat := 255

/-- The constant that `REG.ID` reads (rule R23). -/
def idValue : Word := 0x48554601

/-- FREE VALUE. What `IN[i]` holds after a reset and before the host writes it (spec/93_implementation_defined.md
entry U4; notes/assumptions/2.md). The first argument counts the resets, since rule R262 lets the contents differ
after each. It has no body: no proof can see a value of it. -/
opaque unwrittenByte : Nat → Nat → Byte

end Config

end Sys2Proof
end

