-- ==== Sys2Proof/Syntax.lean ====
section
/-! DEFINITION. The seven commands (spec/30_encoding.md rule R91, spec/opcode_table.json) and the moves of the two
agents, host and block (spec/20_memory.md rules R61 and R68; spec/70_reset_and_hazards.md rules R261 and R275). -/

namespace Sys2Proof

/-- The commands of `HUFF-CMD v1` (rule R91). No command has an operand field: every operand is state (rule R90). -/
inductive Instr where
  /-- 0x01 BUILD. -/
  | build
  /-- 0x02 CODES. -/
  | codes
  /-- 0x03 CPLIST. -/
  | cplist
  /-- 0x04 SERIALIZE. -/
  | serialize
  /-- 0x05 DESERIALIZE. -/
  | deserialize
  /-- 0x06 ENCODE. -/
  | encode
  /-- 0x07 RESET. -/
  | reset
  deriving DecidableEq, Repr

/-- One move of an agent. A host transaction moves one element of one space (rule R61); an address is a pair of
space id and element index (rule R60); the data of a write is a number, truncated to the element's width. -/
inductive Move where
  /-- `MemRead(space, index)`. -/
  | read (space index : Nat)
  /-- `MemWrite(space, index, data)`. -/
  | write (space index data : Nat)
  /-- Hardware reset (rule R261). -/
  | hardReset
  /-- The block's one autonomous move: the running command completes (rule R275). -/
  | complete
  deriving DecidableEq, Repr

/-- The encoding of a host transaction as the tuple `(rw, space id, index, data)` (rule R105): `rw` is 0 for a read
and 1 for a write, and a read carries no data. -/
structure Transaction where
  rw : Nat
  space : Nat
  index : Nat
  data : Option Nat
  deriving DecidableEq, Repr

end Sys2Proof
end

