-- ==== Sys2Proof/WellFormed.lean ====
section
/-! DEFINITION. Well-formedness of the terms the outside world supplies: the parameters, a command word, and the
tuple of a host transaction. A command itself has no operand that could be ill formed (rule R90). -/

namespace Sys2Proof

/-- The range of the OPEN parameter `IN_CAP`: `1 <= IN_CAP <= 2^32 - 1` (rule R6). -/
def Params.wf (p : Params) : Bool := decide (1 ≤ p.inCap) && decide (p.inCap ≤ 2 ^ 32 - 1)

/-- A command has no operand field (rule R90), so every term of `Instr` is well formed. -/
def Instr.wf (_ : Instr) : Bool := true

/-- A command word is well formed when its opcode is not reserved: 0x01 to 0x07 (rules R91 and R92). -/
def commandWordWf (w : Byte) : Bool := decide (0x01 ≤ w.toNat) && decide (w.toNat ≤ 0x07)

/-- The number of elements of each space (rule R22); a space id of 7 or more addresses nothing (rule R60). -/
def elementCount (p : Params) : Nat → Nat
  | 0 => 10
  | 1 => p.inCap
  | 2 => p.outCap
  | 3 => Config.symbolCount
  | 4 => Config.nodeMax
  | 5 => Config.symbolCount
  | 6 => Config.cpCap
  | _ => 0

/-- A transaction tuple is well formed when `rw` is 0 with no data or 1 with data (rule R105), and it addresses an
element (rules R22 and R60). -/
def Transaction.wf (p : Params) (t : Transaction) : Bool :=
  (decide (t.rw = 0) && t.data.isNone || decide (t.rw = 1) && t.data.isSome) &&
    decide (t.index < elementCount p t.space)

end Sys2Proof
end

