-- ==== Sys2Proof/Decode.lean ====
section
/-! DEFINITION. The command word (spec/30_encoding.md section 1): one format `C` of 8 bits, the opcode. The decoder
reads spec/opcode_table.json row by row and rejects every other word by name; the encoder is written from the same
rows. The encoding of host transactions (rule R105) stands at the end. -/

namespace Sys2Proof

/-- Why a byte sequence is no command. -/
inductive DecodeReject where
  /-- There is no byte at all. -/
  | noWord
  /-- The opcode is reserved: 0x00 or 0x08 to 0xFF (rule R92). -/
  | reservedOpcode (w : Byte)
  deriving DecidableEq, Repr

/-- A row of the opcode table: the words `w` with `w &&& mask = pattern` are the command. -/
structure OpcodeRow where
  mask : Byte
  pattern : Byte
  instr : Instr
  deriving DecidableEq, Repr

/-- The opcode table (rule R91). -/
def opcodeRows : List OpcodeRow :=
  [ ⟨0xFF, 0x01, .build⟩, ⟨0xFF, 0x02, .codes⟩, ⟨0xFF, 0x03, .cplist⟩, ⟨0xFF, 0x04, .serialize⟩,
    ⟨0xFF, 0x05, .deserialize⟩, ⟨0xFF, 0x06, .encode⟩, ⟨0xFF, 0x07, .reset⟩ ]

/-- A word belongs to a row. -/
def OpcodeRow.holds (r : OpcodeRow) (w : Byte) : Bool := w &&& r.mask == r.pattern

/-- The command of one command word (rules R90 to R92). -/
def decodeWord (w : Byte) : Except DecodeReject Instr :=
  match opcodeRows.find? (fun r => r.holds w) with
  | some r => .ok r.instr
  | none => .error (.reservedOpcode w)

/-- The command at the front of a byte sequence, with the rest: a command word has one length, one byte (rule R104). -/
def decode : List Byte → Except DecodeReject (Instr × List Byte)
  | [] => .error .noWord
  | w :: rest =>
    match decodeWord w with
    | .ok i => .ok (i, rest)
    | .error e => .error e

/-- The opcode of a command (rule R91). -/
def opcode : Instr → Byte
  | .build => 0x01
  | .codes => 0x02
  | .cplist => 0x03
  | .serialize => 0x04
  | .deserialize => 0x05
  | .encode => 0x06
  | .reset => 0x07

/-- The bytes of a command (rule R90). -/
def encode (i : Instr) : List Byte := [opcode i]

/-- The command word that an instruction of the table has, given as a number of `nbits` bits; bits above bit 7 are
discarded (rule R90). -/
def tableWord (nbits w : Nat) : Byte := BitVec.ofNat 8 (w % 2 ^ nbits)

/-- The instruction this decoder reads from a word numbered as spec/opcode_table.json numbers it. -/
def decodeTableWord (nbits w : Nat) : Option Instr :=
  match decode [tableWord nbits w] with
  | .ok (i, _) => some i
  | .error _ => none

/-- The tuple of a host transaction; a reset or a completion is no transaction (rule R105). -/
def encodeMove : Move → Option Transaction
  | .read space index => some ⟨0, space, index, none⟩
  | .write space index data => some ⟨1, space, index, some data⟩
  | .hardReset => none
  | .complete => none

/-- The host transaction of a tuple (rule R105); any other tuple is none. -/
def decodeTransaction (t : Transaction) : Option Move :=
  match t.rw, t.data with
  | 0, none => some (.read t.space t.index)
  | 1, some d => some (.write t.space t.index d)
  | _, _ => none

end Sys2Proof
end

