-- ==== Sys2Proof/Machine/State.lean ====
section
/-! DEFINITION. The state of the block (spec/10_state.md), held as plain data, its reset value
(spec/70_reset_and_hazards.md rule R260), and the reasons a step can stop. -/

namespace Sys2Proof.Machine

/-- `STATE`, the two low bits of `REG.STATUS` (rule R25). -/
inductive Phase where
  | idle
  | busy
  | done
  | fault
  deriving DecidableEq, Repr

/-- The seven fault kinds of spec/60_exceptions.md rule R230. A fault of the block is a STATE of the machine, entered by
`State.enterFault`; it is no stop of the model. -/
inductive FaultKind where
  | emptyInput
  | singleSymbol
  | corruptStream
  | symbolNotInTree
  | illegalCommand
  | sequence
  | capacity
  deriving DecidableEq, Repr

/-- What `raise <Kind>(info)` carries (rule R11). -/
structure Raise where
  kind : FaultKind
  info : Word
  deriving DecidableEq, Repr

/-- The result of a function of the spec that may `raise` (rule R11). -/
abbrev Result (α : Type) := Except Raise α

/-- `PrefixNode` (rule R12): a binary tree with exactly these two variants. -/
inductive PrefixNode where
  | leaf (symbol : Byte) (weight : Word)
  | internal (left right : PrefixNode)
  deriving DecidableEq, Repr

/-- A CodePoint `(len, sym)` (rule R14), an element of CP. -/
structure CodePoint where
  len : Byte
  sym : Byte
  deriving DecidableEq, Repr

/-- An element of CODE (rule R28). -/
structure CodeRecord where
  present : Bool
  len : Byte
  bits : BitSeq
  deriving DecidableEq, Repr

/-- An element of NODE (rule R30); `kind` is 0 (`false`) for a leaf and 1 (`true`) for an internal node. -/
structure NodeRecord where
  kind : Bool
  sym : Byte
  weight : Word
  left : BitVec 9
  right : BitVec 9
  deriving DecidableEq, Repr

/-- The value of one element, of that element's type (rule R61). -/
inductive Value where
  | byte (b : Byte)
  | word (w : Word)
  | node (n : NodeRecord)
  | code (c : CodeRecord)
  | codePoint (c : CodePoint)
  deriving DecidableEq, Repr

/-- What the host port last answered. Model's own (notes/assumptions/5.md): the spec's reads return a value to the host,
which is outside the machine. -/
inductive Reply where
  /-- The host has read nothing yet. -/
  | noRead
  /-- The last read has no defined value (rule R26; spec/93_implementation_defined.md entry U3). -/
  | unspecified
  /-- The last read returned this value. -/
  | value (v : Value)
  deriving DecidableEq, Repr

/-- A space held as data: (element index, element) pairs, strictly rising by index. An index that is not listed holds no
defined value (notes/assumptions/7.md). -/
abbrev Space (α : Type) := List (Nat × α)

/-- A byte space, IN or OUT: a list of `Host.Cell`. -/
abbrev Memory := Space Byte

/-- What an unlisted element reads as: no value. -/
def Space.unlisted {α : Type} : Option α := none

/-- The canonical form: indices strictly rise. No entry can equal what an unlisted element reads as, since that is no
value at all. -/
abbrev Space.wf {α : Type} (m : Space α) : Prop := (m.map Prod.fst).Pairwise (· < ·)

/-- The canonical form of a byte memory. -/
abbrev Memory.wf (m : Memory) : Prop := Space.wf m

/-- The machine. -/
structure State where
  /-- The OPEN parameters (rule R6), which no step changes (notes/assumptions/1.md). -/
  params : Params
  /-- `REG.CMD`: the opcode of the running command, 0 when none runs (notes/assumptions/6.md). -/
  cmd : Byte
  /-- `REG.STATUS` (rule R24). -/
  status : Byte
  /-- `REG.ERR` (rule R23). -/
  err : Byte
  /-- `REG.ERRINFO` (rule R23). -/
  errInfo : Word
  /-- `REG.IN_LEN` (rule R23). -/
  inLen : Word
  /-- `REG.OUT_LEN` (rule R23). -/
  outLen : Word
  /-- `REG.BITLEN` (rule R23). -/
  bitLen : Word
  /-- `REG.CURSOR` (rule R23). -/
  cursor : Word
  /-- `REG.NLEAF` (rule R23). -/
  nleaf : Word
  /-- IN (rule R33). -/
  inMem : Memory
  /-- OUT (rule R34). -/
  outMem : Memory
  /-- FREQ (rule R27). -/
  freq : Space Word
  /-- `TREE` (rule R30), nothing when no tree is held. NODE is computed from it on a read. -/
  tree : Option PrefixNode
  /-- CODE (rule R28). -/
  code : Space CodeRecord
  /-- CP (rule R29). -/
  cp : Space CodePoint
  /-- Model's own: the moves still to come, oldest first (notes/assumptions/3.md). -/
  moves : List Move
  /-- Model's own: what the host port last answered (notes/assumptions/5.md). -/
  reply : Reply
  /-- Model's own: how many resets there were, the argument of the free value of IN (notes/assumptions/2.md). -/
  epoch : Nat
  deriving DecidableEq, Repr

/-- The machine right after hardware reset (rule R260): every register and flag 0, no tree, nothing defined in any data
space. The parameters have the values rule R6 gives (notes/assumptions/1.md), and nothing is scheduled
(notes/assumptions/3.md). -/
def State.reset : State where
  params := Config.defaultParams
  cmd := 0
  status := 0
  err := 0
  errInfo := 0
  inLen := 0
  outLen := 0
  bitLen := 0
  cursor := 0
  nleaf := 0
  inMem := []
  outMem := []
  freq := []
  tree := none
  code := []
  cp := []
  moves := []
  reply := .noRead
  epoch := 0

/-- The reasons the MODEL stops with a fault: none. Every fault the spec describes is a next state in phase FAULT
(rule R241), so nobody raises one and the type is empty (safe; notes/assumptions/12.md). -/
inductive Fault where
  deriving DecidableEq, Repr

/-- The reasons the model gives an instruction no meaning. -/
inductive Refusal where
  /-- An arm of `exec` whose instruction is not modelled yet; no arm is. Stopping is safe. -/
  | notModelled (mnemonic : String)
  deriving DecidableEq, Repr

end Sys2Proof.Machine
end

