-- ==== Sys2Proof/Machine/Flags.lean ====
section
/-! DEFINITION. `REG.STATUS`: the field `STATE`, the five valid flags and `SENT` (spec/10_state.md rules R24 and R25), and
the numbers of `REG.ERR` (spec/60_exceptions.md rule R230). -/

namespace Sys2Proof.Machine

/-- The value of `STATE` (rule R24, bits 1:0). -/
def Phase.code : Phase → BitVec 2
  | .idle => 0
  | .busy => 1
  | .done => 2
  | .fault => 3

/-- The phase of a value of `STATE`. -/
def Phase.ofCode (c : BitVec 2) : Phase :=
  if c = 0 then .idle else if c = 1 then .busy else if c = 2 then .done else .fault

namespace Status

/-- Bits 1:0, `STATE`. -/
def phase (w : Byte) : Phase := Phase.ofCode (w.extractLsb' 0 2)

/-- Bit 2, `FREQ_V`. -/
def freqV (w : Byte) : Bool := w.getLsbD 2

/-- Bit 3, `TREE_V`. -/
def treeV (w : Byte) : Bool := w.getLsbD 3

/-- Bit 4, `CODE_V`. -/
def codeV (w : Byte) : Bool := w.getLsbD 4

/-- Bit 5, `CP_V`. -/
def cpV (w : Byte) : Bool := w.getLsbD 5

/-- Bit 6, `OUT_V`. -/
def outV (w : Byte) : Bool := w.getLsbD 6

/-- Bit 7, `SENT`. -/
def sent (w : Byte) : Bool := w.getLsbD 7

/-- The status word of given fields (rule R24). -/
def make (phase : Phase) (freqV treeV codeV cpV outV sent : Bool) : Byte :=
  BitVec.ofBool sent ++ BitVec.ofBool outV ++ BitVec.ofBool cpV ++ BitVec.ofBool codeV ++ BitVec.ofBool treeV ++
    BitVec.ofBool freqV ++ phase.code

/-- The status word with another phase and the same flags. -/
def withPhase (w : Byte) (p : Phase) : Byte := make p (freqV w) (treeV w) (codeV w) (cpV w) (outV w) (sent w)

end Status

/-- `STATE` of a state. -/
def State.phase (s : State) : Phase := Status.phase s.status

/-- The code of a fault kind in `REG.ERR` (rule R230). -/
def FaultKind.code : FaultKind → Byte
  | .emptyInput => 1
  | .singleSymbol => 2
  | .corruptStream => 3
  | .symbolNotInTree => 4
  | .illegalCommand => 5
  | .sequence => 6
  | .capacity => 7

end Sys2Proof.Machine
end

