-- ==== Sys2Proof/Machine/Ops.lean ====
section
/-! DEFINITION. The shared operations: reading and writing the elements of a space (spec/20_memory.md rule R61), taking a
fault (spec/60_exceptions.md rule R241), the reset that leaves it (rule R242), the dispatch of a command by `STATE`
(spec/45_system_commands.md rule R216) and the two tests that come before a command's own work (rules R218, R219). -/

namespace Sys2Proof.Machine

/-! ## Spaces -/

/-- The element with index `i`, or no value. -/
def Space.read {α : Type} : Space α → Nat → Option α
  | [], _ => Space.unlisted
  | (j, v) :: m, i => if i = j then some v else Space.read m i

/-- `SPACE[i] <- v`. -/
def Space.write {α : Type} : Space α → Nat → α → Space α
  | [], i, v => [(i, v)]
  | (j, w) :: m, i, v =>
    if i < j then (i, v) :: (j, w) :: m
    else if i = j then (i, v) :: m
    else (j, w) :: Space.write m i v

/-- The elements of `xs` at the indices from `k` on. -/
def Space.listed {α : Type} : Nat → List α → Space α
  | _, [] => []
  | k, x :: xs => (k, x) :: Space.listed (k + 1) xs

/-- `SPACE[i] <- xs[i] for every i < len(xs)`; the elements from `len(xs)` on keep their values. -/
def Space.store {α : Type} (m : Space α) (xs : List α) : Space α :=
  Space.listed 0 xs ++ m.filter (fun c => decide (xs.length ≤ c.1))

/-! ## Faults and reset -/

/-- `raise <kind>(info)` (rule R11). -/
def raise {α : Type} (kind : FaultKind) (info : Word) : Result α := .error ⟨kind, info⟩

/-- Taking a fault, `Fault(k, v)` of rule R241. IN, `IN_LEN` and `ID` keep their values; the contents of FREQ, NODE, CODE,
CP and OUT become unspecified, held as nothing listed (notes/assumptions/7.md). -/
def State.enterFault (s : State) (kind : FaultKind) (info : Word) : State :=
  { s with
    status := Status.make .fault false false false false false false
    err := kind.code
    errInfo := info
    outLen := 0
    bitLen := 0
    cursor := 0
    nleaf := 0
    tree := none
    outMem := []
    freq := []
    code := []
    cp := [] }

/-- The reset of rule R260, by hardware reset or by the RESET command (rule R215), which is also the one exit from a fault
(rule R242): every register and flag at its reset value, and unspecified contents in the six data spaces, IN included.
The parameters, the moves to come and the host's last answer are not the block's to clear; a new epoch gives the
unwritten bytes of IN new free values (rule R262). -/
def State.toReset (s : State) : State :=
  { State.reset with params := s.params, moves := s.moves, reply := s.reply, epoch := s.epoch + 1 }

/-! ## Command dispatch -/

/-- What a command leaves: its result, or the fault it raised. -/
def State.settle (s : State) : Result State → State
  | .ok t => t
  | .error e => s.enterFault e.kind e.info

/-- A command other than RESET, from its `CMD` write to its completion (rule R216): dropped in BUSY (rule R221) and in
FAULT (rule R220); otherwise it completes whole or faults whole. -/
def runCommand (run : State → Result State) (s : State) : Host.Outcome State Fault Refusal :=
  match s.phase with
  | .busy => .next s
  | .fault => .next s
  | .idle => .next (s.settle (run s))
  | .done => .next (s.settle (run s))

/-- A write of a reserved opcode (rules R92 and R217). -/
def runIllegal (w : Byte) (_ : State) : Result State := raise .illegalCommand (w.setWidth 64)

/-- The test of rule R218: `TREE_V = 1`, else `Sequence` with the opcode. It returns the tree held. A set flag with no tree
is ruled out by the invariant of Safety.lean (notes/assumptions/9.md). -/
def needTree (i : Instr) (s : State) : Result PrefixNode :=
  match Status.treeV s.status, s.tree with
  | true, some t => .ok t
  | _, _ => raise .sequence ((opcode i).setWidth 64)

/-- The test of rule R219: `IN_LEN <= IN_CAP`, else `Capacity` with `IN_LEN`. -/
def needCapacity (s : State) : Result Unit :=
  if s.params.inCap < s.inLen.toNat then raise .capacity s.inLen else .ok ()

end Sys2Proof.Machine
end

