-- ==== Sys2Proof/Machine/Operands.lean ====
section
/-! DEFINITION. How operands are read: the operand snapshot `IN[0..IN_LEN)` (spec/20_memory.md rule R70), the bit order
(spec/00_scope.md rule R10) and the bit-sequence primitives (spec/20_memory.md rules R72 and R73). -/

namespace Sys2Proof.Machine

/-- `IN[i]` as a command reads it: the byte the host wrote since the last reset, else the free value of
spec/93_implementation_defined.md entry U4 (notes/assumptions/2.md). -/
def State.inByte (s : State) (i : Nat) : Byte := (s.inMem.read i).getD (Config.unwrittenByte s.epoch i)

/-- `IN[0..IN_LEN)`. -/
def State.inBytes (s : State) : List Byte := (List.range s.inLen.toNat).map s.inByte

/-- `Bits8(v)`: most significant bit first (rule R10). -/
def bits8 (v : Byte) : BitSeq := (List.range 8).map fun i => v.getLsbD (7 - i)

/-- The number a bit sequence spells, most significant bit first. -/
def bitsToNat (b : BitSeq) : Nat := b.foldl (fun n x => 2 * n + x.toNat) 0

/-- `Byte8(b)`, the inverse of `Bits8` on bit sequences of length 8 (rule R10). -/
def byte8 (b : BitSeq) : Byte := BitVec.ofNat 8 (bitsToNat b)

/-- `AppendField8(bits, v)` (rule R72); `Append` is `++`. -/
def appendField8 (bits : BitSeq) (v : Byte) : BitSeq := bits ++ bits8 v

/-- A bit sequence being read: the cursor (rule R191) and the bits at or after it, so `remaining` is the length of `rest`
(notes/assumptions/11.md). -/
structure Reader where
  rest : BitSeq
  cur : Nat
  deriving DecidableEq, Repr

/-- The reader of `bits` with its cursor at `cur`. -/
def Reader.start (bits : BitSeq) (cur : Nat) : Reader := ⟨bits.drop cur, cur⟩

/-- `ReadBit` (rule R73): `CorruptStream(5)` when no bit is left. -/
def readBit (r : Reader) : Result (Bool × Reader) :=
  match r.rest with
  | [] => raise .corruptStream 5
  | b :: rest => .ok (b, ⟨rest, r.cur + 1⟩)

/-- `ReadField8` (rule R73): `CorruptStream(1)` when fewer than 8 bits are left. -/
def readField8 (r : Reader) : Result (Byte × Reader) :=
  if r.rest.length < 8 then raise .corruptStream 1
  else .ok (byte8 (r.rest.take 8), ⟨r.rest.drop 8, r.cur + 8⟩)

end Sys2Proof.Machine
end

