-- ==== Sys2Proof/Machine/TreeBuilder.lean ====
section
/-! DEFINITION. The Tree Builder and the BUILD command (spec/40_tree_builder.md), with the functions on a tree that its
rules name: `Weight` (R121), tree equality (spec/00_scope.md rule R13), and `Flatten` (spec/10_state.md rule R30). -/

namespace Sys2Proof.Machine

/-! ## Functions on a tree -/

/-- `Weight` (rule R121): the addition is unsigned at 64 bits, and no sum a command makes overflows (rule R134). -/
def PrefixNode.weight : PrefixNode → Word
  | .leaf _ w => w
  | .internal l r => l.weight + r.weight

/-- The number of leaves. -/
def PrefixNode.leafCount : PrefixNode → Nat
  | .leaf _ _ => 1
  | .internal l r => l.leafCount + r.leafCount

/-- `Size` (rule R30): the number of nodes. -/
def PrefixNode.size : PrefixNode → Nat
  | .leaf _ _ => 1
  | .internal l r => 1 + l.size + r.size

/-- The greatest depth of a leaf. -/
def PrefixNode.height : PrefixNode → Nat
  | .leaf _ _ => 0
  | .internal l r => max l.height r.height + 1

/-- The leaf symbols, left to right. -/
def PrefixNode.symbols : PrefixNode → List Byte
  | .leaf s _ => [s]
  | .internal l r => l.symbols ++ r.symbols

/-- The node is internal. -/
def PrefixNode.isInternal : PrefixNode → Bool
  | .leaf _ _ => false
  | .internal _ _ => true

/-- Tree equality (rule R13): the same shape and the same leaf symbols, whatever the weights. -/
def PrefixNode.same : PrefixNode → PrefixNode → Bool
  | .leaf s _, .leaf s' _ => s == s'
  | .internal l r, .internal l' r' => l.same l' && r.same r'
  | _, _ => false

/-- `Flatten(tree)` (rule R30), the pre-order records of a subtree whose root has index `i`. DESIGN CHOICE: a child index above
511 is cut to its low 9 bits, in a tree larger than the block holds (notes/assumptions/24.md). -/
def PrefixNode.flattenFrom : PrefixNode → Nat → List NodeRecord
  | .leaf s w, _ => [⟨false, s, w, 0, 0⟩]
  | .internal l r, i =>
    ⟨true, 0, l.weight + r.weight, BitVec.ofNat 9 (i + 1), BitVec.ofNat 9 (i + 1 + l.size)⟩ ::
      (l.flattenFrom (i + 1) ++ r.flattenFrom (i + 1 + l.size))

/-- `Flatten(tree)`: the root is node 0 (rule R30). -/
def PrefixNode.flatten (t : PrefixNode) : List NodeRecord := t.flattenFrom 0

/-! ## Counting, sorting, merging -/

/-- `Freq(symbols)[b]` (rule R120). -/
def symbolFreq (symbols : List Byte) (b : Byte) : Word := BitVec.ofNat 64 (symbols.count b)

/-- The byte values in ascending order. -/
def allBytes : List Byte := (List.range Config.symbolCount).map (BitVec.ofNat 8)

/-- The FrequencyTable, all 256 counts in ascending order of byte value (rule R14). -/
def freqTable (symbols : List Byte) : List Word := allBytes.map (symbolFreq symbols)

/-- The byte values whose count is nonzero, in ascending order. -/
def usedSymbols (f : Byte → Word) : List Byte := allBytes.filter fun b => decide (f b ≠ 0)

/-- `Seed(f)` (rule R122). -/
def seed (f : Byte → Word) : List PrefixNode := (usedSymbols f).map fun b => .leaf b (f b)

/-- An entry put into a collection sorted by descending weight, before the entries of equal weight. -/
def insertDesc (x : PrefixNode) : List PrefixNode → List PrefixNode
  | [] => [x]
  | y :: ys => if y.weight ≤ x.weight then x :: y :: ys else y :: insertDesc x ys

/-- `SortDesc(work)` (rule R123): stable, by descending weight. -/
def sortDesc : List PrefixNode → List PrefixNode
  | [] => []
  | x :: xs => insertDesc x (sortDesc xs)

/-- The new node of a merge (rule R124, `CHILD_ORDER`). -/
def joinNodes (o : ChildOrder) (last prev : PrefixNode) : PrefixNode :=
  match o with
  | .lastLeft => .internal last prev
  | .lastRight => .internal prev last

/-- `MergeStep(work)` (rule R124), for at least two entries. -/
def mergeStep (o : ChildOrder) (work : List PrefixNode) : List PrefixNode :=
  match (sortDesc work).reverse with
  | last :: prev :: front => front.reverse ++ [joinNodes o last prev]
  | _ => work

/-- `MergeStep` until one tree remains (rule R125). Each step lowers the length by one (rule R130), so as many turns as
there are entries suffice. -/
def mergeAll (o : ChildOrder) : Nat → List PrefixNode → List PrefixNode
  | 0, work => work
  | n + 1, work => if 1 < work.length then mergeAll o n (mergeStep o work) else work

/-- `Build(symbols)` (rules R125, R127, R128). The two arms for an empty collection cannot be reached
(notes/assumptions/9.md). -/
def build (o : ChildOrder) (symbols : List Byte) : Result PrefixNode :=
  if symbols = [] then raise .emptyInput 0
  else
    match usedSymbols (symbolFreq symbols) with
    | [] => raise .emptyInput 0
    | [b] => raise .singleSymbol (b.setWidth 64)
    | _ =>
      let work := seed (symbolFreq symbols)
      match mergeAll o work.length work with
      | t :: _ => .ok t
      | [] => raise .emptyInput 0

/-! ## BUILD -/

/-- What BUILD leaves when it does not fault (rules R126 and R36). -/
def State.withBuilt (s : State) (symbols : List Byte) (t : PrefixNode) : State :=
  { s with
    status := Status.make .done true true false false false false
    err := 0
    errInfo := 0
    outLen := 0
    bitLen := 0
    cursor := 0
    nleaf := BitVec.ofNat 64 t.leafCount
    freq := s.freq.store (freqTable symbols)
    tree := some t }

/-- BUILD's own work (rule R126). -/
def runBuild (s : State) : Result State := do
  needCapacity s
  let t ← build s.params.childOrder s.inBytes
  return s.withBuilt s.inBytes t

/-- BUILD (rule R126). -/
def execBuild (s : State) : Host.Outcome State Fault Refusal := runCommand runBuild s

end Sys2Proof.Machine
end

