-- ==== Sys2Proof/Machine/CodeGenerator.lean ====
section
/-! DEFINITION. The code generator and the CODES command (spec/41_code_generator.md). -/

namespace Sys2Proof.Machine

/-- A mapping from byte value to Code, as an association list. -/
abbrev CodeMap := List (Byte × BitSeq)

/-- `Visit` (rule R140): left subtree first; the first leaf met keeps the symbol. -/
def visit : PrefixNode → BitSeq → CodeMap → CodeMap
  | .leaf s _, path, m => if (m.lookup s).isNone then m ++ [(s, path)] else m
  | .internal l r, path, m => visit r (path ++ [true]) (visit l (path ++ [false]) m)

/-- `CodesOf(tree)` (rule R140). -/
def codesOf (t : PrefixNode) : CodeMap := visit t [] []

/-- `Lookup(tree, s)` (rule R141): the code in the mapping, or nothing. -/
def lookupCode (t : PrefixNode) (s : Byte) : Option BitSeq := (codesOf t).lookup s

/-- The other implementation rule R141 allows: walk the tree, "returning the first matching path". -/
def walkLookup : PrefixNode → Byte → Option BitSeq
  | .leaf s _, x => if s = x then some [] else none
  | .internal l r, x =>
    match walkLookup l x with
    | some p => some (false :: p)
    | none => (walkLookup r x).map (true :: ·)

/-- The CODE record of one byte value (rules R28 and R143). DESIGN CHOICE: the `len` of a code longer than 255 bits is the low
8 bits of its length (notes/assumptions/24.md). -/
def codeRecord (m : CodeMap) (b : Byte) : CodeRecord :=
  match m.lookup b with
  | some bits => ⟨true, BitVec.ofNat 8 bits.length, bits⟩
  | none => ⟨false, 0, []⟩

/-- The CODE table of a tree: all 256 records (rule R143). -/
def codeTable (t : PrefixNode) : List CodeRecord := allBytes.map (codeRecord (codesOf t))

/-! ## CODES -/

/-- What CODES leaves when it does not fault (rules R143 and R36). -/
def State.withCodes (s : State) (t : PrefixNode) : State :=
  { s with
    status := Status.make .done (Status.freqV s.status) (Status.treeV s.status) true (Status.cpV s.status)
      (Status.outV s.status) (Status.sent s.status)
    err := 0
    errInfo := 0
    code := s.code.store (codeTable t) }

/-- CODES's own work (rule R143). -/
def runCodes (s : State) : Result State := do
  let t ← needTree .codes s
  return s.withCodes t

/-- CODES (rule R143). -/
def execCodes (s : State) : Host.Outcome State Fault Refusal := runCommand runCodes s

end Sys2Proof.Machine
end

