-- ==== Sys2Proof/Machine/CanonicalCodeEncoder.lean ====
section
/-! DEFINITION. The canonical code encoder and the CPLIST command (spec/42_canonical_code_encoder.md): a tree to its list of
CodePoints and the descriptor, and a list back to a tree. The codes are not canonical Huffman codes (rule R160). -/

namespace Sys2Proof.Machine

/-- `Go` (rule R150): the CodePoints of a subtree at depth `d`. DESIGN CHOICE: the `len` of a leaf deeper than 255 is the low
8 bits of its depth; the spec says nothing there (spec/91_not_in_source.md N18), and no tree the block holds has such a leaf
(notes/assumptions/24.md). -/
def codePointsAt : PrefixNode → Nat → List CodePoint
  | .leaf s _, d => [⟨BitVec.ofNat 8 d, s⟩]
  | .internal l r, d => codePointsAt l (d + 1) ++ codePointsAt r (d + 1)

/-- `CodePoints(tree)` (rule R150): the root has depth 0. -/
def codePoints (t : PrefixNode) : List CodePoint := codePointsAt t 0

/-- The entries of a descriptor, appended to `bits` (rule R152). -/
def appendEntries (bits : BitSeq) : List CodePoint → BitSeq
  | [] => bits
  | c :: cps => appendEntries (appendField8 (appendField8 bits c.len) c.sym) cps

/-- `DescriptorBits(cps)` (rule R152): the entries, then one all-zero field. -/
def descriptorBits (cps : List CodePoint) : BitSeq := appendField8 (appendEntries [] cps) 0

/-- `Node(depth)` (rules R154 and R155) with the CodePoints not yet consumed, the shared read cursor. The first argument
bounds the depth of the recursion; from 257 it is never used up, since at depth 256 every length is below the depth
(rule R154; notes/assumptions/9.md). -/
def rebuildNode : Nat → Nat → List CodePoint → Result (PrefixNode × List CodePoint)
  | 0, _, _ => raise .corruptStream 3
  | n + 1, depth, cps =>
    match cps with
    | [] => raise .corruptStream 2
    | c :: rest =>
      if c.len.toNat = depth then .ok (.leaf c.sym 0, rest)
      else if c.len.toNat < depth then raise .corruptStream 3
      else do
        let (l, cps₁) ← rebuildNode n (depth + 1) cps
        let (r, cps₂) ← rebuildNode n (depth + 1) cps₁
        return (.internal l r, cps₂)

/-- `Rebuild(cps)` (rules R154 and R157): entries left over are `CorruptStream(4)`. -/
def rebuild (cps : List CodePoint) : Result PrefixNode := do
  let (t, rest) ← rebuildNode 257 0 cps
  match rest with
  | [] => return t
  | _ :: _ => raise .corruptStream 4

/-! ## CPLIST -/

/-- What CPLIST leaves when it does not fault (rules R158 and R36). -/
def State.withCodePoints (s : State) (t : PrefixNode) : State :=
  { s with
    status := Status.make .done (Status.freqV s.status) (Status.treeV s.status) (Status.codeV s.status) true
      (Status.outV s.status) (Status.sent s.status)
    err := 0
    errInfo := 0
    cp := s.cp.store (codePoints t) }

/-- CPLIST's own work (rule R158). -/
def runCplist (s : State) : Result State := do
  let t ← needTree .cplist s
  return s.withCodePoints t

/-- CPLIST (rule R158). -/
def execCplist (s : State) : Host.Outcome State Fault Refusal := runCommand runCplist s

end Sys2Proof.Machine
end

