-- ==== Sys2Proof/Machine/BitSerializer.lean ====
section
/-! DEFINITION. The bit serializer and the SERIALIZE and ENCODE commands (spec/43_bit_serializer.md). -/

namespace Sys2Proof.Machine

/-- The loop of `PayloadBits` over a mapping (rule R170): the first symbol without a code faults (rule R171). -/
def payloadFrom (m : CodeMap) : List Byte → Result BitSeq
  | [] => .ok []
  | x :: xs =>
    match m.lookup x with
    | none => raise .symbolNotInTree (x.setWidth 64)
    | some code => do
      let rest ← payloadFrom m xs
      return code ++ rest

/-- `PayloadBits(tree, symbols)` (rule R170). -/
def payloadBits (t : PrefixNode) (symbols : List Byte) : Result BitSeq := payloadFrom (codesOf t) symbols

/-- `n` bytes from the front of a bit sequence. -/
def chunks : Nat → BitSeq → List Byte
  | 0, _ => []
  | n + 1, bits => byte8 (bits.take 8) :: chunks n (bits.drop 8)

/-- The number of padding bits after `n` bits (rule R98). -/
def paddingBits (n : Nat) : Nat := (8 - n % 8) % 8

/-- `Pack(bits)` (rule R172). -/
def pack (bits : BitSeq) : List Byte :=
  let p := paddingBits bits.length
  chunks ((bits.length + p) / 8) (bits ++ List.replicate p false)

/-- `Serialize(tree, symbols)` (rule R174): the bytes, and the bit count before padding. -/
def serialize (t : PrefixNode) (symbols : List Byte) : Result (List Byte × Nat) := do
  let payload ← payloadBits t symbols
  let bits := descriptorBits (codePoints t) ++ payload
  return (pack bits, bits.length)

/-- The symbols ENCODE works on: the input and the sentinel (rule R177). -/
def withSentinel (symbols : List Byte) : List Byte := symbols ++ [Config.sentinel]

/-- `Encode(S)` (rule R177), with the tree it built. -/
def encodeBytes (o : ChildOrder) (symbols : List Byte) : Result (PrefixNode × List Byte × Nat) := do
  let t ← build o (withSentinel symbols)
  let (bytes, n) ← serialize t (withSentinel symbols)
  return (t, bytes, n)

/-! ## SERIALIZE -/

/-- What SERIALIZE leaves when it does not fault (rules R176 and R36). -/
def State.withSerialized (s : State) (t : PrefixNode) (bytes : List Byte) (n : Nat) : State :=
  { s with
    status := Status.make .done (Status.freqV s.status) (Status.treeV s.status) true true true false
    err := 0
    errInfo := 0
    outLen := BitVec.ofNat 64 bytes.length
    bitLen := BitVec.ofNat 64 n
    cursor := 0
    outMem := s.outMem.store bytes
    code := s.code.store (codeTable t)
    cp := s.cp.store (codePoints t) }

/-- SERIALIZE's own work (rule R176): `Sequence` is tested before `Capacity` (rule R240). -/
def runSerialize (s : State) : Result State := do
  let t ← needTree .serialize s
  needCapacity s
  let (bytes, n) ← serialize t s.inBytes
  return s.withSerialized t bytes n

/-- SERIALIZE (rule R176). -/
def execSerialize (s : State) : Host.Outcome State Fault Refusal := runCommand runSerialize s

/-! ## ENCODE -/

/-- What ENCODE leaves when it does not fault (rules R178 and R36). IN and `IN_LEN` are unchanged. -/
def State.withEncoded (s : State) (symbols : List Byte) (t : PrefixNode) (bytes : List Byte) (n : Nat) : State :=
  { s with
    status := Status.make .done true true true true true false
    err := 0
    errInfo := 0
    outLen := BitVec.ofNat 64 bytes.length
    bitLen := BitVec.ofNat 64 n
    cursor := 0
    nleaf := BitVec.ofNat 64 t.leafCount
    outMem := s.outMem.store bytes
    freq := s.freq.store (freqTable symbols)
    tree := some t
    code := s.code.store (codeTable t)
    cp := s.cp.store (codePoints t) }

/-- ENCODE's own work (rule R178). -/
def runEncode (s : State) : Result State := do
  needCapacity s
  let (t, bytes, n) ← encodeBytes s.params.childOrder s.inBytes
  return s.withEncoded (withSentinel s.inBytes) t bytes n

/-- ENCODE (rule R178). -/
def execEncode (s : State) : Host.Outcome State Fault Refusal := runCommand runEncode s

end Sys2Proof.Machine
end

