-- ==== Sys2Proof/Machine/BitDeserializer.lean ====
section
/-! DEFINITION. The bit deserializer and the DESERIALIZE command (spec/44_bit_deserializer.md). -/

namespace Sys2Proof.Machine

/-- `Expand(packed)` (rule R190): the bits of every byte, then one guard bit. -/
def expand (packed : List Byte) : BitSeq := packed.flatMap bits8 ++ [false]

/-- One turn of `ParseDescriptor` (rule R192): the terminator (`none`) or a CodePoint read whole. -/
def readEntry (r : Reader) : Result (Option CodePoint × Reader) := do
  let (len, r₁) ← readField8 r
  if len = 0 then return (none, r₁)
  else
    let (sym, r₂) ← readField8 r₁
    return (some ⟨len, sym⟩, r₂)

/-- `ParseDescriptor` with room for so many more entries (rules R192 and R193). -/
def parseEntries : Nat → Reader → Result (List CodePoint × Reader)
  | 0, r => do
    let (e, r₁) ← readEntry r
    match e with
    | none => return ([], r₁)
    | some _ => raise .corruptStream 6
  | room + 1, r => do
    let (e, r₁) ← readEntry r
    match e with
    | none => return ([], r₁)
    | some c =>
      let (cps, r₂) ← parseEntries room r₁
      return (c :: cps, r₂)

/-- `ParseDescriptor(bits)` (rule R192): at most `CP_CAP` entries (rule R193). -/
def parseDescriptor (bits : BitSeq) : Result (List CodePoint × Reader) :=
  parseEntries Config.cpCap (Reader.start bits 0)

/-- `Walk(tree, bits, cur)` (rules R194 and R195): left on 0, right on 1, until a leaf. -/
def walk : PrefixNode → Reader → Result (Byte × Reader)
  | .leaf s _, r => .ok (s, r)
  | .internal left right, r => do
    let (b, r₁) ← readBit r
    if b then walk right r₁ else walk left r₁

/-- The loop of `DecodePayload` (rule R196): the symbols collected, the reader where it stopped, and `SENT`. Stop
condition (b) is tested before every walk (rule R197). The first argument bounds the turns; every walk from an internal
root reads a bit, so the number of bits is never used up (rule R202; notes/assumptions/9.md). -/
def decodeLoop (t : PrefixNode) : Nat → Reader → Result (List Byte × Reader × Bool)
  | 0, r => .ok ([], r, false)
  | n + 1, r =>
    if r.rest.length < 2 then .ok ([], r, false)
    else do
      let (s, r₁) ← walk t r
      if s = Config.sentinel then return ([], r₁, true)
      else
        let (out, r₂, sent) ← decodeLoop t n r₁
        return (s :: out, r₂, sent)

/-- `DecodePayload(tree, bits, cur)` (rule R196). -/
def decodePayload (t : PrefixNode) (r : Reader) : Result (List Byte × Reader × Bool) := decodeLoop t r.rest.length r

/-- The result of `Deserialize` (rule R198). -/
structure Decoded where
  tree : PrefixNode
  out : List Byte
  cps : List CodePoint
  cursor : Nat
  sent : Bool
  deriving DecidableEq, Repr

/-- `Deserialize(packed)` (rule R198): the first fault met ends it. -/
def deserialize (packed : List Byte) : Result Decoded := do
  let (cps, r) ← parseDescriptor (expand packed)
  let t ← rebuild cps
  let (out, r₁, sent) ← decodePayload t r
  return ⟨t, out, cps, r₁.cur, sent⟩

/-- `Decode(packed)` (rule R198): the recovered symbols. -/
def decodeBytes (packed : List Byte) : Result (List Byte) := do
  let d ← deserialize packed
  return d.out

/-! ## DESERIALIZE -/

/-- What DESERIALIZE leaves when it does not fault (rules R199 and R36). -/
def State.withDecoded (s : State) (d : Decoded) : State :=
  { s with
    status := Status.make .done false true false true true d.sent
    err := 0
    errInfo := 0
    outLen := BitVec.ofNat 64 d.out.length
    bitLen := 8 * s.inLen + 1
    cursor := BitVec.ofNat 64 d.cursor
    nleaf := BitVec.ofNat 64 d.cps.length
    outMem := s.outMem.store d.out
    tree := some d.tree
    cp := s.cp.store d.cps }

/-- DESERIALIZE's own work (rule R199). -/
def runDeserialize (s : State) : Result State := do
  needCapacity s
  let d ← deserialize s.inBytes
  return s.withDecoded d

/-- DESERIALIZE (rule R199). -/
def execDeserialize (s : State) : Host.Outcome State Fault Refusal := runCommand runDeserialize s

end Sys2Proof.Machine
end

