-- ==== Sys2Proof/Machine/SystemCommands.lean ====
section
/-! DEFINITION. The RESET command and hardware reset (spec/45_system_commands.md section 2; spec/70_reset_and_hazards.md
section 1). -/

namespace Sys2Proof.Machine

/-- RESET (rule R215): accepted in IDLE, DONE and FAULT, where it takes effect with the write; dropped in BUSY (rule
R221). -/
def execReset (s : State) : Host.Outcome State Fault Refusal :=
  match s.phase with
  | .busy => .next s
  | .idle => .next s.toReset
  | .done => .next s.toReset
  | .fault => .next s.toReset

/-- Hardware reset (rules R260 and R261): from any state, a running command included. -/
def State.hardReset (s : State) : State := s.toReset

end Sys2Proof.Machine
end

