-- ==== Sys2Proof/Machine/HostPort.lean ====
section
/-! DEFINITION. The host port: `MemRead` and `MemWrite` (spec/20_memory.md section 1), the write of `CMD` that starts a
command (spec/45_system_commands.md rule R216), the completion that ends it (spec/20_memory.md rule R67), and one move of
either agent. -/

namespace Sys2Proof.Machine

/-! ## Reads -/

/-- The registers as the host reads them (rule R23): `CMD` reads 0, `ID` is a constant. -/
def readRegister (s : State) : Nat → Option Value
  | 0 => some (.byte 0)
  | 1 => some (.byte s.status)
  | 2 => some (.byte s.err)
  | 3 => some (.word s.errInfo)
  | 4 => some (.word s.inLen)
  | 5 => some (.word s.outLen)
  | 6 => some (.word s.bitLen)
  | 7 => some (.word s.cursor)
  | 8 => some (.word s.nleaf)
  | 9 => some (.word Config.idValue)
  | _ => none

/-- An element of a table whose valid flag and length say that it may be read (rule R26). -/
def readValid {α : Type} (wrap : α → Value) (valid : Bool) (n : Nat) (m : Space α) (i : Nat) : Option Value :=
  if valid && decide (i < n) then (m.read i).map wrap else none

/-- NODE, computed from the tree on a read (rules R26 and R30). -/
def readNode (s : State) (i : Nat) : Option Value :=
  match s.tree with
  | some t =>
    if Status.treeV s.status && decide (i < 2 * s.nleaf.toNat - 1) then (t.flatten[i]?).map Value.node else none
  | none => none

/-- `MemRead(space, i)` (rules R61, R26, R60), or no value where the spec leaves it unspecified
(spec/93_implementation_defined.md entry U3). -/
def memRead (s : State) (space i : Nat) : Option Value :=
  match space with
  | 0 => readRegister s i
  | 1 => readValid .byte true s.params.inCap s.inMem i
  | 2 => readValid .byte (Status.outV s.status) s.outLen.toNat s.outMem i
  | 3 => readValid .word (Status.freqV s.status) Config.symbolCount s.freq i
  | 4 => readNode s i
  | 5 => readValid .code (Status.codeV s.status) Config.symbolCount s.code i
  | 6 => readValid .codePoint (Status.cpV s.status) s.nleaf.toNat s.cp i
  | _ => none

/-- A host read in any phase: in BUSY only `STATUS` and `ID` return their values (rule R62). -/
def hostRead (s : State) (space i : Nat) : Option Value :=
  match s.phase with
  | .busy => if space = 0 ∧ (i = 1 ∨ i = 9) then memRead s space i else none
  | _ => memRead s space i

/-- The reply to a read. -/
def replyOf : Option Value → Reply
  | some v => .value v
  | none => .unspecified

/-- A host read changes no state of the block (rule R63); only the host's own reply changes. -/
def State.afterRead (s : State) (space i : Nat) : State := { s with reply := replyOf (hostRead s space i) }

/-! ## Writes -/

/-- `MemWrite(space, i, v)` for every element but `CMD` (rules R61 and R63): `IN_LEN` and `IN[i]` are writable, the value
is truncated to the element's width, and a write to any other element is dropped. -/
def memWrite (s : State) (space i v : Nat) : State :=
  if space = 0 ∧ i = 4 then { s with inLen := BitVec.ofNat 64 v }
  else if space = 1 ∧ i < s.params.inCap then { s with inMem := s.inMem.write i (BitVec.ofNat 8 v) }
  else s

/-- A command word is carried out: the command it decodes to, or the fault of a reserved opcode (rule R216). -/
def execWord (w : Byte) (s : State) : Host.Outcome State Fault Refusal :=
  match decode [w] with
  | .ok (i, _) => exec i s
  | .error _ => runCommand (runIllegal w) s

/-- A command is accepted and runs on: `STATE <- BUSY` (rule R216), its opcode held in `CMD`. -/
def State.start (s : State) (w : Byte) : State :=
  { s with status := Status.withPhase s.status .busy, cmd := w }

/-- The running command's state as its completion sees it: no command held, and a phase that accepts
(notes/assumptions/8.md). -/
def State.release (s : State) : State := { s with status := Status.withPhase s.status .done, cmd := 0 }

/-- The running command completes: all its writes become visible together (rule R67). -/
def complete (s : State) : Host.Outcome State Fault Refusal := execWord s.cmd s.release

/-- A host write of `CMD` (rule R216) in a state whose `moves` are the moves after it. RESET takes effect with the write
(rule R215); a dropped write changes nothing (rules R220 and R221). Any other command starts; it completes in the same
step when its completion is the very next move or no move is left, and otherwise the block is BUSY until its completion
(rules R67 and R273; notes/assumptions/4.md). -/
def writeCmd (w : Byte) (s : State) : Host.Outcome State Fault Refusal :=
  if w = opcode .reset then execWord w s
  else
    match s.phase with
    | .busy => .next s
    | .fault => .next s
    | .idle | .done =>
      match s.moves with
      | [] => execWord w s
      | .complete :: later => execWord w { s with moves := later }
      | .read _ _ :: _ => .next (s.start w)
      | .write _ _ _ :: _ => .next (s.start w)
      | .hardReset :: _ => .next (s.start w)

/-- A host write in any phase: in BUSY every write is dropped (rule R62). -/
def hostWrite (s : State) (space i v : Nat) : Host.Outcome State Fault Refusal :=
  match s.phase with
  | .busy => .next s
  | _ => if space = 0 ∧ i = 0 then writeCmd (BitVec.ofNat 8 v) s else .next (memWrite s space i v)

/-! ## One move -/

/-- The block's own move: a running command completes; when none runs there is nothing to do (rules R251 and R275). -/
def blockMove (s : State) : Host.Outcome State Fault Refusal :=
  match s.phase with
  | .busy => complete s
  | _ => .next s

/-- One move, in a state whose `moves` are the moves after it. -/
def moveStep (m : Move) (s : State) : Host.Outcome State Fault Refusal :=
  match m with
  | .read space i => .next (s.afterRead space i)
  | .write space i v => hostWrite s space i v
  | .hardReset => .next s.hardReset
  | .complete => blockMove s

/-- The state with a command word where the next step takes it: a host write of `CMD`, and the command's completion
(rule R106; notes/assumptions/3.md). -/
def State.withCommand (s : State) (w : Byte) : State :=
  { s with moves := .write 0 0 w.toNat :: .complete :: s.moves }

end Sys2Proof.Machine
end

