-- ==== Sys2Proof/Machine/HostNotation.lean ====
section
/-! DEFINITION. The host notation and its pseudo-instructions (spec/30_encoding.md rules R105 to R107): each is a list of
moves. -/

namespace Sys2Proof.Machine

/-- `CMD <mnemonic>` (rule R106). -/
def hostCmd (i : Instr) : List Move := [.write 0 0 (opcode i).toNat]

/-- The writes of `LOAD` from index `k` on. -/
def loadFrom : Nat → List Byte → List Move
  | _, [] => []
  | k, b :: bs => .write 1 k b.toNat :: loadFrom (k + 1) bs

/-- `LOAD b0 b1 ...` (rule R107): the bytes into IN from index 0, then `IN_LEN`. -/
def hostLoad (bytes : List Byte) : List Move := loadFrom 0 bytes ++ [.write 0 4 bytes.length]

/-- `WAIT` (rule R107): `STATUS` is read `polls` times while the command runs, it completes, and one more read sees that
`STATE` is not BUSY. -/
def hostWait (polls : Nat) : List Move := List.replicate polls (.read 0 1) ++ [.complete, .read 0 1]

/-- `DECODE` (rules R93 and R107). -/
def hostDecode : List Move := hostCmd .deserialize

/-- `ENCODE.S` (rule R107) for the given `IN_LEN`, with so many polls in its one `WAIT`, which stands between BUILD and
SERIALIZE. It ends with the write of SERIALIZE; a host that reads the result waits again. -/
def hostEncodeStaged (inLen polls : Nat) : List Move :=
  [.write 1 inLen 0, .write 0 4 (inLen + 1)] ++ hostCmd .build ++ hostWait polls ++ hostCmd .serialize

end Sys2Proof.Machine
end

