-- ==== Sys2Proof/Machine/Step.lean ====
section
/-! DEFINITION. One step of the machine (spec/00_scope.md rule R5): one host transaction, one completion of a command, or
a hardware reset, whichever the schedule names next. -/

namespace Sys2Proof.Machine

/-- One step. With no move left, a running command completes (rule R222) and an idle block waits (rule R251). -/
def step (s : State) : Host.Outcome State Fault Refusal :=
  match s.moves with
  | [] => blockMove s
  | m :: later => moveStep m { s with moves := later }

/-- The state with an instruction of the opcode table where the next step takes it. -/
def State.withFetchWord (s : State) (nbits w : Nat) : State := s.withCommand (tableWord nbits w)

end Sys2Proof.Machine
end

