-- ==== Sys2Proof/Safety.lean ====
section
/-! DEFINITION. What counts as a safe run, in the words the statements use: the phase that accepts a command, what every
command leaves alone, and the invariant of the machine (spec/10_state.md rules R24 to R36). -/

namespace Sys2Proof.Machine

/-! ## Words for statements -/

/-- The block accepts a command: `STATE` is IDLE or DONE (rules R25 and R216). -/
abbrev State.ready (s : State) : Prop := s.phase = .idle ∨ s.phase = .done

/-- What no command writes but RESET (rule R36): IN, `IN_LEN` and the parameters; and the model's own fields and the command
latch, which a command does not touch. -/
def State.keepsInput (s u : State) : Prop :=
  u.params = s.params ∧ u.inLen = s.inLen ∧ u.inMem = s.inMem ∧ u.cmd = s.cmd ∧ u.moves = s.moves ∧ u.reply = s.reply ∧
    u.epoch = s.epoch

/-- `SPACE[i]` for every `i < len(xs)` holds `xs[i]`, and every other element reads as in `before`. -/
def Space.holds {α : Type} (after before : Space α) (xs : List α) : Prop :=
  ∀ i, Space.read after i = if i < xs.length then xs[i]? else Space.read before i

/-- `OUT[0..OUT_LEN)` as a list, where each element has a value. -/
def State.outBytes (s : State) : List (Option Byte) := (List.range s.outLen.toNat).map s.outMem.read

/-- The weight of every leaf is 0, as in a tree rebuilt from a stream (rule R31). -/
def PrefixNode.weightless : PrefixNode → Prop
  | .leaf _ w => w = 0
  | .internal l r => l.weightless ∧ r.weightless

/-- The symbol of the leaf that a path ends at, 0 (`false`) to the left and 1 (`true`) to the right (rules R14 and R97); nothing
where the path ends at an internal node or goes beyond a leaf. -/
def PrefixNode.leafAt : PrefixNode → BitSeq → Option Byte
  | .leaf s _, [] => some s
  | .leaf _ _, _ :: _ => none
  | .internal _ _, [] => none
  | .internal l r, b :: path => if b then r.leafAt path else l.leafAt path

/-- The records of `nodes` show the subtree `t` at index `i` (rule R30). -/
def showsNode (nodes : List NodeRecord) : PrefixNode → Nat → Prop
  | .leaf s w, i => nodes[i]? = some ⟨false, s, w, 0, 0⟩
  | .internal l r, i =>
    ∃ left right : BitVec 9,
      nodes[i]? = some ⟨true, 0, l.weight + r.weight, left, right⟩ ∧
        left.toNat = i + 1 ∧ right.toNat = i + 1 + l.size ∧ showsNode nodes l left.toNat ∧ showsNode nodes r right.toNat

/-- The sum of the weights of a working collection. -/
def totalWeight (work : List PrefixNode) : Word := (work.map PrefixNode.weight).sum

/-! ## The invariant -/

/-- Every space keeps its canonical form and lies inside its capacity (rules R22 and R175). -/
structure State.spacesLegal (s : State) : Prop where
  params : s.params.wf = true
  inForm : Memory.wf s.inMem
  outForm : Memory.wf s.outMem
  freqForm : Space.wf s.freq
  codeForm : Space.wf s.code
  cpForm : Space.wf s.cp
  inBound : ∀ c ∈ s.inMem, c.1 < s.params.inCap
  outBound : ∀ c ∈ s.outMem, c.1 < s.params.outCap
  freqBound : ∀ c ∈ s.freq, c.1 < Config.symbolCount
  codeBound : ∀ c ∈ s.code, c.1 < Config.symbolCount
  cpBound : ∀ c ∈ s.cp, c.1 < Config.cpCap
  outLen : s.outLen.toNat ≤ s.params.outCap

/-- `STATUS`, `ERR`, `ERRINFO` and `CMD` agree (rules R23, R25, R230 and R241). -/
structure State.statusLegal (s : State) : Prop where
  fault : s.phase = .fault → s.status = 0x03 ∧ 1 ≤ s.err.toNat ∧ s.err.toNat ≤ 7
  noFault : s.phase ≠ .fault → s.err = 0 ∧ s.errInfo = 0
  idle : s.phase = .idle → s.status = 0x00
  latch : s.phase ≠ .busy → s.cmd = 0
  running : s.phase = .busy → s.cmd ≠ opcode .reset
  sent : Status.sent s.status = true → Status.outV s.status = true
  noOut : Status.outV s.status = false → s.outLen = 0 ∧ s.bitLen = 0 ∧ s.cursor = 0

/-- `TREE`, `TREE_V` and `NLEAF` agree, and the tree is one the block can hold (rules R23, R24 and R32). -/
structure State.treeLegal (s : State) : Prop where
  flag : Status.treeV s.status = s.tree.isSome
  empty : s.tree = none → s.nleaf = 0
  held : ∀ t, s.tree = some t →
    s.nleaf = BitVec.ofNat 64 t.leafCount ∧ t.isInternal = true ∧ t.leafCount ≤ Config.leafMax ∧ t.height ≤ Config.depthMax
  needed : (Status.freqV s.status || Status.codeV s.status || Status.cpV s.status || Status.outV s.status) = true →
    Status.treeV s.status = true

/-- A set valid flag means what rule R24 says. -/
structure State.resultsValid (s : State) : Prop where
  freqTrue : Status.freqV s.status = true → ∃ t symbols, s.tree = some t ∧ symbols.length ≤ s.params.inCap + 1 ∧
    build s.params.childOrder symbols = .ok t ∧ ∀ b : Byte, s.freq.read b.toNat = some (symbolFreq symbols b)
  codeTrue : Status.codeV s.status = true → ∃ t, s.tree = some t ∧
    ∀ b : Byte, s.code.read b.toNat = some (codeRecord (codesOf t) b)
  cpTrue : Status.cpV s.status = true → ∃ t, s.tree = some t ∧ ∀ i < t.leafCount, s.cp.read i = (codePoints t)[i]?
  outTrue : Status.outV s.status = true → ∀ i < s.outLen.toNat, (s.outMem.read i).isSome = true

/-- The invariant of the machine. -/
structure State.Inv (s : State) : Prop where
  spaces : s.spacesLegal
  status : s.statusLegal
  tree : s.treeLegal
  results : s.resultsValid

end Sys2Proof.Machine
end

