-- ==== Sys2Proof/Certificates/Slice0/Obligations.lean ====
section
/-! DEFINITION. The statements for the provers. Each docstring names the rule it formalises or the sections it rests on. -/

open Sys2Proof Sys2Proof.Machine

/-! ## Encoding -/

/-- R91 and R92: the seven opcodes decode to their commands; 0x00 and 0x08 to 0xFF decode to none. -/
def Obligations.OpcodeWordsDecode : Prop :=
  decodeWord 0x01 = .ok .build ∧ decodeWord 0x02 = .ok .codes ∧ decodeWord 0x03 = .ok .cplist ∧
    decodeWord 0x04 = .ok .serialize ∧ decodeWord 0x05 = .ok .deserialize ∧ decodeWord 0x06 = .ok .encode ∧
    decodeWord 0x07 = .ok .reset ∧
    ∀ w : Byte, w.toNat = 0 ∨ 8 ≤ w.toNat → decodeWord w = .error (.reservedOpcode w)

/-- R90 and R104: decoding an encoded command gives it back with the bytes that follow, and a word that decodes is the
command's own encoding. -/
def Obligations.DecodeEncodeAgree : Prop :=
  (∀ (i : Instr) (rest : List Byte), decode (encode i ++ rest) = .ok (i, rest)) ∧
    ∀ (bytes rest : List Byte) (i : Instr), decode bytes = .ok (i, rest) → bytes = encode i ++ rest

/-- R105: the tuple of a host transaction and the transaction determine each other. -/
def Obligations.TransactionTupleRoundTrip : Prop :=
  ∀ (t : Transaction) (m : Move), decodeTransaction t = some m ↔ encodeMove m = some t

/-! ## The step -/

/-- A step runs the decoded command. When the next move is a host write of `CMD` whose low byte decodes to a command and no
move is left behind it, the step is `exec` of that command, in every phase; so it is where the block accepts commands and
the command's completion is the next move after the write. RESET takes effect with the write, so it takes no completion.
That the moves are a list and that these two schedules are one step each is the model's choice (log entries 3 and 4, DESIGN
CHOICE): R67 allows one step or two. -/
def Obligations.StepRunsDecodedCommand : Prop :=
  ∀ (s : State) (v : Nat) (later : List Move) (i : Instr), decode [BitVec.ofNat 8 v] = .ok (i, []) →
    (s.moves = [.write 0 0 v] → step s = exec i { s with moves := [] }) ∧
      (s.ready → i ≠ .reset → s.moves = .write 0 0 v :: .complete :: later → step s = exec i { s with moves := later }) ∧
      (i = .reset → s.moves = .write 0 0 v :: later → step s = exec i { s with moves := later })

/-- R67: a command as two steps (start, complete) leaves what it leaves as one step. The steps themselves: a write of `CMD`
with another opcode than RESET in IDLE or DONE carries the word out where its completion comes next or no move is left, and
otherwise starts it, which moves to BUSY and holds the opcode (R25, R216); in BUSY the completion is the next step where it is
the next move or no move is left (R222, R275). The list of moves, which of the two forms is taken, the latch and the completion
on the held state are the model's choices (log entries 3, 4, 6 and 8). -/
def Obligations.StartThenCompleteEqualsOneStep : Prop :=
  (∀ (s : State) (w : Byte), s.ready → s.cmd = 0 → complete (s.start w) = execWord w s) ∧
    (∀ (s : State) (w : Byte),
      s.start w = { s with status := (s.start w).status, cmd := w } ∧ (s.start w).phase = .busy ∧
        Status.freqV (s.start w).status = Status.freqV s.status ∧ Status.treeV (s.start w).status = Status.treeV s.status ∧
        Status.codeV (s.start w).status = Status.codeV s.status ∧ Status.cpV (s.start w).status = Status.cpV s.status ∧
        Status.outV (s.start w).status = Status.outV s.status ∧ Status.sent (s.start w).status = Status.sent s.status) ∧
    (∀ (s : State) (v : Nat), s.ready → v % 256 ≠ 7 →
      (s.moves = [.write 0 0 v] → step s = execWord (BitVec.ofNat 8 v) { s with moves := [] }) ∧
        (∀ later, s.moves = .write 0 0 v :: .complete :: later →
          step s = execWord (BitVec.ofNat 8 v) { s with moves := later }) ∧
        ∀ (m : Move) (later : List Move), m ≠ .complete → s.moves = .write 0 0 v :: m :: later →
          step s = .next (State.start { s with moves := m :: later } (BitVec.ofNat 8 v))) ∧
    ∀ s : State, s.phase = .busy →
      (s.moves = [] → step s = complete s) ∧
        ∀ later, s.moves = .complete :: later → step s = complete { s with moves := later }

/-- R222: the completion of a running command ends in DONE or FAULT. That no step at all stops the machine is the model's:
log entry 12 (DEDUCED), which rests on log entry 2 (DESIGN CHOICE: a free value where entry U4 of
spec/93_implementation_defined.md asks for a refusal). -/
def Obligations.EveryCommandCompletes : Prop :=
  (∀ s : State, ∃ u, step s = .next u) ∧
    ∀ s : State, s.cmd ≠ opcode .reset → ∃ u, complete s = .next u ∧ (u.phase = .done ∨ u.phase = .fault)

/-- R25: the transitions of `STATE` that one step may make, each with its cause: a write of `CMD`, the completion, RESET,
hardware reset. A completion in the step of its `CMD` write passes through BUSY unseen (R67; log entry 4). R251 and R275:
outside BUSY the block does nothing of its own, with no move left or a completion that has nothing to complete. -/
def Obligations.StepMovesStateAsListed : Prop :=
  (∀ s u : State, s.statusLegal → step s = .next u →
    u.phase = s.phase ∨
      (s.ready ∧ (∃ v later, s.moves = .write 0 0 v :: later ∧ v % 256 ≠ 7) ∧
        (u.phase = .busy ∨ u.phase = .done ∨ u.phase = .fault)) ∨
      (s.phase = .busy ∧ (s.moves = [] ∨ ∃ later, s.moves = .complete :: later) ∧
        (u.phase = .done ∨ u.phase = .fault)) ∨
      (u.phase = .idle ∧ ∃ later, s.moves = .hardReset :: later) ∨
      (s.phase ≠ .busy ∧ u.phase = .idle ∧ ∃ v later, s.moves = .write 0 0 v :: later ∧ v % 256 = 7)) ∧
    ∀ s : State, s.phase ≠ .busy →
      (s.moves = [] → step s = .next s) ∧
        ∀ later, s.moves = .complete :: later → step s = .next { s with moves := later }

/-- R242: FAULT is left by the RESET command or by hardware reset, and by nothing else; after it the block is in its reset
state. What is not the block's own (the parameters, the moves to come, the host's last answer) stays, and the count of resets
goes on (log entries 1, 2, 3 and 5). -/
def Obligations.FaultIsLeftByResetOnly : Prop :=
  ∀ s u : State, s.phase = .fault → step s = .next u →
    (u.phase ≠ .fault ↔
      (∃ later, s.moves = .hardReset :: later) ∨ ∃ v later, s.moves = .write 0 0 v :: later ∧ v % 256 = 7) ∧
      (u.phase ≠ .fault →
        u = { State.reset with params := s.params, moves := s.moves.tail, reply := s.reply, epoch := s.epoch + 1 })

/-! ## Drops -/

/-- R220: in FAULT every `CMD` write other than RESET is dropped, and so is every command. -/
def Obligations.FaultDropsCommands : Prop :=
  ∀ s : State, s.phase = .fault →
    (∀ i : Instr, i ≠ .reset → exec i s = .next s) ∧ ∀ v : Nat, v % 256 ≠ 7 → hostWrite s 0 0 v = .next s

/-- R62: in BUSY every host write is dropped, `CMD` and RESET included; a read of `STATUS` or `ID` returns its current
value, and every other read has no defined value. -/
def Obligations.BusyAllowsOnlyStatusAndId : Prop :=
  ∀ s : State, s.phase = .busy →
    (∀ space i v : Nat, hostWrite s space i v = .next s) ∧ (∀ i : Instr, exec i s = .next s) ∧
      hostRead s 0 1 = some (.byte s.status) ∧ hostRead s 0 9 = some (.word 0x48554601) ∧
      ∀ space i : Nat, ¬ (space = 0 ∧ (i = 1 ∨ i = 9)) → hostRead s space i = none

/-! ## Faults -/

/-- R241: fault entry. -/
def Obligations.FaultEntryWritesTheFaultState : Prop :=
  ∀ (s : State) (k : FaultKind) (v : Word),
    (s.enterFault k v).err = k.code ∧ (s.enterFault k v).errInfo = v ∧ (s.enterFault k v).status = 0x03 ∧
      (s.enterFault k v).outLen = 0 ∧ (s.enterFault k v).bitLen = 0 ∧ (s.enterFault k v).cursor = 0 ∧
      (s.enterFault k v).nleaf = 0 ∧ (s.enterFault k v).tree = none ∧ s.keepsInput (s.enterFault k v) ∧
      ∀ space i : Nat, 2 ≤ space → memRead (s.enterFault k v) space i = none

/-- R230: the codes of the seven faults, in the order of the table. -/
def Obligations.FaultCodes : Prop :=
  FaultKind.emptyInput.code = 1 ∧ FaultKind.singleSymbol.code = 2 ∧ FaultKind.corruptStream.code = 3 ∧
    FaultKind.symbolNotInTree.code = 4 ∧ FaultKind.illegalCommand.code = 5 ∧ FaultKind.sequence.code = 6 ∧
    FaultKind.capacity.code = 7

/-- R217: a reserved opcode in IDLE or DONE faults with `IllegalCommand`, records the opcode and writes nothing but the
fault state. The reserved opcodes are 0x00 and 0x08 to 0xFF (R92). The second clause, that the host write of it faults in the
same step where no move is left, is the model's choice (log entry 4, DESIGN CHOICE). -/
def Obligations.ReservedOpcodeFaults : Prop :=
  ∀ (s : State) (v : Nat), s.ready → v % 256 = 0 ∨ 8 ≤ v % 256 →
    execWord (BitVec.ofNat 8 v) s = .next (s.enterFault .illegalCommand (BitVec.ofNat 64 (v % 256))) ∧
      (s.moves = [] → hostWrite s 0 0 v = .next (s.enterFault .illegalCommand (BitVec.ofNat 64 (v % 256))))

/-- R218: CODES, CPLIST and SERIALIZE with `TREE_V = 0` fault with `Sequence` and record their opcode, before `Capacity` is
tested (R240); no other command ends in a `Sequence` fault. -/
def Obligations.SequenceFaults : Prop :=
  ∀ s : State, s.ready →
    (Status.treeV s.status = false →
      exec .codes s = .next (s.enterFault .sequence 2) ∧ exec .cplist s = .next (s.enterFault .sequence 3) ∧
        exec .serialize s = .next (s.enterFault .sequence 4)) ∧
      ∀ (i : Instr) (u : State), i = .build ∨ i = .encode ∨ i = .deserialize ∨ i = .reset → exec i s = .next u →
        u.err ≠ FaultKind.sequence.code

/-- R219: BUILD, SERIALIZE, DESERIALIZE and ENCODE with `IN_LEN > IN_CAP` fault with `Capacity` and record `IN_LEN`; CODES
and CPLIST do not make the test. -/
def Obligations.CapacityFaults : Prop :=
  ∀ s : State, s.ready → s.params.inCap < s.inLen.toNat →
    exec .build s = .next (s.enterFault .capacity s.inLen) ∧
      exec .deserialize s = .next (s.enterFault .capacity s.inLen) ∧
      exec .encode s = .next (s.enterFault .capacity s.inLen) ∧
      (∀ t, Status.treeV s.status = true → s.tree = some t →
        exec .serialize s = .next (s.enterFault .capacity s.inLen) ∧
          (∃ u, exec .codes s = .next u ∧ u.phase = .done) ∧ ∃ u, exec .cplist s = .next u ∧ u.phase = .done)

/-- R233: every fault of `Deserialize` is the one kind `CorruptStream` with a sub-cause from 1 to 6. -/
def Obligations.MalformedStreamsAreCorruptStreams : Prop :=
  ∀ (packed : List Byte) (e : Raise), deserialize packed = .error e →
    e.kind = .corruptStream ∧ 1 ≤ e.info.toNat ∧ e.info.toNat ≤ 6

/-! ## The commands: where each completes, what it leaves, and its frame -/

/-- R126: BUILD. -/
def Obligations.BuildCommand : Prop :=
  ∀ s : State, s.params.wf = true → s.ready →
    (s.params.inCap < s.inLen.toNat → exec .build s = .next (s.enterFault .capacity s.inLen)) ∧
      (s.inLen = 0 → exec .build s = .next (s.enterFault .emptyInput 0)) ∧
      (∀ b : Byte, s.inLen.toNat ≤ s.params.inCap → s.inLen ≠ 0 → (∀ x ∈ s.inBytes, x = b) →
        exec .build s = .next (s.enterFault .singleSymbol (b.setWidth 64))) ∧
      (s.inLen.toNat ≤ s.params.inCap → (∃ x ∈ s.inBytes, ∃ y ∈ s.inBytes, x ≠ y) →
        ∃ t u, build s.params.childOrder s.inBytes = .ok t ∧ exec .build s = .next u ∧
          u.status = 0x0E ∧ u.err = 0 ∧ u.errInfo = 0 ∧ u.outLen = 0 ∧ u.bitLen = 0 ∧ u.cursor = 0 ∧
          u.nleaf = BitVec.ofNat 64 t.leafCount ∧ u.tree = some t ∧
          (∀ b : Byte, u.freq.read b.toNat = some (BitVec.ofNat 64 (s.inBytes.count b))) ∧
          (∀ i, 256 ≤ i → u.freq.read i = s.freq.read i) ∧
          u.outMem = s.outMem ∧ u.code = s.code ∧ u.cp = s.cp ∧ s.keepsInput u)

/-- R143: CODES. Beside `CODE_V`, CODE and `STATE` it writes nothing. That `ERR` and `ERRINFO` are 0 after it, in every state
it runs in, is log entry 19 (DEDUCED, R36 against R143). That the `len` of a code longer than 255 bits, which no tree of the
block has, is the low 8 bits of its length is log entry 24 (DESIGN CHOICE). -/
def Obligations.CodesCommand : Prop :=
  ∀ s : State, s.ready →
    (Status.treeV s.status = false → exec .codes s = .next (s.enterFault .sequence 2)) ∧
      ∀ t, Status.treeV s.status = true → s.tree = some t →
        ∃ u, exec .codes s = .next u ∧ u.phase = .done ∧ Status.codeV u.status = true ∧
          Status.freqV u.status = Status.freqV s.status ∧ Status.treeV u.status = true ∧
          Status.cpV u.status = Status.cpV s.status ∧ Status.outV u.status = Status.outV s.status ∧
          Status.sent u.status = Status.sent s.status ∧ u.err = 0 ∧ u.errInfo = 0 ∧
          (∀ (b : Byte) (bits : BitSeq), (codesOf t).lookup b = some bits →
            u.code.read b.toNat = some ⟨true, BitVec.ofNat 8 bits.length, bits⟩) ∧
          (∀ b : Byte, (codesOf t).lookup b = none → u.code.read b.toNat = some ⟨false, 0, []⟩) ∧
          (∀ i, 256 ≤ i → u.code.read i = s.code.read i) ∧
          u.outLen = s.outLen ∧ u.bitLen = s.bitLen ∧ u.cursor = s.cursor ∧ u.nleaf = s.nleaf ∧ u.tree = s.tree ∧
          u.outMem = s.outMem ∧ u.freq = s.freq ∧ u.cp = s.cp ∧ s.keepsInput u

/-- R158: CPLIST. Beside `CP_V`, CP and `STATE` it writes nothing. That `ERR` and `ERRINFO` are 0 after it, in every state it
runs in, is log entry 19 (DEDUCED, R36 against R158). -/
def Obligations.CplistCommand : Prop :=
  ∀ s : State, s.ready →
    (Status.treeV s.status = false → exec .cplist s = .next (s.enterFault .sequence 3)) ∧
      ∀ t, Status.treeV s.status = true → s.tree = some t →
        ∃ u, exec .cplist s = .next u ∧ u.phase = .done ∧ Status.cpV u.status = true ∧
          Status.freqV u.status = Status.freqV s.status ∧ Status.treeV u.status = true ∧
          Status.codeV u.status = Status.codeV s.status ∧ Status.outV u.status = Status.outV s.status ∧
          Status.sent u.status = Status.sent s.status ∧ u.err = 0 ∧ u.errInfo = 0 ∧
          (codePoints t).length = t.leafCount ∧ u.cp.holds s.cp (codePoints t) ∧
          u.outLen = s.outLen ∧ u.bitLen = s.bitLen ∧ u.cursor = s.cursor ∧ u.nleaf = s.nleaf ∧ u.tree = s.tree ∧
          u.outMem = s.outMem ∧ u.freq = s.freq ∧ u.code = s.code ∧ s.keepsInput u

/-- R176 and R171: SERIALIZE. -/
def Obligations.SerializeCommand : Prop :=
  ∀ s : State, s.ready →
    (Status.treeV s.status = false → exec .serialize s = .next (s.enterFault .sequence 4)) ∧
      ∀ t, Status.treeV s.status = true → s.tree = some t →
        (s.params.inCap < s.inLen.toNat → exec .serialize s = .next (s.enterFault .capacity s.inLen)) ∧
          (∀ before x after, s.inLen.toNat ≤ s.params.inCap → s.inBytes = before ++ x :: after →
            (∀ y ∈ before, y ∈ t.symbols) → x ∉ t.symbols →
            exec .serialize s = .next (s.enterFault .symbolNotInTree (x.setWidth 64))) ∧
          (s.inLen.toNat ≤ s.params.inCap → (∀ x ∈ s.inBytes, x ∈ t.symbols) →
            ∃ bytes n u, serialize t s.inBytes = .ok (bytes, n) ∧ exec .serialize s = .next u ∧ u.phase = .done ∧
              Status.codeV u.status = true ∧ Status.cpV u.status = true ∧ Status.outV u.status = true ∧
              Status.sent u.status = false ∧ Status.freqV u.status = Status.freqV s.status ∧
              Status.treeV u.status = true ∧ u.err = 0 ∧ u.errInfo = 0 ∧
              u.outLen = BitVec.ofNat 64 bytes.length ∧ u.bitLen = BitVec.ofNat 64 n ∧ u.cursor = 0 ∧
              (∀ b : Byte, u.code.read b.toNat = some (codeRecord (codesOf t) b)) ∧
              (∀ i, 256 ≤ i → u.code.read i = s.code.read i) ∧
              u.cp.holds s.cp (codePoints t) ∧ u.outMem.holds s.outMem bytes ∧
              u.nleaf = s.nleaf ∧ u.tree = s.tree ∧ u.freq = s.freq ∧ s.keepsInput u)

/-- R199: DESERIALIZE. -/
def Obligations.DeserializeCommand : Prop :=
  ∀ s : State, s.ready →
    (s.params.inCap < s.inLen.toNat → exec .deserialize s = .next (s.enterFault .capacity s.inLen)) ∧
      (∀ e, s.inLen.toNat ≤ s.params.inCap → deserialize s.inBytes = .error e →
        exec .deserialize s = .next (s.enterFault .corruptStream e.info)) ∧
      (∀ d, s.inLen.toNat ≤ s.params.inCap → deserialize s.inBytes = .ok d →
        ∃ u, exec .deserialize s = .next u ∧ u.status = (if d.sent then 0xEA else 0x6A) ∧ u.err = 0 ∧ u.errInfo = 0 ∧
          u.tree = some d.tree ∧ u.nleaf = BitVec.ofNat 64 d.cps.length ∧ u.cp.holds s.cp d.cps ∧
          u.outMem.holds s.outMem d.out ∧ u.outLen = BitVec.ofNat 64 d.out.length ∧
          u.bitLen = 8 * s.inLen + 1 ∧ u.cursor = BitVec.ofNat 64 d.cursor ∧
          u.freq = s.freq ∧ u.code = s.code ∧ s.keepsInput u)

/-- R178: ENCODE. -/
def Obligations.EncodeCommand : Prop :=
  ∀ s : State, s.params.wf = true → s.ready →
    (s.params.inCap < s.inLen.toNat → exec .encode s = .next (s.enterFault .capacity s.inLen)) ∧
      (s.inLen.toNat ≤ s.params.inCap → (∀ x ∈ s.inBytes, x = 0) →
        exec .encode s = .next (s.enterFault .singleSymbol 0)) ∧
      (s.inLen.toNat ≤ s.params.inCap → (∃ x ∈ s.inBytes, x ≠ 0) →
        ∃ t bytes n u, build s.params.childOrder (s.inBytes ++ [0x00]) = .ok t ∧
          serialize t (s.inBytes ++ [0x00]) = .ok (bytes, n) ∧ exec .encode s = .next u ∧
          u.status = 0x7E ∧ u.err = 0 ∧ u.errInfo = 0 ∧
          (∀ b : Byte, u.freq.read b.toNat = some (BitVec.ofNat 64 ((s.inBytes ++ [0x00]).count b))) ∧
          (∀ i, 256 ≤ i → u.freq.read i = s.freq.read i) ∧
          u.tree = some t ∧ u.nleaf = BitVec.ofNat 64 t.leafCount ∧
          (∀ b : Byte, u.code.read b.toNat = some (codeRecord (codesOf t) b)) ∧
          (∀ i, 256 ≤ i → u.code.read i = s.code.read i) ∧
          u.cp.holds s.cp (codePoints t) ∧ u.outMem.holds s.outMem bytes ∧
          u.outLen = BitVec.ofNat 64 bytes.length ∧ u.bitLen = BitVec.ofNat 64 n ∧ u.cursor = 0 ∧ s.keepsInput u)

/-- R215: RESET, accepted in IDLE, DONE and FAULT and dropped in BUSY; it takes effect with the host's write of 0x07,
whatever moves come after it, and opens no BUSY interval. The contents of the six data spaces have no defined value after it.
What the statement says of the parameters, the command latch, the moves to come and the host's last answer is the model's
(log entries 1, 3, 5 and 6). -/
def Obligations.ResetCommand : Prop :=
  ∀ s : State,
    (s.phase = .busy → exec .reset s = .next s ∧ ∀ v : Nat, v % 256 = 7 → hostWrite s 0 0 v = .next s) ∧
      (s.phase ≠ .busy →
        ∃ u, exec .reset s = .next u ∧ (∀ v : Nat, v % 256 = 7 → hostWrite s 0 0 v = .next u) ∧
          u.status = 0x00 ∧ u.err = 0 ∧ u.errInfo = 0 ∧ u.inLen = 0 ∧ u.outLen = 0 ∧
          u.bitLen = 0 ∧ u.cursor = 0 ∧ u.nleaf = 0 ∧ u.tree = none ∧ u.cmd = 0 ∧
          (∀ space i : Nat, 1 ≤ space → hostRead u space i = none) ∧ hostRead u 0 9 = some (.word 0x48554601) ∧
          u.params = s.params ∧ u.moves = s.moves ∧ u.reply = s.reply)

/-- R178: ENCODE is the staged sequence BUILD, SERIALIZE over an input that ends in the sentinel, but for IN and
`IN_LEN`. -/
def Obligations.EncodeEqualsStagedEncode : Prop :=
  ∀ s staged : State, s.params.wf = true → s.ready → s.inLen.toNat < s.params.inCap → (∃ x ∈ s.inBytes, x ≠ 0) →
    staged = { s with inMem := staged.inMem, inLen := staged.inLen } → staged.inLen = s.inLen + 1 →
    staged.inBytes = s.inBytes ++ [0x00] →
    ∃ built done, exec .build staged = .next built ∧ exec .serialize built = .next done ∧
      exec .encode s = .next { done with inMem := s.inMem, inLen := s.inLen }

/-! ## The Tree Builder -/

/-- R120: the counts, and their sum. -/
def Obligations.FrequenciesCountSymbols : Prop :=
  ∀ symbols : List Byte, symbols.length < 2 ^ 64 →
    (∀ b : Byte, (symbolFreq symbols b).toNat = symbols.count b) ∧
      ((freqTable symbols).map BitVec.toNat).sum = symbols.length

/-- R123: `SortDesc` is a permutation, descending by weight, and stable: the entries of each weight keep their order. -/
def Obligations.SortIsStableDescending : Prop :=
  ∀ work : List PrefixNode,
    (sortDesc work).Perm work ∧ (sortDesc work).Pairwise (fun x y => y.weight ≤ x.weight) ∧
      ∀ w : Word, (sortDesc work).filter (fun x => x.weight = w) = work.filter (fun x => x.weight = w)

/-- R124: the merge joins the lightest entry, the latest among equals, with the next such entry of the rest, and puts the
new node behind the sorted rest; `CHILD_ORDER` says which is the left child. -/
def Obligations.MergeTakesLightestLatest : Prop :=
  ∀ (o : ChildOrder) (work : List PrefixNode), 2 ≤ work.length →
    ∃ (pre post pre' post' : List PrefixNode) (last prev : PrefixNode),
      work = pre ++ last :: post ∧ (∀ x ∈ pre, last.weight ≤ x.weight) ∧ (∀ x ∈ post, last.weight < x.weight) ∧
        pre ++ post = pre' ++ prev :: post' ∧ (∀ x ∈ pre', prev.weight ≤ x.weight) ∧
        (∀ x ∈ post', prev.weight < x.weight) ∧
        mergeStep o work = sortDesc (pre' ++ post') ++
          [match o with
            | .lastLeft => PrefixNode.internal last prev
            | .lastRight => PrefixNode.internal prev last]

/-- R122 and R125: `Build` iterates `MergeStep` on the seed until one tree is left. The seed is one leaf per byte value that
occurs, in ascending order, with its count; from `n` leaves the tree is what `n - 1` merges leave. -/
def Obligations.BuildIteratesMergeSteps : Prop :=
  ∀ (o : ChildOrder) (symbols : List Byte) (t : PrefixNode), symbols.length < 2 ^ 64 → build o symbols = .ok t →
    ∃ used : List Byte, used.Pairwise (fun a b => a.toNat < b.toNat) ∧ (∀ b, b ∈ used ↔ b ∈ symbols) ∧
      seed (symbolFreq symbols) = used.map (fun b => .leaf b (BitVec.ofNat 64 (symbols.count b))) ∧
      (mergeStep o)^[used.length - 1] (seed (symbolFreq symbols)) = [t]

/-- R130: a merge puts a node that weighs as much as its two children at the end, keeps the total weight and lowers the
length by one, and the root weighs as much as there are symbols. -/
def Obligations.MergeKeepsTotalWeight : Prop :=
  (∀ (o : ChildOrder) (work : List PrefixNode), 2 ≤ work.length →
    totalWeight (mergeStep o work) = totalWeight work ∧ (mergeStep o work).length + 1 = work.length ∧
      ∃ l r, (mergeStep o work).getLast? = some (PrefixNode.internal l r) ∧
        (PrefixNode.internal l r).weight = l.weight + r.weight) ∧
    ∀ (o : ChildOrder) (symbols : List Byte) (t : PrefixNode), build o symbols = .ok t →
      t.weight = BitVec.ofNat 64 symbols.length

/-- R131: the shape of a built tree: one leaf per distinct symbol, an internal root, and no leaf deeper than 255. -/
def Obligations.BuiltTreeShape : Prop :=
  ∀ (o : ChildOrder) (symbols : List Byte) (t : PrefixNode), symbols.length < 2 ^ 64 → build o symbols = .ok t →
    t.symbols.Nodup ∧ (∀ b, b ∈ t.symbols ↔ b ∈ symbols) ∧ t.leafCount = symbols.dedup.length ∧
      t.isInternal = true ∧ t.size = 2 * t.leafCount - 1 ∧ t.leafCount ≤ 256 ∧ t.height + 1 ≤ t.leafCount

/-- R127 and R128: `Build` fails with `EmptyInput` on the empty sequence and with `SingleSymbol` exactly when one distinct
symbol is present; otherwise it gives a tree. -/
def Obligations.BuildFailsOnlyBelowTwoSymbols : Prop :=
  ∀ (o : ChildOrder) (symbols : List Byte), symbols.length < 2 ^ 64 →
    (build o symbols = .error ⟨.emptyInput, 0⟩ ↔ symbols = []) ∧
      (∀ b : Byte, build o symbols = .error ⟨.singleSymbol, b.setWidth 64⟩ ↔ symbols ≠ [] ∧ ∀ x ∈ symbols, x = b) ∧
      ((∃ t, build o symbols = .ok t) ↔ ∃ x ∈ symbols, ∃ y ∈ symbols, x ≠ y)

/-! ## Codes and CodePoints -/

/-- R140 and R141: the mapping and the walk per symbol agree, and a symbol has a code exactly when it has a leaf. The code of
the only leaf is empty; below an internal node the left branch appends 0, the right branch appends 1, and a symbol that stands
on both sides has its code on the left. -/
def Obligations.LookupsAgree : Prop :=
  (∀ (t : PrefixNode) (s : Byte),
    lookupCode t s = walkLookup t s ∧ ((lookupCode t s).isSome = true ↔ s ∈ t.symbols)) ∧
    (∀ (b : Byte) (w : Word) (s : Byte), lookupCode (.leaf b w) s = if s = b then some [] else none) ∧
    ∀ (l r : PrefixNode) (s : Byte),
      lookupCode (.internal l r) s =
        if s ∈ l.symbols then (lookupCode l s).map (false :: ·) else (lookupCode r s).map (true :: ·)

/-- R133, and R142 (which the spec derives): no symbol's code is the start of another symbol's code, in a tree with repeated
symbols too. -/
def Obligations.CodesAreFreeOfPrefixes : Prop :=
  ∀ (t : PrefixNode) (a b : Byte) (p q : BitSeq), lookupCode t a = some p → lookupCode t b = some q → a ≠ b → ¬ p <+: q

/-- R151: the CodePoints stand in leaf order, and the entry of a symbol that stands on one leaf has the length of its code,
both as 8-bit numbers (in a tree with a leaf deeper than 255, which the block never holds, that is log entry 24, DESIGN
CHOICE). -/
def Obligations.CodePointLengthsAreCodeLengths : Prop :=
  ∀ t : PrefixNode,
    (codePoints t).map CodePoint.sym = t.symbols ∧
      ∀ c ∈ codePoints t, t.symbols.count c.sym = 1 →
        ∃ bits, lookupCode t c.sym = some bits ∧ c.len = BitVec.ofNat 8 bits.length

/-- R161: the descriptor round trip in both directions. -/
def Obligations.DescriptorRoundTrip : Prop :=
  (∀ t : PrefixNode, t.isInternal = true → t.leafCount ≤ 256 → ∃ t', rebuild (codePoints t) = .ok t' ∧ t.same t' = true) ∧
    ∀ (cps : List CodePoint) (t : PrefixNode), rebuild cps = .ok t → codePoints t = cps

/-- R156 and R31: a tree rebuilt from a parsed list has an internal root, one leaf per entry, weights 0, and no leaf deeper
than 255. -/
def Obligations.RebuiltTreeShape : Prop :=
  ∀ (cps : List CodePoint) (t : PrefixNode), (∀ c ∈ cps, c.len ≠ 0) → rebuild cps = .ok t →
    t.isInternal = true ∧ t.leafCount = cps.length ∧ t.weightless ∧ t.height ≤ 255

/-- R155 and R157: the three faults of the reconstruction. Entries left over behind a complete tree are sub-cause 4; a list
that ends while a node is still needed, so that more entries complete it, is sub-cause 2; every other list that describes no
tree is sub-cause 3. -/
def Obligations.MalformedListsFault : Prop :=
  ∀ cps : List CodePoint,
    (rebuild cps = .error ⟨.corruptStream, 4⟩ ↔ ∃ k t, k < cps.length ∧ rebuild (cps.take k) = .ok t) ∧
      (rebuild cps = .error ⟨.corruptStream, 2⟩ ↔ ∃ more t, more ≠ [] ∧ rebuild (cps ++ more) = .ok t) ∧
      (rebuild cps = .error ⟨.corruptStream, 3⟩ ↔
        (∀ k t, rebuild (cps.take k) ≠ .ok t) ∧ ∀ more t, rebuild (cps ++ more) ≠ .ok t)

/-- R192 and R193: the parser. It reads back the descriptor of up to 256 entries and stops behind the terminator; a stream
that ends before the terminator, or between a length and its symbol, is sub-cause 1; a 257th entry read whole is sub-cause
6. -/
def Obligations.ParserReadsTheDescriptor : Prop :=
  ∀ cps : List CodePoint, (∀ c ∈ cps, c.len ≠ 0) →
    (cps.length ≤ 256 → ∀ rest : BitSeq,
      parseDescriptor (descriptorBits cps ++ rest) = .ok (cps, ⟨rest, 16 * cps.length + 8⟩)) ∧
      (cps.length ≤ 256 → ∀ tail : BitSeq, tail.length < 8 →
        parseDescriptor (appendEntries [] cps ++ tail) = .error ⟨.corruptStream, 1⟩ ∧
          ∀ len : Byte, len ≠ 0 →
            parseDescriptor (appendEntries [] cps ++ (bits8 len ++ tail)) = .error ⟨.corruptStream, 1⟩) ∧
      (256 < cps.length → ∀ rest : BitSeq,
        parseDescriptor (appendEntries [] cps ++ rest) = .error ⟨.corruptStream, 6⟩)

/-- R194 and R195: a walk reads exactly the path of one leaf, whatever follows it, and gives its symbol; a walk that runs out
of bits inside a path is sub-cause 5. Every leaf is meant, each of those that share a symbol too (R159); the code of a symbol
is the path of one of its leaves. -/
def Obligations.WalkReadsOneCode : Prop :=
  ∀ t : PrefixNode,
    (∀ (s : Byte) (code : BitSeq), lookupCode t s = some code → t.leafAt code = some s) ∧
      ∀ (s : Byte) (path : BitSeq) (cur : Nat), t.leafAt path = some s →
        (∀ rest : BitSeq, walk t ⟨path ++ rest, cur⟩ = .ok (s, ⟨rest, cur + path.length⟩)) ∧
          ∀ k, k < path.length → walk t ⟨path.take k, cur⟩ = .error ⟨.corruptStream, 5⟩

/-! ## Bits and bytes -/

/-- R172 and R173: packing keeps every bit in order, fills the last byte with zeros, and gives the least number of bytes;
stated through `Expand` (R190), which adds the guard bit. -/
def Obligations.PackPadsToWholeBytes : Prop :=
  ∀ bits : BitSeq,
    (pack bits).length = (bits.length + 7) / 8 ∧
      expand (pack bits) = bits ++ List.replicate (8 * ((bits.length + 7) / 8) - bits.length) false ++ [false]

/-- R190 and R64: the expansion has `8 * L + 1` bits; bit `j` is bit `7 - (j mod 8)` of byte `j div 8`, and the last is the
guard bit 0. -/
def Obligations.ExpandIsMostSignificantBitFirst : Prop :=
  ∀ packed : List Byte,
    (expand packed).length = 8 * packed.length + 1 ∧ (expand packed)[8 * packed.length]? = some false ∧
      ∀ j, j < 8 * packed.length → (expand packed)[j]? = (packed[j / 8]?).map fun b => b.getLsbD (7 - j % 8)

/-- R73: the bounds checks of the two reads, in terms of the whole bit sequence and the cursor. -/
def Obligations.ReadsAreBoundsChecked : Prop :=
  ∀ (bits : BitSeq) (cur : Nat),
    (bits.length ≤ cur → readBit (Reader.start bits cur) = .error ⟨.corruptStream, 5⟩) ∧
      (∀ b, bits[cur]? = some b → readBit (Reader.start bits cur) = .ok (b, Reader.start bits (cur + 1))) ∧
      (bits.length < cur + 8 → readField8 (Reader.start bits cur) = .error ⟨.corruptStream, 1⟩) ∧
      (∀ v : Byte, (bits.drop cur).take 8 = bits8 v →
        readField8 (Reader.start bits cur) = .ok (v, Reader.start bits (cur + 8)))

/-! ## Streams -/

/-- R152, R170, R174 and R99: the bits of a stream are the entries of the descriptor, its all-zero terminator, and the codes
of the symbols in order; the bit count is their number, and the bytes are these bits packed. R175: their bounds, and that no
result of a command exceeds OUT. -/
def Obligations.StreamsFitOut : Prop :=
  (∀ cps : List CodePoint, descriptorBits cps = (cps.flatMap fun c => bits8 c.len ++ bits8 c.sym) ++ bits8 0x00) ∧
    (∀ (t : PrefixNode) (symbols bytes : List Byte) (n : Nat), serialize t symbols = .ok (bytes, n) →
      ∃ codes : List BitSeq, List.Forall₂ (fun x code => lookupCode t x = some code) symbols codes ∧
        bytes = pack (descriptorBits (codePoints t) ++ codes.flatten) ∧
        n = 16 * t.leafCount + 8 + codes.flatten.length ∧ bytes.length = (n + 7) / 8 ∧
        (t.leafCount ≤ 256 →
          n ≤ 16 * t.leafCount + 8 + 255 * symbols.length ∧
            ∀ p : Params, symbols.length ≤ p.inCap + 1 → bytes.length ≤ p.outCap)) ∧
    ∀ (packed : List Byte) (d : Decoded), deserialize packed = .ok d →
      d.out.length ≤ 8 * packed.length ∧ d.cursor ≤ 8 * packed.length + 1

/-- R200 and R201: the recovered symbols never contain 0x00, and after a stop on the sentinel no bit at or after the cursor
has an effect: every stream whose own bits, its guard bit not counted, begin with the bits before the cursor gives the same
result. -/
def Obligations.NothingIsReadPastTheSentinel : Prop :=
  ∀ (packed : List Byte) (d : Decoded), deserialize packed = .ok d →
    (0x00 : Byte) ∉ d.out ∧
      ∀ packed' : List Byte, d.sent = true → d.cursor ≤ 8 * packed'.length →
        (expand packed').take d.cursor = (expand packed).take d.cursor → deserialize packed' = .ok d

/-- R203: the round trip of `encode` and `decode`, for both values of `CHILD_ORDER`: (i) and (ii) what decodes back is the
input up to its first zero byte, (iii) empty or all-zero input faults. -/
def Obligations.DecodeInvertsEncode : Prop :=
  ∀ (o : ChildOrder) (input : List Byte), input.length ≤ 2 ^ 32 - 1 →
    ((∃ x ∈ input, x ≠ 0) →
      ∃ t bytes n d, encodeBytes o input = .ok (t, bytes, n) ∧ deserialize bytes = .ok d ∧
        d.out = input.takeWhile (fun x => x ≠ 0) ∧ d.sent = true ∧ t.same d.tree = true ∧ d.cps = codePoints t ∧
        ((0 : Byte) ∉ input → d.out = input ∧ d.cursor = n)) ∧
      ((∀ x ∈ input, x = 0) → encodeBytes o input = .error ⟨.singleSymbol, 0⟩)

/-- R204: a stream made without a sentinel decodes to the symbols encoded, followed by copies of the all-left leaf's
symbol, or faults with sub-cause 5; without padding it decodes exactly. -/
def Obligations.StreamWithoutSentinelKeepsItsSymbols : Prop :=
  ∀ (t : PrefixNode) (symbols bytes : List Byte) (n : Nat), t.isInternal = true → t.leafCount ≤ 256 →
    (0x00 : Byte) ∉ symbols → serialize t symbols = .ok (bytes, n) →
    (deserialize bytes = .error ⟨.corruptStream, 5⟩ ∨
      ∃ d k s, deserialize bytes = .ok d ∧ t.symbols.head? = some s ∧ d.out = symbols ++ List.replicate k s) ∧
      (n % 8 = 0 → ∃ d, deserialize bytes = .ok d ∧ d.out = symbols ∧ d.sent = false ∧ d.cursor = n)

/-- The round trip carried out by two commands (R203 with R178 and R199): ENCODE completes; a block that holds the bytes of
OUT as its input completes DESERIALIZE; OUT is then the original input, with `SENT = 1`. -/
def Obligations.EncodeThenDeserializeRestoresInput : Prop :=
  ∀ s : State, s.params.wf = true → s.ready → s.inLen.toNat ≤ s.params.inCap → s.inBytes ≠ [] →
    (0x00 : Byte) ∉ s.inBytes →
    ∃ u, exec .encode s = .next u ∧ u.status = 0x7E ∧
      ∀ v : State, v.ready → v.inLen = u.outLen → v.inLen.toNat ≤ v.params.inCap →
        v.inBytes.map some = u.outBytes →
        ∃ w, exec .deserialize v = .next w ∧ w.status = 0xEA ∧ w.outBytes = s.inBytes.map some ∧
          w.outLen = s.inLen ∧ w.cursor = u.bitLen

/-! ## Independence -/

/-- R15: ENCODE and DESERIALIZE depend on the parameters and `IN[0..IN_LEN)` alone: in two states that accept a command and
agree on these, whatever else they hold, the results agree in every element of every space but IN. -/
def Obligations.ResultsDependOnInputAlone : Prop :=
  ∀ s s' u u' : State, ∀ i : Instr, i = .encode ∨ i = .deserialize → s.ready → s'.ready → s.params = s'.params →
    s.inLen = s'.inLen → s.inBytes = s'.inBytes → exec i s = .next u → exec i s' = .next u' →
    u.tree = u'.tree ∧ ∀ space k : Nat, space ≠ 1 → hostRead u space k = hostRead u' space k

/-! ## The host port -/

/-- R63: a host read changes nothing but the host's own reply. -/
def Obligations.ReadsHaveNoSideEffect : Prop :=
  ∀ (s : State) (space i : Nat) (later : List Move), s.moves = .read space i :: later →
    step s = .next { s with moves := later, reply := replyOf (hostRead { s with moves := later } space i) }

/-- R61 and R63: a step whose next move is a host write is that write. Outside BUSY, a write of `IN_LEN` or of an `IN[i]`
changes that element only, to the value truncated to the element's width; a write to any other element but `CMD` is dropped.
(In BUSY every write is dropped: BusyAllowsOnlyStatusAndId.) That moves are a list is log entry 3. -/
def Obligations.WritesReachInAndInLenOnly : Prop :=
  (∀ (s : State) (space i v : Nat) (later : List Move), s.moves = .write space i v :: later →
    step s = hostWrite { s with moves := later } space i v) ∧
    ∀ (s : State) (v : Nat), s.phase ≠ .busy →
      hostWrite s 0 4 v = .next { s with inLen := BitVec.ofNat 64 v } ∧
        (∀ i, i < s.params.inCap → ∃ u, hostWrite s 1 i v = .next u ∧ u = { s with inMem := u.inMem } ∧
          u.inMem.read i = some (BitVec.ofNat 8 v) ∧ ∀ k, k ≠ i → u.inMem.read k = s.inMem.read k) ∧
        ∀ space i, ¬ (space = 0 ∧ (i = 0 ∨ i = 4)) → ¬ (space = 1 ∧ i < s.params.inCap) →
          hostWrite s space i v = .next s

/-- R23: outside BUSY, what the host reads from the ten registers; a register index of 10 or more addresses nothing. -/
def Obligations.RegisterReads : Prop :=
  ∀ s : State, s.phase ≠ .busy →
    hostRead s 0 0 = some (.byte 0) ∧ hostRead s 0 1 = some (.byte s.status) ∧ hostRead s 0 2 = some (.byte s.err) ∧
      hostRead s 0 3 = some (.word s.errInfo) ∧ hostRead s 0 4 = some (.word s.inLen) ∧
      hostRead s 0 5 = some (.word s.outLen) ∧ hostRead s 0 6 = some (.word s.bitLen) ∧
      hostRead s 0 7 = some (.word s.cursor) ∧ hostRead s 0 8 = some (.word s.nleaf) ∧
      hostRead s 0 9 = some (.word 0x48554601) ∧ ∀ i, 10 ≤ i → hostRead s 0 i = none

/-- R26: a read of an element whose valid flag is 0, or at or beyond its length, has no defined value. R60: nor has a read
at or beyond the element count of a space, or of a space id of 7 or more; where the length of OUT, NODE or CP bounds the read
first, the invariant puts it within the count. -/
def Obligations.InvalidReadsHaveNoValue : Prop :=
  ∀ (s : State) (i : Nat),
    (Status.freqV s.status = false → hostRead s 3 i = none) ∧ (Status.treeV s.status = false → hostRead s 4 i = none) ∧
      (Status.codeV s.status = false → hostRead s 5 i = none) ∧ (Status.cpV s.status = false → hostRead s 6 i = none) ∧
      (Status.outV s.status = false → hostRead s 2 i = none) ∧ (s.outLen.toNat ≤ i → hostRead s 2 i = none) ∧
      (s.nleaf.toNat ≤ i → hostRead s 6 i = none) ∧ (2 * s.nleaf.toNat - 1 ≤ i → hostRead s 4 i = none) ∧
      (s.params.inCap ≤ i → hostRead s 1 i = none) ∧ (256 ≤ i → hostRead s 3 i = none ∧ hostRead s 5 i = none) ∧
      (s.Inv → (s.params.outCap ≤ i → hostRead s 2 i = none) ∧ (511 ≤ i → hostRead s 4 i = none) ∧
        (256 ≤ i → hostRead s 6 i = none)) ∧
      (10 ≤ i → hostRead s 0 i = none) ∧ ∀ space, 7 ≤ space → hostRead s space i = none

/-- R61, R68, R24 and R26: outside BUSY, a read of `IN[i]` below `IN_CAP`, and a read of FREQ, CODE, CP or OUT whose flag is
set and whose index is below the length, returns the element that the space holds; and in every state of the invariant each
such element of FREQ, NODE, CODE, CP and OUT has a defined value. (An `IN[i]` that the host has not written since the last
reset has none: log entry 2.) -/
def Obligations.ValidReadsHaveValues : Prop :=
  ∀ (s : State) (i : Nat), s.phase ≠ .busy →
    (i < s.params.inCap → hostRead s 1 i = (s.inMem.read i).map .byte) ∧
      (Status.freqV s.status = true → i < 256 → hostRead s 3 i = (s.freq.read i).map .word) ∧
      (Status.codeV s.status = true → i < 256 → hostRead s 5 i = (s.code.read i).map .code) ∧
      (Status.cpV s.status = true → i < s.nleaf.toNat → hostRead s 6 i = (s.cp.read i).map .codePoint) ∧
      (Status.outV s.status = true → i < s.outLen.toNat → hostRead s 2 i = (s.outMem.read i).map .byte) ∧
      (s.Inv →
        (Status.freqV s.status = true → i < 256 → ∃ w, s.freq.read i = some w) ∧
          (Status.treeV s.status = true → i < 2 * s.nleaf.toNat - 1 → ∃ n, hostRead s 4 i = some (.node n)) ∧
          (Status.codeV s.status = true → i < 256 → ∃ c, s.code.read i = some c) ∧
          (Status.cpV s.status = true → i < s.nleaf.toNat → ∃ c, s.cp.read i = some c) ∧
          (Status.outV s.status = true → i < s.outLen.toNat → ∃ b, s.outMem.read i = some b))

/-- R30: NODE is the pre-order numbering of the tree, `2 * n - 1` records for `n` leaves, and the host reads these records. -/
def Obligations.NodeWindowIsPreOrder : Prop :=
  ∀ t : PrefixNode, t.leafCount ≤ 256 →
    t.flatten.length = 2 * t.leafCount - 1 ∧ showsNode t.flatten t 0 ∧
      ∀ (s : State) (i : Nat), s.phase ≠ .busy → Status.treeV s.status = true → s.tree = some t →
        s.nleaf = BitVec.ofNat 64 t.leafCount → hostRead s 4 i = (t.flatten[i]?).map .node

/-! ## Reset and the invariant -/

/-- R260: every register and flag after reset, and that no data space has a defined value. -/
def Obligations.ResetStateIsAsStated : Prop :=
  State.reset.status = 0x00 ∧ State.reset.err = 0 ∧ State.reset.errInfo = 0 ∧ State.reset.inLen = 0 ∧
    State.reset.outLen = 0 ∧ State.reset.bitLen = 0 ∧ State.reset.cursor = 0 ∧ State.reset.nleaf = 0 ∧
    State.reset.tree = none ∧ hostRead State.reset 0 0 = some (.byte 0) ∧
    hostRead State.reset 0 9 = some (.word 0x48554601) ∧
    ∀ space i : Nat, 1 ≤ space → hostRead State.reset space i = none

/-- R260: hardware reset is a move in every state, BUSY included, and leaves every register and flag at its reset value; the
RESET command, where it is accepted, leaves the same. That the reset is a move of a list, which keeps the moves behind it, is
log entries 3 and 15 (DESIGN CHOICE); that the command latch is 0, where R260 says that `CMD` reads 0, is log entry 6 (DESIGN
CHOICE); that the parameters stay is log entry 1 (DESIGN CHOICE). -/
def Obligations.HardwareResetFromAnyState : Prop :=
  ∀ (s : State) (later : List Move), s.moves = .hardReset :: later →
    ∃ u, step s = .next u ∧ u.status = 0x00 ∧ u.err = 0 ∧ u.errInfo = 0 ∧ u.inLen = 0 ∧ u.outLen = 0 ∧ u.bitLen = 0 ∧
      u.cursor = 0 ∧ u.nleaf = 0 ∧ u.tree = none ∧ u.cmd = 0 ∧ u.moves = later ∧ u.params = s.params ∧
      hostRead u 0 0 = some (.byte 0) ∧ hostRead u 0 9 = some (.word 0x48554601) ∧
      (∀ space i : Nat, 1 ≤ space → hostRead u space i = none) ∧
      (s.phase ≠ .busy → exec .reset { s with moves := later } = .next u)

/-- The invariant holds at reset. -/
def Obligations.ResetStateMeetsInvariant : Prop := State.reset.Inv

/-- The two memories keep their canonical form in every step, and the parameters never change. -/
def Obligations.StepKeepsMemoryForm : Prop :=
  ∀ s u : State, step s = .next u → Memory.wf s.inMem → Memory.wf s.outMem →
    Memory.wf u.inMem ∧ Memory.wf u.outMem ∧ u.params = s.params

/-- `STATUS`, `ERR`, `ERRINFO` and `CMD` agree after every step where they agreed before. -/
def Obligations.StepKeepsStatusLegal : Prop :=
  ∀ s u : State, step s = .next u → s.statusLegal → u.statusLegal

/-- The invariant of the machine is kept by every step from every state that meets it. -/
def Obligations.StepKeepsInvariant : Prop := ∀ s u : State, step s = .next u → s.Inv → u.Inv
end

