-- ==== Sys2Proof/Laws/Bits.lean ====
section
/-! SUPPORT. Bits and bytes: `Bits8` and `Byte8` are inverse, and what the two bounds-checked reads do. -/

namespace Sys2Proof.Machine

@[simp] theorem length_bits8 (v : Byte) : (bits8 v).length = 8 := by simp [bits8]

theorem byte8_bits8 (v : Byte) : byte8 (bits8 v) = v := by revert v; decide +kernel

theorem bits8_byte8_eight (a b c d e f g h : Bool) : bits8 (byte8 [a, b, c, d, e, f, g, h]) = [a, b, c, d, e, f, g, h] := by
  revert a b c d e f g h; decide +kernel

/-- A bit sequence of length 8 is eight bits. -/
theorem eight_bits {b : BitSeq} (h : b.length = 8) :
    ∃ b0 b1 b2 b3 b4 b5 b6 b7, b = [b0, b1, b2, b3, b4, b5, b6, b7] := by
  match b, h with
  | [b0, b1, b2, b3, b4, b5, b6, b7], _ => exact ⟨b0, b1, b2, b3, b4, b5, b6, b7, rfl⟩

theorem bits8_byte8 {b : BitSeq} (h : b.length = 8) : bits8 (byte8 b) = b := by
  obtain ⟨b0, b1, b2, b3, b4, b5, b6, b7, rfl⟩ := eight_bits h
  exact bits8_byte8_eight ..

theorem getElem?_bits8 (v : Byte) (i : Nat) : (bits8 v)[i]? = if i < 8 then some (v.getLsbD (7 - i)) else none := by
  unfold bits8
  by_cases h : i < 8
  · simp [h]
  · simp [h]

/-- A field that is all there is read whole. -/
theorem readField8_bits8 (v : Byte) (rest : BitSeq) (cur : Nat) :
    readField8 ⟨bits8 v ++ rest, cur⟩ = .ok (v, ⟨rest, cur + 8⟩) := by
  simp [readField8, byte8_bits8]

/-- What a field read can do. -/
theorem readField8_cases (r : Reader) :
    (r.rest.length < 8 ∧ readField8 r = .error ⟨.corruptStream, 1⟩) ∨
      ∃ v rest, r.rest = bits8 v ++ rest ∧ readField8 r = .ok (v, ⟨rest, r.cur + 8⟩) := by
  by_cases h : r.rest.length < 8
  · exact .inl ⟨h, by simp [readField8, h, raise]⟩
  · right
    refine ⟨byte8 (r.rest.take 8), r.rest.drop 8, ?_, by simp [readField8, h]⟩
    rw [bits8_byte8 (by simp; omega), List.take_append_drop]

/-- What a bit read can do. -/
theorem readBit_cases (r : Reader) :
    (r.rest = [] ∧ readBit r = .error ⟨.corruptStream, 5⟩) ∨
      ∃ b rest, r.rest = b :: rest ∧ readBit r = .ok (b, ⟨rest, r.cur + 1⟩) := by
  obtain ⟨rest, cur⟩ := r
  cases rest with
  | nil => exact .inl ⟨rfl, rfl⟩
  | cons b rest => exact .inr ⟨b, rest, rfl, rfl⟩

@[simp] theorem readBit_cons (b : Bool) (rest : BitSeq) (cur : Nat) :
    readBit ⟨b :: rest, cur⟩ = .ok (b, ⟨rest, cur + 1⟩) := rfl

theorem chunks_length (n : Nat) (bits : BitSeq) : (chunks n bits).length = n := by
  induction n generalizing bits with
  | zero => rfl
  | succ n ih => simp [chunks, ih]

/-- Whole bytes taken off a bit sequence spell it again. -/
theorem flatMap_chunks (n : Nat) (bits : BitSeq) (h : bits.length = 8 * n) : (chunks n bits).flatMap bits8 = bits := by
  induction n generalizing bits with
  | zero => simpa [chunks] using (List.eq_nil_of_length_eq_zero (by omega)).symm
  | succ n ih =>
    rw [chunks, List.flatMap_cons, ih _ (by simp; omega), bits8_byte8 (by simp; omega), List.take_append_drop]

theorem length_flatMap_bits8 (packed : List Byte) : (packed.flatMap bits8).length = 8 * packed.length := by
  induction packed with
  | nil => rfl
  | cons b bs ih => simp only [List.flatMap_cons, List.length_append, ih, length_bits8, List.length_cons]; omega

theorem length_expand (packed : List Byte) : (expand packed).length = 8 * packed.length + 1 := by
  rw [expand, List.length_append, length_flatMap_bits8, List.length_singleton]

end Sys2Proof.Machine
end

