-- ==== Sys2Proof/Laws/State.lean ====
section
/-! SUPPORT. What each named update of the state leaves in each field: one lemma per field per update. -/

namespace Sys2Proof.Machine

/-! ## enterFault -/

@[simp] theorem State.enterFault_params (s : State) (k : FaultKind) (v : Word) :
    (s.enterFault k v).params = s.params := rfl

@[simp] theorem State.enterFault_cmd (s : State) (k : FaultKind) (v : Word) : (s.enterFault k v).cmd = s.cmd := rfl

@[simp] theorem State.enterFault_status (s : State) (k : FaultKind) (v : Word) :
    (s.enterFault k v).status = Status.make .fault false false false false false false := rfl

@[simp] theorem State.enterFault_err (s : State) (k : FaultKind) (v : Word) : (s.enterFault k v).err = k.code := rfl

@[simp] theorem State.enterFault_errInfo (s : State) (k : FaultKind) (v : Word) :
    (s.enterFault k v).errInfo = v := rfl

@[simp] theorem State.enterFault_inLen (s : State) (k : FaultKind) (v : Word) :
    (s.enterFault k v).inLen = s.inLen := rfl

@[simp] theorem State.enterFault_outLen (s : State) (k : FaultKind) (v : Word) : (s.enterFault k v).outLen = 0 := rfl

@[simp] theorem State.enterFault_bitLen (s : State) (k : FaultKind) (v : Word) : (s.enterFault k v).bitLen = 0 := rfl

@[simp] theorem State.enterFault_cursor (s : State) (k : FaultKind) (v : Word) : (s.enterFault k v).cursor = 0 := rfl

@[simp] theorem State.enterFault_nleaf (s : State) (k : FaultKind) (v : Word) : (s.enterFault k v).nleaf = 0 := rfl

@[simp] theorem State.enterFault_inMem (s : State) (k : FaultKind) (v : Word) :
    (s.enterFault k v).inMem = s.inMem := rfl

@[simp] theorem State.enterFault_outMem (s : State) (k : FaultKind) (v : Word) : (s.enterFault k v).outMem = [] := rfl

@[simp] theorem State.enterFault_freq (s : State) (k : FaultKind) (v : Word) : (s.enterFault k v).freq = [] := rfl

@[simp] theorem State.enterFault_tree (s : State) (k : FaultKind) (v : Word) : (s.enterFault k v).tree = none := rfl

@[simp] theorem State.enterFault_code (s : State) (k : FaultKind) (v : Word) : (s.enterFault k v).code = [] := rfl

@[simp] theorem State.enterFault_cp (s : State) (k : FaultKind) (v : Word) : (s.enterFault k v).cp = [] := rfl

@[simp] theorem State.enterFault_moves (s : State) (k : FaultKind) (v : Word) :
    (s.enterFault k v).moves = s.moves := rfl

@[simp] theorem State.enterFault_reply (s : State) (k : FaultKind) (v : Word) :
    (s.enterFault k v).reply = s.reply := rfl

@[simp] theorem State.enterFault_epoch (s : State) (k : FaultKind) (v : Word) :
    (s.enterFault k v).epoch = s.epoch := rfl

/-! ## toReset -/

@[simp] theorem State.toReset_params (s : State) : (s.toReset).params = s.params := rfl

@[simp] theorem State.toReset_cmd (s : State) : (s.toReset).cmd = 0 := rfl

@[simp] theorem State.toReset_status (s : State) : (s.toReset).status = 0 := rfl

@[simp] theorem State.toReset_err (s : State) : (s.toReset).err = 0 := rfl

@[simp] theorem State.toReset_errInfo (s : State) : (s.toReset).errInfo = 0 := rfl

@[simp] theorem State.toReset_inLen (s : State) : (s.toReset).inLen = 0 := rfl

@[simp] theorem State.toReset_outLen (s : State) : (s.toReset).outLen = 0 := rfl

@[simp] theorem State.toReset_bitLen (s : State) : (s.toReset).bitLen = 0 := rfl

@[simp] theorem State.toReset_cursor (s : State) : (s.toReset).cursor = 0 := rfl

@[simp] theorem State.toReset_nleaf (s : State) : (s.toReset).nleaf = 0 := rfl

@[simp] theorem State.toReset_inMem (s : State) : (s.toReset).inMem = [] := rfl

@[simp] theorem State.toReset_outMem (s : State) : (s.toReset).outMem = [] := rfl

@[simp] theorem State.toReset_freq (s : State) : (s.toReset).freq = [] := rfl

@[simp] theorem State.toReset_tree (s : State) : (s.toReset).tree = none := rfl

@[simp] theorem State.toReset_code (s : State) : (s.toReset).code = [] := rfl

@[simp] theorem State.toReset_cp (s : State) : (s.toReset).cp = [] := rfl

@[simp] theorem State.toReset_moves (s : State) : (s.toReset).moves = s.moves := rfl

@[simp] theorem State.toReset_reply (s : State) : (s.toReset).reply = s.reply := rfl

@[simp] theorem State.toReset_epoch (s : State) : (s.toReset).epoch = s.epoch + 1 := rfl

/-! ## withBuilt -/

@[simp] theorem State.withBuilt_params (s : State) (xs : List Byte) (t : PrefixNode) :
    (s.withBuilt xs t).params = s.params := rfl

@[simp] theorem State.withBuilt_cmd (s : State) (xs : List Byte) (t : PrefixNode) :
    (s.withBuilt xs t).cmd = s.cmd := rfl

@[simp] theorem State.withBuilt_status (s : State) (xs : List Byte) (t : PrefixNode) :
    (s.withBuilt xs t).status = Status.make .done true true false false false false := rfl

@[simp] theorem State.withBuilt_err (s : State) (xs : List Byte) (t : PrefixNode) : (s.withBuilt xs t).err = 0 := rfl

@[simp] theorem State.withBuilt_errInfo (s : State) (xs : List Byte) (t : PrefixNode) :
    (s.withBuilt xs t).errInfo = 0 := rfl

@[simp] theorem State.withBuilt_inLen (s : State) (xs : List Byte) (t : PrefixNode) :
    (s.withBuilt xs t).inLen = s.inLen := rfl

@[simp] theorem State.withBuilt_outLen (s : State) (xs : List Byte) (t : PrefixNode) :
    (s.withBuilt xs t).outLen = 0 := rfl

@[simp] theorem State.withBuilt_bitLen (s : State) (xs : List Byte) (t : PrefixNode) :
    (s.withBuilt xs t).bitLen = 0 := rfl

@[simp] theorem State.withBuilt_cursor (s : State) (xs : List Byte) (t : PrefixNode) :
    (s.withBuilt xs t).cursor = 0 := rfl

@[simp] theorem State.withBuilt_nleaf (s : State) (xs : List Byte) (t : PrefixNode) :
    (s.withBuilt xs t).nleaf = BitVec.ofNat 64 t.leafCount := rfl

@[simp] theorem State.withBuilt_inMem (s : State) (xs : List Byte) (t : PrefixNode) :
    (s.withBuilt xs t).inMem = s.inMem := rfl

@[simp] theorem State.withBuilt_outMem (s : State) (xs : List Byte) (t : PrefixNode) :
    (s.withBuilt xs t).outMem = s.outMem := rfl

@[simp] theorem State.withBuilt_freq (s : State) (xs : List Byte) (t : PrefixNode) :
    (s.withBuilt xs t).freq = s.freq.store (freqTable xs) := rfl

@[simp] theorem State.withBuilt_tree (s : State) (xs : List Byte) (t : PrefixNode) :
    (s.withBuilt xs t).tree = some t := rfl

@[simp] theorem State.withBuilt_code (s : State) (xs : List Byte) (t : PrefixNode) :
    (s.withBuilt xs t).code = s.code := rfl

@[simp] theorem State.withBuilt_cp (s : State) (xs : List Byte) (t : PrefixNode) : (s.withBuilt xs t).cp = s.cp := rfl

@[simp] theorem State.withBuilt_moves (s : State) (xs : List Byte) (t : PrefixNode) :
    (s.withBuilt xs t).moves = s.moves := rfl

@[simp] theorem State.withBuilt_reply (s : State) (xs : List Byte) (t : PrefixNode) :
    (s.withBuilt xs t).reply = s.reply := rfl

@[simp] theorem State.withBuilt_epoch (s : State) (xs : List Byte) (t : PrefixNode) :
    (s.withBuilt xs t).epoch = s.epoch := rfl

/-! ## withCodes -/

@[simp] theorem State.withCodes_params (s : State) (t : PrefixNode) : (s.withCodes t).params = s.params := rfl

@[simp] theorem State.withCodes_cmd (s : State) (t : PrefixNode) : (s.withCodes t).cmd = s.cmd := rfl

@[simp] theorem State.withCodes_status (s : State) (t : PrefixNode) :
    (s.withCodes t).status = Status.make .done (Status.freqV s.status) (Status.treeV s.status) true
    (Status.cpV s.status) (Status.outV s.status) (Status.sent s.status) := rfl

@[simp] theorem State.withCodes_err (s : State) (t : PrefixNode) : (s.withCodes t).err = 0 := rfl

@[simp] theorem State.withCodes_errInfo (s : State) (t : PrefixNode) : (s.withCodes t).errInfo = 0 := rfl

@[simp] theorem State.withCodes_inLen (s : State) (t : PrefixNode) : (s.withCodes t).inLen = s.inLen := rfl

@[simp] theorem State.withCodes_outLen (s : State) (t : PrefixNode) : (s.withCodes t).outLen = s.outLen := rfl

@[simp] theorem State.withCodes_bitLen (s : State) (t : PrefixNode) : (s.withCodes t).bitLen = s.bitLen := rfl

@[simp] theorem State.withCodes_cursor (s : State) (t : PrefixNode) : (s.withCodes t).cursor = s.cursor := rfl

@[simp] theorem State.withCodes_nleaf (s : State) (t : PrefixNode) : (s.withCodes t).nleaf = s.nleaf := rfl

@[simp] theorem State.withCodes_inMem (s : State) (t : PrefixNode) : (s.withCodes t).inMem = s.inMem := rfl

@[simp] theorem State.withCodes_outMem (s : State) (t : PrefixNode) : (s.withCodes t).outMem = s.outMem := rfl

@[simp] theorem State.withCodes_freq (s : State) (t : PrefixNode) : (s.withCodes t).freq = s.freq := rfl

@[simp] theorem State.withCodes_tree (s : State) (t : PrefixNode) : (s.withCodes t).tree = s.tree := rfl

@[simp] theorem State.withCodes_code (s : State) (t : PrefixNode) :
    (s.withCodes t).code = s.code.store (codeTable t) := rfl

@[simp] theorem State.withCodes_cp (s : State) (t : PrefixNode) : (s.withCodes t).cp = s.cp := rfl

@[simp] theorem State.withCodes_moves (s : State) (t : PrefixNode) : (s.withCodes t).moves = s.moves := rfl

@[simp] theorem State.withCodes_reply (s : State) (t : PrefixNode) : (s.withCodes t).reply = s.reply := rfl

@[simp] theorem State.withCodes_epoch (s : State) (t : PrefixNode) : (s.withCodes t).epoch = s.epoch := rfl

/-! ## withCodePoints -/

@[simp] theorem State.withCodePoints_params (s : State) (t : PrefixNode) :
    (s.withCodePoints t).params = s.params := rfl

@[simp] theorem State.withCodePoints_cmd (s : State) (t : PrefixNode) : (s.withCodePoints t).cmd = s.cmd := rfl

@[simp] theorem State.withCodePoints_status (s : State) (t : PrefixNode) :
    (s.withCodePoints t).status = Status.make .done (Status.freqV s.status) (Status.treeV s.status)
    (Status.codeV s.status) true (Status.outV s.status) (Status.sent s.status) := rfl

@[simp] theorem State.withCodePoints_err (s : State) (t : PrefixNode) : (s.withCodePoints t).err = 0 := rfl

@[simp] theorem State.withCodePoints_errInfo (s : State) (t : PrefixNode) : (s.withCodePoints t).errInfo = 0 := rfl

@[simp] theorem State.withCodePoints_inLen (s : State) (t : PrefixNode) : (s.withCodePoints t).inLen = s.inLen := rfl

@[simp] theorem State.withCodePoints_outLen (s : State) (t : PrefixNode) :
    (s.withCodePoints t).outLen = s.outLen := rfl

@[simp] theorem State.withCodePoints_bitLen (s : State) (t : PrefixNode) :
    (s.withCodePoints t).bitLen = s.bitLen := rfl

@[simp] theorem State.withCodePoints_cursor (s : State) (t : PrefixNode) :
    (s.withCodePoints t).cursor = s.cursor := rfl

@[simp] theorem State.withCodePoints_nleaf (s : State) (t : PrefixNode) : (s.withCodePoints t).nleaf = s.nleaf := rfl

@[simp] theorem State.withCodePoints_inMem (s : State) (t : PrefixNode) : (s.withCodePoints t).inMem = s.inMem := rfl

@[simp] theorem State.withCodePoints_outMem (s : State) (t : PrefixNode) :
    (s.withCodePoints t).outMem = s.outMem := rfl

@[simp] theorem State.withCodePoints_freq (s : State) (t : PrefixNode) : (s.withCodePoints t).freq = s.freq := rfl

@[simp] theorem State.withCodePoints_tree (s : State) (t : PrefixNode) : (s.withCodePoints t).tree = s.tree := rfl

@[simp] theorem State.withCodePoints_code (s : State) (t : PrefixNode) : (s.withCodePoints t).code = s.code := rfl

@[simp] theorem State.withCodePoints_cp (s : State) (t : PrefixNode) :
    (s.withCodePoints t).cp = s.cp.store (codePoints t) := rfl

@[simp] theorem State.withCodePoints_moves (s : State) (t : PrefixNode) : (s.withCodePoints t).moves = s.moves := rfl

@[simp] theorem State.withCodePoints_reply (s : State) (t : PrefixNode) : (s.withCodePoints t).reply = s.reply := rfl

@[simp] theorem State.withCodePoints_epoch (s : State) (t : PrefixNode) : (s.withCodePoints t).epoch = s.epoch := rfl

/-! ## withSerialized -/

@[simp] theorem State.withSerialized_params (s : State) (t : PrefixNode) (bs : List Byte) (n : Nat) :
    (s.withSerialized t bs n).params = s.params := rfl

@[simp] theorem State.withSerialized_cmd (s : State) (t : PrefixNode) (bs : List Byte) (n : Nat) :
    (s.withSerialized t bs n).cmd = s.cmd := rfl

@[simp] theorem State.withSerialized_status (s : State) (t : PrefixNode) (bs : List Byte) (n : Nat) :
    (s.withSerialized t bs n).status = Status.make .done (Status.freqV s.status) (Status.treeV s.status) true
    true true false := rfl

@[simp] theorem State.withSerialized_err (s : State) (t : PrefixNode) (bs : List Byte) (n : Nat) :
    (s.withSerialized t bs n).err = 0 := rfl

@[simp] theorem State.withSerialized_errInfo (s : State) (t : PrefixNode) (bs : List Byte) (n : Nat) :
    (s.withSerialized t bs n).errInfo = 0 := rfl

@[simp] theorem State.withSerialized_inLen (s : State) (t : PrefixNode) (bs : List Byte) (n : Nat) :
    (s.withSerialized t bs n).inLen = s.inLen := rfl

@[simp] theorem State.withSerialized_outLen (s : State) (t : PrefixNode) (bs : List Byte) (n : Nat) :
    (s.withSerialized t bs n).outLen = BitVec.ofNat 64 bs.length := rfl

@[simp] theorem State.withSerialized_bitLen (s : State) (t : PrefixNode) (bs : List Byte) (n : Nat) :
    (s.withSerialized t bs n).bitLen = BitVec.ofNat 64 n := rfl

@[simp] theorem State.withSerialized_cursor (s : State) (t : PrefixNode) (bs : List Byte) (n : Nat) :
    (s.withSerialized t bs n).cursor = 0 := rfl

@[simp] theorem State.withSerialized_nleaf (s : State) (t : PrefixNode) (bs : List Byte) (n : Nat) :
    (s.withSerialized t bs n).nleaf = s.nleaf := rfl

@[simp] theorem State.withSerialized_inMem (s : State) (t : PrefixNode) (bs : List Byte) (n : Nat) :
    (s.withSerialized t bs n).inMem = s.inMem := rfl

@[simp] theorem State.withSerialized_outMem (s : State) (t : PrefixNode) (bs : List Byte) (n : Nat) :
    (s.withSerialized t bs n).outMem = s.outMem.store bs := rfl

@[simp] theorem State.withSerialized_freq (s : State) (t : PrefixNode) (bs : List Byte) (n : Nat) :
    (s.withSerialized t bs n).freq = s.freq := rfl

@[simp] theorem State.withSerialized_tree (s : State) (t : PrefixNode) (bs : List Byte) (n : Nat) :
    (s.withSerialized t bs n).tree = s.tree := rfl

@[simp] theorem State.withSerialized_code (s : State) (t : PrefixNode) (bs : List Byte) (n : Nat) :
    (s.withSerialized t bs n).code = s.code.store (codeTable t) := rfl

@[simp] theorem State.withSerialized_cp (s : State) (t : PrefixNode) (bs : List Byte) (n : Nat) :
    (s.withSerialized t bs n).cp = s.cp.store (codePoints t) := rfl

@[simp] theorem State.withSerialized_moves (s : State) (t : PrefixNode) (bs : List Byte) (n : Nat) :
    (s.withSerialized t bs n).moves = s.moves := rfl

@[simp] theorem State.withSerialized_reply (s : State) (t : PrefixNode) (bs : List Byte) (n : Nat) :
    (s.withSerialized t bs n).reply = s.reply := rfl

@[simp] theorem State.withSerialized_epoch (s : State) (t : PrefixNode) (bs : List Byte) (n : Nat) :
    (s.withSerialized t bs n).epoch = s.epoch := rfl

/-! ## withEncoded -/

@[simp] theorem State.withEncoded_params (s : State) (xs : List Byte) (t : PrefixNode) (bs : List Byte) (n : Nat) :
    (s.withEncoded xs t bs n).params = s.params := rfl

@[simp] theorem State.withEncoded_cmd (s : State) (xs : List Byte) (t : PrefixNode) (bs : List Byte) (n : Nat) :
    (s.withEncoded xs t bs n).cmd = s.cmd := rfl

@[simp] theorem State.withEncoded_status (s : State) (xs : List Byte) (t : PrefixNode) (bs : List Byte) (n : Nat) :
    (s.withEncoded xs t bs n).status = Status.make .done true true true true true false := rfl

@[simp] theorem State.withEncoded_err (s : State) (xs : List Byte) (t : PrefixNode) (bs : List Byte) (n : Nat) :
    (s.withEncoded xs t bs n).err = 0 := rfl

@[simp] theorem State.withEncoded_errInfo (s : State) (xs : List Byte) (t : PrefixNode) (bs : List Byte) (n : Nat) :
    (s.withEncoded xs t bs n).errInfo = 0 := rfl

@[simp] theorem State.withEncoded_inLen (s : State) (xs : List Byte) (t : PrefixNode) (bs : List Byte) (n : Nat) :
    (s.withEncoded xs t bs n).inLen = s.inLen := rfl

@[simp] theorem State.withEncoded_outLen (s : State) (xs : List Byte) (t : PrefixNode) (bs : List Byte) (n : Nat) :
    (s.withEncoded xs t bs n).outLen = BitVec.ofNat 64 bs.length := rfl

@[simp] theorem State.withEncoded_bitLen (s : State) (xs : List Byte) (t : PrefixNode) (bs : List Byte) (n : Nat) :
    (s.withEncoded xs t bs n).bitLen = BitVec.ofNat 64 n := rfl

@[simp] theorem State.withEncoded_cursor (s : State) (xs : List Byte) (t : PrefixNode) (bs : List Byte) (n : Nat) :
    (s.withEncoded xs t bs n).cursor = 0 := rfl

@[simp] theorem State.withEncoded_nleaf (s : State) (xs : List Byte) (t : PrefixNode) (bs : List Byte) (n : Nat) :
    (s.withEncoded xs t bs n).nleaf = BitVec.ofNat 64 t.leafCount := rfl

@[simp] theorem State.withEncoded_inMem (s : State) (xs : List Byte) (t : PrefixNode) (bs : List Byte) (n : Nat) :
    (s.withEncoded xs t bs n).inMem = s.inMem := rfl

@[simp] theorem State.withEncoded_outMem (s : State) (xs : List Byte) (t : PrefixNode) (bs : List Byte) (n : Nat) :
    (s.withEncoded xs t bs n).outMem = s.outMem.store bs := rfl

@[simp] theorem State.withEncoded_freq (s : State) (xs : List Byte) (t : PrefixNode) (bs : List Byte) (n : Nat) :
    (s.withEncoded xs t bs n).freq = s.freq.store (freqTable xs) := rfl

@[simp] theorem State.withEncoded_tree (s : State) (xs : List Byte) (t : PrefixNode) (bs : List Byte) (n : Nat) :
    (s.withEncoded xs t bs n).tree = some t := rfl

@[simp] theorem State.withEncoded_code (s : State) (xs : List Byte) (t : PrefixNode) (bs : List Byte) (n : Nat) :
    (s.withEncoded xs t bs n).code = s.code.store (codeTable t) := rfl

@[simp] theorem State.withEncoded_cp (s : State) (xs : List Byte) (t : PrefixNode) (bs : List Byte) (n : Nat) :
    (s.withEncoded xs t bs n).cp = s.cp.store (codePoints t) := rfl

@[simp] theorem State.withEncoded_moves (s : State) (xs : List Byte) (t : PrefixNode) (bs : List Byte) (n : Nat) :
    (s.withEncoded xs t bs n).moves = s.moves := rfl

@[simp] theorem State.withEncoded_reply (s : State) (xs : List Byte) (t : PrefixNode) (bs : List Byte) (n : Nat) :
    (s.withEncoded xs t bs n).reply = s.reply := rfl

@[simp] theorem State.withEncoded_epoch (s : State) (xs : List Byte) (t : PrefixNode) (bs : List Byte) (n : Nat) :
    (s.withEncoded xs t bs n).epoch = s.epoch := rfl

/-! ## withDecoded -/

@[simp] theorem State.withDecoded_params (s : State) (d : Decoded) : (s.withDecoded d).params = s.params := rfl

@[simp] theorem State.withDecoded_cmd (s : State) (d : Decoded) : (s.withDecoded d).cmd = s.cmd := rfl

@[simp] theorem State.withDecoded_status (s : State) (d : Decoded) :
    (s.withDecoded d).status = Status.make .done false true false true true d.sent := rfl

@[simp] theorem State.withDecoded_err (s : State) (d : Decoded) : (s.withDecoded d).err = 0 := rfl

@[simp] theorem State.withDecoded_errInfo (s : State) (d : Decoded) : (s.withDecoded d).errInfo = 0 := rfl

@[simp] theorem State.withDecoded_inLen (s : State) (d : Decoded) : (s.withDecoded d).inLen = s.inLen := rfl

@[simp] theorem State.withDecoded_outLen (s : State) (d : Decoded) :
    (s.withDecoded d).outLen = BitVec.ofNat 64 d.out.length := rfl

@[simp] theorem State.withDecoded_bitLen (s : State) (d : Decoded) : (s.withDecoded d).bitLen = 8 * s.inLen + 1 := rfl

@[simp] theorem State.withDecoded_cursor (s : State) (d : Decoded) :
    (s.withDecoded d).cursor = BitVec.ofNat 64 d.cursor := rfl

@[simp] theorem State.withDecoded_nleaf (s : State) (d : Decoded) :
    (s.withDecoded d).nleaf = BitVec.ofNat 64 d.cps.length := rfl

@[simp] theorem State.withDecoded_inMem (s : State) (d : Decoded) : (s.withDecoded d).inMem = s.inMem := rfl

@[simp] theorem State.withDecoded_outMem (s : State) (d : Decoded) :
    (s.withDecoded d).outMem = s.outMem.store d.out := rfl

@[simp] theorem State.withDecoded_freq (s : State) (d : Decoded) : (s.withDecoded d).freq = s.freq := rfl

@[simp] theorem State.withDecoded_tree (s : State) (d : Decoded) : (s.withDecoded d).tree = some d.tree := rfl

@[simp] theorem State.withDecoded_code (s : State) (d : Decoded) : (s.withDecoded d).code = s.code := rfl

@[simp] theorem State.withDecoded_cp (s : State) (d : Decoded) : (s.withDecoded d).cp = s.cp.store d.cps := rfl

@[simp] theorem State.withDecoded_moves (s : State) (d : Decoded) : (s.withDecoded d).moves = s.moves := rfl

@[simp] theorem State.withDecoded_reply (s : State) (d : Decoded) : (s.withDecoded d).reply = s.reply := rfl

@[simp] theorem State.withDecoded_epoch (s : State) (d : Decoded) : (s.withDecoded d).epoch = s.epoch := rfl

/-! ## start -/

@[simp] theorem State.start_params (s : State) (w : Byte) : (s.start w).params = s.params := rfl

@[simp] theorem State.start_cmd (s : State) (w : Byte) : (s.start w).cmd = w := rfl

@[simp] theorem State.start_status (s : State) (w : Byte) :
    (s.start w).status = Status.withPhase s.status .busy := rfl

@[simp] theorem State.start_err (s : State) (w : Byte) : (s.start w).err = s.err := rfl

@[simp] theorem State.start_errInfo (s : State) (w : Byte) : (s.start w).errInfo = s.errInfo := rfl

@[simp] theorem State.start_inLen (s : State) (w : Byte) : (s.start w).inLen = s.inLen := rfl

@[simp] theorem State.start_outLen (s : State) (w : Byte) : (s.start w).outLen = s.outLen := rfl

@[simp] theorem State.start_bitLen (s : State) (w : Byte) : (s.start w).bitLen = s.bitLen := rfl

@[simp] theorem State.start_cursor (s : State) (w : Byte) : (s.start w).cursor = s.cursor := rfl

@[simp] theorem State.start_nleaf (s : State) (w : Byte) : (s.start w).nleaf = s.nleaf := rfl

@[simp] theorem State.start_inMem (s : State) (w : Byte) : (s.start w).inMem = s.inMem := rfl

@[simp] theorem State.start_outMem (s : State) (w : Byte) : (s.start w).outMem = s.outMem := rfl

@[simp] theorem State.start_freq (s : State) (w : Byte) : (s.start w).freq = s.freq := rfl

@[simp] theorem State.start_tree (s : State) (w : Byte) : (s.start w).tree = s.tree := rfl

@[simp] theorem State.start_code (s : State) (w : Byte) : (s.start w).code = s.code := rfl

@[simp] theorem State.start_cp (s : State) (w : Byte) : (s.start w).cp = s.cp := rfl

@[simp] theorem State.start_moves (s : State) (w : Byte) : (s.start w).moves = s.moves := rfl

@[simp] theorem State.start_reply (s : State) (w : Byte) : (s.start w).reply = s.reply := rfl

@[simp] theorem State.start_epoch (s : State) (w : Byte) : (s.start w).epoch = s.epoch := rfl

/-! ## release -/

@[simp] theorem State.release_params (s : State) : (s.release).params = s.params := rfl

@[simp] theorem State.release_cmd (s : State) : (s.release).cmd = 0 := rfl

@[simp] theorem State.release_status (s : State) : (s.release).status = Status.withPhase s.status .done := rfl

@[simp] theorem State.release_err (s : State) : (s.release).err = s.err := rfl

@[simp] theorem State.release_errInfo (s : State) : (s.release).errInfo = s.errInfo := rfl

@[simp] theorem State.release_inLen (s : State) : (s.release).inLen = s.inLen := rfl

@[simp] theorem State.release_outLen (s : State) : (s.release).outLen = s.outLen := rfl

@[simp] theorem State.release_bitLen (s : State) : (s.release).bitLen = s.bitLen := rfl

@[simp] theorem State.release_cursor (s : State) : (s.release).cursor = s.cursor := rfl

@[simp] theorem State.release_nleaf (s : State) : (s.release).nleaf = s.nleaf := rfl

@[simp] theorem State.release_inMem (s : State) : (s.release).inMem = s.inMem := rfl

@[simp] theorem State.release_outMem (s : State) : (s.release).outMem = s.outMem := rfl

@[simp] theorem State.release_freq (s : State) : (s.release).freq = s.freq := rfl

@[simp] theorem State.release_tree (s : State) : (s.release).tree = s.tree := rfl

@[simp] theorem State.release_code (s : State) : (s.release).code = s.code := rfl

@[simp] theorem State.release_cp (s : State) : (s.release).cp = s.cp := rfl

@[simp] theorem State.release_moves (s : State) : (s.release).moves = s.moves := rfl

@[simp] theorem State.release_reply (s : State) : (s.release).reply = s.reply := rfl

@[simp] theorem State.release_epoch (s : State) : (s.release).epoch = s.epoch := rfl

/-! ## afterRead -/

@[simp] theorem State.afterRead_params (s : State) (sp i : Nat) : (s.afterRead sp i).params = s.params := rfl

@[simp] theorem State.afterRead_cmd (s : State) (sp i : Nat) : (s.afterRead sp i).cmd = s.cmd := rfl

@[simp] theorem State.afterRead_status (s : State) (sp i : Nat) : (s.afterRead sp i).status = s.status := rfl

@[simp] theorem State.afterRead_err (s : State) (sp i : Nat) : (s.afterRead sp i).err = s.err := rfl

@[simp] theorem State.afterRead_errInfo (s : State) (sp i : Nat) : (s.afterRead sp i).errInfo = s.errInfo := rfl

@[simp] theorem State.afterRead_inLen (s : State) (sp i : Nat) : (s.afterRead sp i).inLen = s.inLen := rfl

@[simp] theorem State.afterRead_outLen (s : State) (sp i : Nat) : (s.afterRead sp i).outLen = s.outLen := rfl

@[simp] theorem State.afterRead_bitLen (s : State) (sp i : Nat) : (s.afterRead sp i).bitLen = s.bitLen := rfl

@[simp] theorem State.afterRead_cursor (s : State) (sp i : Nat) : (s.afterRead sp i).cursor = s.cursor := rfl

@[simp] theorem State.afterRead_nleaf (s : State) (sp i : Nat) : (s.afterRead sp i).nleaf = s.nleaf := rfl

@[simp] theorem State.afterRead_inMem (s : State) (sp i : Nat) : (s.afterRead sp i).inMem = s.inMem := rfl

@[simp] theorem State.afterRead_outMem (s : State) (sp i : Nat) : (s.afterRead sp i).outMem = s.outMem := rfl

@[simp] theorem State.afterRead_freq (s : State) (sp i : Nat) : (s.afterRead sp i).freq = s.freq := rfl

@[simp] theorem State.afterRead_tree (s : State) (sp i : Nat) : (s.afterRead sp i).tree = s.tree := rfl

@[simp] theorem State.afterRead_code (s : State) (sp i : Nat) : (s.afterRead sp i).code = s.code := rfl

@[simp] theorem State.afterRead_cp (s : State) (sp i : Nat) : (s.afterRead sp i).cp = s.cp := rfl

@[simp] theorem State.afterRead_moves (s : State) (sp i : Nat) : (s.afterRead sp i).moves = s.moves := rfl

@[simp] theorem State.afterRead_reply (s : State) (sp i : Nat) :
    (s.afterRead sp i).reply = replyOf (hostRead s sp i) := rfl

@[simp] theorem State.afterRead_epoch (s : State) (sp i : Nat) : (s.afterRead sp i).epoch = s.epoch := rfl

/-! ## withCommand -/

@[simp] theorem State.withCommand_params (s : State) (w : Byte) : (s.withCommand w).params = s.params := rfl

@[simp] theorem State.withCommand_cmd (s : State) (w : Byte) : (s.withCommand w).cmd = s.cmd := rfl

@[simp] theorem State.withCommand_status (s : State) (w : Byte) : (s.withCommand w).status = s.status := rfl

@[simp] theorem State.withCommand_err (s : State) (w : Byte) : (s.withCommand w).err = s.err := rfl

@[simp] theorem State.withCommand_errInfo (s : State) (w : Byte) : (s.withCommand w).errInfo = s.errInfo := rfl

@[simp] theorem State.withCommand_inLen (s : State) (w : Byte) : (s.withCommand w).inLen = s.inLen := rfl

@[simp] theorem State.withCommand_outLen (s : State) (w : Byte) : (s.withCommand w).outLen = s.outLen := rfl

@[simp] theorem State.withCommand_bitLen (s : State) (w : Byte) : (s.withCommand w).bitLen = s.bitLen := rfl

@[simp] theorem State.withCommand_cursor (s : State) (w : Byte) : (s.withCommand w).cursor = s.cursor := rfl

@[simp] theorem State.withCommand_nleaf (s : State) (w : Byte) : (s.withCommand w).nleaf = s.nleaf := rfl

@[simp] theorem State.withCommand_inMem (s : State) (w : Byte) : (s.withCommand w).inMem = s.inMem := rfl

@[simp] theorem State.withCommand_outMem (s : State) (w : Byte) : (s.withCommand w).outMem = s.outMem := rfl

@[simp] theorem State.withCommand_freq (s : State) (w : Byte) : (s.withCommand w).freq = s.freq := rfl

@[simp] theorem State.withCommand_tree (s : State) (w : Byte) : (s.withCommand w).tree = s.tree := rfl

@[simp] theorem State.withCommand_code (s : State) (w : Byte) : (s.withCommand w).code = s.code := rfl

@[simp] theorem State.withCommand_cp (s : State) (w : Byte) : (s.withCommand w).cp = s.cp := rfl

@[simp] theorem State.withCommand_moves (s : State) (w : Byte) :
    (s.withCommand w).moves = .write 0 0 w.toNat :: .complete :: s.moves := rfl

@[simp] theorem State.withCommand_reply (s : State) (w : Byte) : (s.withCommand w).reply = s.reply := rfl

@[simp] theorem State.withCommand_epoch (s : State) (w : Byte) : (s.withCommand w).epoch = s.epoch := rfl

end Sys2Proof.Machine
end

