-- ==== Sys2Proof/Laws/Tree.lean ====
section
/-! SUPPORT. The Tree Builder: the stable sort, one merge, the loop, and what `Build` answers. -/

namespace Sys2Proof.Machine

/-! ## Trees -/

theorem PrefixNode.leafCount_pos (t : PrefixNode) : 1 ≤ t.leafCount := by
  induction t with
  | leaf => simp [PrefixNode.leafCount]
  | internal l r ihl ihr => simp only [PrefixNode.leafCount]; omega

theorem PrefixNode.height_lt_leafCount (t : PrefixNode) : t.height + 1 ≤ t.leafCount := by
  induction t with
  | leaf => simp [PrefixNode.leafCount, PrefixNode.height]
  | internal l r ihl ihr =>
    have := l.leafCount_pos; have := r.leafCount_pos
    simp only [PrefixNode.leafCount, PrefixNode.height]; omega

theorem PrefixNode.size_eq (t : PrefixNode) : t.size = 2 * t.leafCount - 1 := by
  induction t with
  | leaf => simp [PrefixNode.leafCount, PrefixNode.size]
  | internal l r ihl ihr =>
    have := l.leafCount_pos; have := r.leafCount_pos
    simp only [PrefixNode.leafCount, PrefixNode.size]; omega

theorem PrefixNode.length_symbols (t : PrefixNode) : t.symbols.length = t.leafCount := by
  induction t with
  | leaf => rfl
  | internal l r ihl ihr => simp [PrefixNode.symbols, PrefixNode.leafCount, ihl, ihr]

theorem PrefixNode.length_flattenFrom (t : PrefixNode) (i : Nat) : (t.flattenFrom i).length = t.size := by
  induction t generalizing i with
  | leaf => rfl
  | internal l r ihl ihr => simp [PrefixNode.flattenFrom, PrefixNode.size, ihl, ihr]; omega

/-! ## The sort -/

theorem insertDesc_perm (x : PrefixNode) (ys : List PrefixNode) : (insertDesc x ys).Perm (x :: ys) := by
  induction ys with
  | nil => exact .refl _
  | cons y ys ih =>
    unfold insertDesc
    split
    · exact .refl _
    · exact (ih.cons y).trans (.swap x y ys)

theorem mem_insertDesc {x z : PrefixNode} {ys : List PrefixNode} : z ∈ insertDesc x ys ↔ z = x ∨ z ∈ ys := by
  rw [(insertDesc_perm x ys).mem_iff, List.mem_cons]

theorem insertDesc_sorted (x : PrefixNode) {ys : List PrefixNode} (h : ys.Pairwise fun a b => b.weight ≤ a.weight) :
    (insertDesc x ys).Pairwise fun a b => b.weight ≤ a.weight := by
  induction ys with
  | nil => simp [insertDesc]
  | cons y ys ih =>
    obtain ⟨hy, hys⟩ := List.pairwise_cons.1 h
    unfold insertDesc
    split
    · rename_i hxy
      refine List.pairwise_cons.2 ⟨fun z hz => ?_, h⟩
      rcases List.mem_cons.1 hz with rfl | hz
      · exact hxy
      · exact BitVec.le_trans (hy z hz) hxy
    · rename_i hxy
      refine List.pairwise_cons.2 ⟨fun z hz => ?_, ih hys⟩
      rcases mem_insertDesc.1 hz with rfl | hz
      · exact BitVec.le_of_lt (BitVec.not_le.1 hxy)
      · exact hy z hz

theorem insertDesc_filter (x : PrefixNode) {ys : List PrefixNode} (h : ys.Pairwise fun a b => b.weight ≤ a.weight)
    (w : Word) :
    (insertDesc x ys).filter (fun z => z.weight = w) = (x :: ys).filter fun z => z.weight = w := by
  induction ys with
  | nil => rfl
  | cons y ys ih =>
    unfold insertDesc
    split
    · rfl
    · rename_i hxy
      have hne : y.weight ≠ x.weight := fun e => hxy (e ▸ BitVec.le_refl _)
      have := ih (List.pairwise_cons.1 h).2
      rw [List.filter_cons, this]
      by_cases hx : x.weight = w <;> by_cases hy : y.weight = w <;> simp_all

theorem sortDesc_length (work : List PrefixNode) : (sortDesc work).length = work.length := by
  induction work with
  | nil => rfl
  | cons x xs ih => rw [sortDesc, (insertDesc_perm x _).length_eq, List.length_cons, ih, List.length_cons]

/-- The sort gives a permutation in descending order. -/
theorem sortDesc_spec (work : List PrefixNode) :
    (sortDesc work).Perm work ∧ (sortDesc work).Pairwise fun a b => b.weight ≤ a.weight := by
  induction work with
  | nil => exact ⟨.refl _, .nil⟩
  | cons x xs ih => exact ⟨(insertDesc_perm x _).trans (ih.1.cons x), insertDesc_sorted x ih.2⟩

/-- The last entry of the sorted collection is the lightest, the latest among equals; the sort of the others is what stands
before it. -/
theorem sortDesc_last {work front : List PrefixNode} {last : PrefixNode} (h : sortDesc work = front ++ [last]) :
    ∃ pre post, work = pre ++ last :: post ∧ (∀ x ∈ pre, last.weight ≤ x.weight) ∧
      (∀ x ∈ post, last.weight < x.weight) ∧ sortDesc (pre ++ post) = front := by
  induction work generalizing front last with
  | nil => simp [sortDesc] at h
  | cons x xs ih =>
    rw [sortDesc] at h
    rcases List.eq_nil_or_concat (sortDesc xs) with h0 | ⟨f, l, hl⟩
    · have : xs = [] := by have := sortDesc_length xs; rw [h0] at this; exact List.eq_nil_of_length_eq_zero this.symm
      subst this
      rw [h0] at h
      simp only [insertDesc] at h
      obtain ⟨rfl, hx⟩ := List.append_inj' (s₁ := []) h rfl
      cases hx
      exact ⟨[], [], rfl, by simp, by simp, rfl⟩
    · rw [List.concat_eq_append] at hl
      obtain ⟨pre, post, hxs, h1, h2, h3⟩ := ih hl
      obtain ⟨hperm, hsorted⟩ := sortDesc_spec xs
      rw [hl] at hperm hsorted
      rw [hl] at h
      have hall : ∀ y ∈ f, l.weight ≤ y.weight := fun y hy => (List.pairwise_append.1 hsorted).2.2 y hy l (by simp)
      by_cases hc : l.weight ≤ x.weight
      · have : ∀ f : List PrefixNode, insertDesc x (f ++ [l]) = insertDesc x f ++ [l] := by
          intro f
          induction f with
          | nil => simp [insertDesc, hc]
          | cons y ys ih2 => simp only [List.cons_append, insertDesc]; split <;> simp [ih2]
        rw [this] at h
        obtain ⟨rfl, hx⟩ := List.append_inj' h rfl
        cases hx
        refine ⟨x :: pre, post, by rw [hxs]; rfl, by simpa using ⟨hc, h1⟩, h2, by rw [List.cons_append, sortDesc, h3]⟩
      · have hlt : x.weight < l.weight := BitVec.not_le.1 hc
        have : ∀ f : List PrefixNode, (∀ y ∈ f, x.weight < y.weight) → insertDesc x f = f ++ [x] := by
          intro f
          induction f with
          | nil => intro _; rfl
          | cons y ys ih2 =>
            intro hf
            rw [insertDesc, if_neg (BitVec.not_le.2 (hf y (by simp))), ih2 fun z hz => hf z (List.mem_cons_of_mem _ hz)]; rfl
        have hf : ∀ y ∈ f ++ [l], x.weight < y.weight := by
          intro y hy
          rcases List.mem_append.1 hy with hy | hy
          · have := hall y hy; rw [BitVec.lt_def] at *; rw [BitVec.le_def] at this; omega
          · simp at hy; subst hy; exact hlt
        rw [this _ hf] at h
        obtain ⟨rfl, hx⟩ := List.append_inj' h rfl
        cases hx
        exact ⟨[], xs, rfl, by simp, fun y hy => hf y (hperm.mem_iff.2 hy), hl⟩

/-! ## The merge -/

/-- What one merge does: two entries of the collection are joined behind the others. -/
theorem mergeStep_spec (o : ChildOrder) {work : List PrefixNode} (h : 2 ≤ work.length) :
    ∃ last prev rest, (last :: prev :: rest).Perm work ∧ mergeStep o work = rest ++ [joinNodes o last prev] := by
  have hp : (sortDesc work).reverse.Perm work := by
    refine (List.reverse_perm _).trans ?_
    clear h
    induction work with
    | nil => exact .refl _
    | cons x xs ih => exact (insertDesc_perm x _).trans (ih.cons x)
  unfold mergeStep
  match hr : (sortDesc work).reverse with
  | [] => simp [hr] at hp; simp [hp] at h
  | [x] => have := hp.length_eq; simp [hr] at this; omega
  | last :: prev :: front =>
    refine ⟨last, prev, front.reverse, ?_, rfl⟩
    rw [hr] at hp
    exact (((List.reverse_perm front).cons prev).cons last).trans hp

theorem joinNodes_weight (o : ChildOrder) (x y : PrefixNode) : (joinNodes o x y).weight = x.weight + y.weight := by
  cases o
  · rfl
  · exact BitVec.add_comm _ _

theorem joinNodes_symbols (o : ChildOrder) (x y : PrefixNode) :
    (joinNodes o x y).symbols.Perm (x.symbols ++ y.symbols) := by
  cases o
  · exact .refl _
  · exact List.perm_append_comm

theorem joinNodes_isInternal (o : ChildOrder) (x y : PrefixNode) : (joinNodes o x y).isInternal = true := by
  cases o <;> rfl

theorem mergeStep_length (o : ChildOrder) {work : List PrefixNode} (h : 2 ≤ work.length) :
    (mergeStep o work).length + 1 = work.length := by
  obtain ⟨last, prev, rest, hp, he⟩ := mergeStep_spec o h
  have := hp.length_eq
  simp only [List.length_cons] at this
  simp only [he, List.length_append, List.length_singleton]; omega

theorem mergeStep_weights (o : ChildOrder) {work : List PrefixNode} (h : 2 ≤ work.length) :
    ((mergeStep o work).map PrefixNode.weight).sum = (work.map PrefixNode.weight).sum := by
  obtain ⟨last, prev, rest, hp, he⟩ := mergeStep_spec o h
  rw [he, ← (hp.map PrefixNode.weight).sum_eq]
  simp only [List.map_append, List.map_cons, List.map_nil, List.sum_append, List.sum_cons, List.sum_nil,
    joinNodes_weight]
  ring

theorem mergeStep_symbols (o : ChildOrder) {work : List PrefixNode} (h : 2 ≤ work.length) :
    ((mergeStep o work).flatMap PrefixNode.symbols).Perm (work.flatMap PrefixNode.symbols) := by
  obtain ⟨last, prev, rest, hp, he⟩ := mergeStep_spec o h
  rw [he, List.flatMap_append, List.flatMap_cons, List.flatMap_nil, List.append_nil]
  refine List.Perm.trans ?_ (hp.flatMap_right PrefixNode.symbols)
  rw [List.flatMap_cons, List.flatMap_cons, ← List.append_assoc]
  exact List.perm_append_comm.trans ((joinNodes_symbols o last prev).append_right _)

/-- The loop ends with one tree that holds every symbol and all the weight. -/
theorem mergeAll_spec (o : ChildOrder) (n : Nat) (work : List PrefixNode) (h1 : 1 ≤ work.length)
    (hn : work.length ≤ n + 1) :
    ∃ t, mergeAll o n work = [t] ∧ t.symbols.Perm (work.flatMap PrefixNode.symbols) ∧
      t.weight = (work.map PrefixNode.weight).sum ∧ (2 ≤ work.length → t.isInternal = true) := by
  suffices H : ∀ n (work : List PrefixNode), 1 ≤ work.length → work.length ≤ n + 1 →
      ∃ t, mergeAll o n work = [t] ∧ t.symbols.Perm (work.flatMap PrefixNode.symbols) ∧
        t.weight = (work.map PrefixNode.weight).sum ∧
        ((∀ x ∈ work.getLast?, x.isInternal = true) ∨ 2 ≤ work.length → t.isInternal = true) by
    obtain ⟨t, a, b, c, d⟩ := H n work h1 hn
    exact ⟨t, a, b, c, fun h => d (.inr h)⟩
  clear h1 hn work n
  have base : ∀ work : List PrefixNode, work.length = 1 →
      ∃ t, work = [t] ∧ t.symbols.Perm (work.flatMap PrefixNode.symbols) ∧
        t.weight = (work.map PrefixNode.weight).sum ∧
        ((∀ x ∈ work.getLast?, x.isInternal = true) ∨ 2 ≤ work.length → t.isInternal = true) := by
    intro work h
    obtain ⟨t, rfl⟩ := List.length_eq_one_iff.1 h
    exact ⟨t, rfl, by simp, by simp, by simp⟩
  intro n
  induction n with
  | zero => intro work h1 hn; exact base work (by omega)
  | succ n ih =>
    intro work h1 hn
    unfold mergeAll
    split
    · rename_i h2
      have hl := mergeStep_length o (work := work) (by omega)
      obtain ⟨t, ht, hs, hw, hi⟩ := ih (mergeStep o work) (by omega) (by omega)
      refine ⟨t, ht, hs.trans (mergeStep_symbols o (by omega)), hw.trans (mergeStep_weights o (by omega)), fun _ => ?_⟩
      apply hi
      left
      obtain ⟨last, prev, rest, _, he⟩ := mergeStep_spec o (work := work) (by omega)
      simp [he, joinNodes_isInternal]
    · exact base work (by omega)

/-- The loop is one merge fewer than there are entries. -/
theorem mergeAll_iterate (o : ChildOrder) (n : Nat) (work : List PrefixNode) (hn : work.length ≤ n + 1) :
    mergeAll o n work = (mergeStep o)^[work.length - 1] work := by
  induction n generalizing work with
  | zero => rw [mergeAll, show work.length - 1 = 0 by omega]; rfl
  | succ n ih =>
    unfold mergeAll
    split
    · have hl := mergeStep_length o (work := work) (by omega)
      rw [ih (mergeStep o work) (by omega), show work.length - 1 = (mergeStep o work).length - 1 + 1 by omega]
      rfl
    · rw [show work.length - 1 = 0 by omega]; rfl

/-! ## Counting -/

theorem mem_allBytes (b : Byte) : b ∈ allBytes :=
  List.mem_map.2 ⟨b.toNat, List.mem_range.2 b.isLt, BitVec.ofNat_toNat 8 b⟩

theorem nodup_allBytes : allBytes.Nodup := by
  refine List.Nodup.map_on (fun x hx y hy h => ?_) List.nodup_range
  have hx := List.mem_range.1 hx
  have hy := List.mem_range.1 hy
  simp only [Config.symbolCount] at hx hy
  simpa [Nat.mod_eq_of_lt hx, Nat.mod_eq_of_lt hy] using congrArg BitVec.toNat h

theorem length_allBytes : allBytes.length = 256 := by simp [allBytes, Config.symbolCount]

theorem getElem?_allBytes (b : Byte) : allBytes[b.toNat]? = some b := by
  have := b.isLt
  simp [allBytes, Config.symbolCount, List.getElem?_range this]

theorem mem_usedSymbols {f : Byte → Word} {b : Byte} : b ∈ usedSymbols f ↔ f b ≠ 0 := by
  simp [usedSymbols, mem_allBytes]

theorem nodup_usedSymbols (f : Byte → Word) : (usedSymbols f).Nodup := nodup_allBytes.filter _

theorem symbolFreq_ne_zero {symbols : List Byte} (h : symbols.length < 2 ^ 64) (b : Byte) :
    symbolFreq symbols b ≠ 0 ↔ b ∈ symbols := by
  have hc : symbols.count b < 2 ^ 64 := Nat.lt_of_le_of_lt List.count_le_length h
  have e : (symbolFreq symbols b).toNat = symbols.count b := by
    rw [symbolFreq, BitVec.toNat_ofNat, Nat.mod_eq_of_lt hc]
  rw [← List.count_pos_iff, ← e, ne_eq, ← BitVec.toNat_inj, Nat.pos_iff_ne_zero]
  rfl

theorem sum_map_used (f : Byte → Word) (bs : List Byte) :
    ((bs.filter fun b => decide (f b ≠ 0)).map f).sum = (bs.map f).sum := by
  induction bs with
  | nil => rfl
  | cons b bs ih =>
    by_cases h : f b = 0
    · simp only [List.filter_cons, h, ne_eq, not_true_eq_false, decide_false, List.map_cons, List.sum_cons]
      simpa using ih
    · simp only [List.filter_cons, h, ne_eq, not_false_eq_true, decide_true, if_true, List.map_cons, List.sum_cons]
      rw [← ih]

theorem sum_single (x : Byte) : (allBytes.map fun b => if x = b then (1 : Word) else 0).sum = 1 := by
  rw [List.sum_map_eq_nsmul_single x _ fun b hb _ => if_neg (Ne.symm hb),
    List.count_eq_one_of_mem nodup_allBytes (mem_allBytes x)]
  simp

theorem sum_symbolFreq (symbols : List Byte) :
    (allBytes.map (symbolFreq symbols)).sum = BitVec.ofNat 64 symbols.length := by
  induction symbols with
  | nil =>
    have : allBytes.map (symbolFreq []) = allBytes.map fun _ => (0 : Word) := List.map_congr_left fun b _ => rfl
    rw [this]; decide +kernel
  | cons x xs ih =>
    have hf : ∀ b, symbolFreq (x :: xs) b = symbolFreq xs b + if x = b then 1 else 0 := by
      intro b
      unfold symbolFreq
      by_cases h : x = b
      · subst h; simp [BitVec.ofNat_add]
      · simp [h]
    have : (allBytes.map (symbolFreq (x :: xs))).sum =
        (allBytes.map (symbolFreq xs)).sum + (allBytes.map fun b => if x = b then (1 : Word) else 0).sum := by
      rw [← List.sum_map_add]
      exact congrArg List.sum (List.map_congr_left fun b _ => hf b)
    rw [this, ih, sum_single, List.length_cons, BitVec.ofNat_add]
    rfl

theorem length_freqTable (symbols : List Byte) : (freqTable symbols).length = 256 := by
  simp [freqTable, length_allBytes]

theorem getElem?_freqTable (symbols : List Byte) (b : Byte) :
    (freqTable symbols)[b.toNat]? = some (symbolFreq symbols b) := by
  simp [freqTable, getElem?_allBytes]

theorem seed_symbols (f : Byte → Word) : (seed f).flatMap PrefixNode.symbols = usedSymbols f := by
  simp [seed, List.flatMap_map, PrefixNode.symbols]

theorem seed_weights (f : Byte → Word) : ((seed f).map PrefixNode.weight).sum = (allBytes.map f).sum := by
  rw [← sum_map_used f allBytes]
  simp [seed, usedSymbols, PrefixNode.weight, Function.comp_def]

/-- What `Build` can answer on a sequence whose counts do not overflow. -/
theorem build_cases (o : ChildOrder) (symbols : List Byte) (h : symbols.length < 2 ^ 64) :
    (symbols = [] ∧ build o symbols = .error ⟨.emptyInput, 0⟩) ∨
      (∃ b, symbols ≠ [] ∧ (∀ x ∈ symbols, x = b) ∧ build o symbols = .error ⟨.singleSymbol, b.setWidth 64⟩) ∨
      ∃ t, (∃ x ∈ symbols, ∃ y ∈ symbols, x ≠ y) ∧ build o symbols = .ok t ∧
        t.symbols.Perm (usedSymbols (symbolFreq symbols)) ∧ t.weight = BitVec.ofNat 64 symbols.length ∧
        t.isInternal = true := by
  unfold build
  by_cases h0 : symbols = []
  · exact .inl ⟨h0, by simp [h0, raise]⟩
  right
  rw [if_neg h0]
  have hmem : ∀ b, b ∈ usedSymbols (symbolFreq symbols) ↔ b ∈ symbols := fun b =>
    mem_usedSymbols.trans (symbolFreq_ne_zero h b)
  have hnd := nodup_usedSymbols (symbolFreq symbols)
  match hu : usedSymbols (symbolFreq symbols) with
  | [] =>
    obtain ⟨x, hx⟩ := List.exists_mem_of_ne_nil _ h0
    exact absurd ((hmem x).2 hx) (by simp [hu])
  | [b] => exact .inl ⟨b, h0, fun x hx => by simpa [hu] using (hmem x).2 hx, rfl⟩
  | b :: c :: rest =>
    right
    have hlen : (seed (symbolFreq symbols)).length = rest.length + 2 := by simp [seed, hu]
    obtain ⟨t, ht, hs, hw, hi⟩ :=
      mergeAll_spec o (seed (symbolFreq symbols)).length (seed (symbolFreq symbols)) (by omega) (by omega)
    rw [seed_symbols, hu] at hs
    rw [seed_weights, sum_symbolFreq] at hw
    refine ⟨t, ⟨b, (hmem b).1 (by simp [hu]), c, (hmem c).1 (by simp [hu]), ?_⟩, by simp only [ht], hs, hw,
      hi (by omega)⟩
    rw [hu] at hnd
    intro e; subst e; simp at hnd

/-- `Build` gives a tree only when its counts tell two symbols apart. -/
theorem build_ok (o : ChildOrder) {symbols : List Byte} {t : PrefixNode} (h : build o symbols = .ok t) :
    t.symbols.Perm (usedSymbols (symbolFreq symbols)) ∧ t.weight = BitVec.ofNat 64 symbols.length ∧
      t.isInternal = true := by
  unfold build at h
  split at h
  · cases h
  · split at h
    · cases h
    · cases h
    · rename_i hne hone
      have hlen : 2 ≤ (seed (symbolFreq symbols)).length := by
        simp only [seed, List.length_map]
        match hu : usedSymbols (symbolFreq symbols) with
        | [] => exact absurd hu hne
        | [b] => exact absurd hu (hone b)
        | _ :: _ :: _ => simp
      obtain ⟨t', ht, hs, hw, hi⟩ :=
        mergeAll_spec o (seed (symbolFreq symbols)).length (seed (symbolFreq symbols)) (by omega) (by omega)
      simp only [ht] at h
      cases h
      rw [seed_symbols] at hs
      rw [seed_weights, sum_symbolFreq] at hw
      exact ⟨hs, hw, hi hlen⟩

/-- The faults of `Build`. -/
theorem build_error (o : ChildOrder) {symbols : List Byte} {e : Raise} (h : build o symbols = .error e) :
    e = ⟨.emptyInput, 0⟩ ∨ ∃ b : Byte, e = ⟨.singleSymbol, b.setWidth 64⟩ := by
  unfold build at h
  split at h
  · cases h; exact .inl rfl
  · split at h
    · cases h; exact .inl rfl
    · cases h; exact .inr ⟨_, rfl⟩
    · simp only at h
      split at h
      · cases h
      · cases h; exact .inl rfl

theorem build_ok_leafCount_le (o : ChildOrder) {symbols : List Byte} {t : PrefixNode} (h : build o symbols = .ok t) :
    t.leafCount ≤ 256 := by
  rw [← t.length_symbols, (build_ok o h).1.length_eq, ← length_allBytes]
  exact List.length_filter_le _ _

end Sys2Proof.Machine
end

