-- ==== Sys2Proof/Laws/Codes.lean ====
section
/-! SUPPORT. Codes: what `Visit` adds to a mapping, and how a walk of the tree follows a code. -/

namespace Sys2Proof.Machine

theorem lookup_append_single (m : CodeMap) (s : Byte) (p : BitSeq) (x : Byte) :
    (m ++ [(s, p)]).lookup x = (m.lookup x).or (if x = s then some p else none) := by
  induction m with
  | nil => by_cases h : x = s <;> simp [h]
  | cons c m ih =>
    obtain ⟨y, q⟩ := c
    by_cases h : x = y
    · simp [h]
    · have hb : (x == y) = false := by simpa using h
      rw [List.cons_append, List.lookup_cons, List.lookup_cons, hb]
      exact ih

/-- What `Visit` answers for one symbol: the code the mapping had, else the path of the first leaf. -/
theorem visit_lookup (t : PrefixNode) (path : BitSeq) (m : CodeMap) (x : Byte) :
    (visit t path m).lookup x = (m.lookup x).or ((walkLookup t x).map (path ++ ·)) := by
  induction t generalizing path m with
  | leaf s w =>
    unfold visit walkLookup
    by_cases hs : (m.lookup s).isNone
    · rw [if_pos hs, lookup_append_single]
      by_cases h : x = s
      · subst h; simp
      · have : s ≠ x := fun e => h e.symm
        simp [h, this]
    · rw [if_neg hs]
      by_cases h : s = x
      · subst h
        cases hm : m.lookup s <;> simp_all
      · simp [h]
  | internal l r ihl ihr =>
    unfold visit walkLookup
    rw [ihr, ihl]
    cases m.lookup x with
    | some p => rfl
    | none =>
      cases walkLookup l x with
      | some p => simp
      | none => cases walkLookup r x <;> simp

theorem codesOf_lookup (t : PrefixNode) (x : Byte) : (codesOf t).lookup x = walkLookup t x := by
  rw [codesOf, visit_lookup]
  cases walkLookup t x <;> simp

theorem walkLookup_isSome (t : PrefixNode) (x : Byte) : (walkLookup t x).isSome = true ↔ x ∈ t.symbols := by
  induction t with
  | leaf s w =>
    by_cases h : s = x
    · simp [walkLookup, PrefixNode.symbols, h]
    · simp [walkLookup, PrefixNode.symbols, h, Ne.symm h]
  | internal l r ihl ihr =>
    unfold walkLookup PrefixNode.symbols
    rw [List.mem_append, ← ihl, ← ihr]
    cases walkLookup l x <;> simp

theorem walkLookup_length {t : PrefixNode} {x : Byte} {p : BitSeq} (h : walkLookup t x = some p) :
    p.length ≤ t.height ∧ (t.isInternal = true → 1 ≤ p.length) := by
  induction t generalizing p with
  | leaf s w =>
    unfold walkLookup at h
    split at h
    · cases h; simp [PrefixNode.height, PrefixNode.isInternal]
    · cases h
  | internal l r ihl ihr =>
    unfold walkLookup at h
    split at h
    · rename_i q hq
      cases h
      have := (ihl hq).1
      simp only [PrefixNode.height, List.length_cons]; omega
    · cases hr : walkLookup r x with
      | none => simp [hr] at h
      | some q =>
        simp only [hr, Option.map_some, Option.some.injEq] at h
        subst h
        have := (ihr hr).1
        simp only [PrefixNode.height, List.length_cons]; omega

/-- A walk follows the code of a symbol to its leaf and reads nothing else. -/
theorem walk_code {t : PrefixNode} {x : Byte} {p : BitSeq} (h : walkLookup t x = some p) (rest : BitSeq) (cur : Nat) :
    walk t ⟨p ++ rest, cur⟩ = .ok (x, ⟨rest, cur + p.length⟩) := by
  induction t generalizing p cur with
  | leaf s w =>
    unfold walkLookup at h
    split at h
    · cases h; subst x; rfl
    · cases h
  | internal l r ihl ihr =>
    unfold walkLookup at h
    split at h
    · rename_i q hq
      cases h
      simp only [walk, List.cons_append, readBit_cons, bind, Except.bind, Bool.false_eq_true, if_false, ihl hq,
        List.length_cons]
      congr 3; omega
    · cases hr : walkLookup r x with
      | none => simp [hr] at h
      | some q =>
        simp only [hr, Option.map_some, Option.some.injEq] at h
        subst h
        simp only [walk, List.cons_append, readBit_cons, bind, Except.bind, if_true, ihr hr, List.length_cons]
        congr 3; omega

/-- What a walk can do: it reaches a leaf over the bits of one path, whatever follows them, or it runs out of bits. -/
theorem walk_cases (t : PrefixNode) (r : Reader) :
    (∃ p rest x, r.rest = p ++ rest ∧ p.length ≤ t.height ∧ (t.isInternal = true → 1 ≤ p.length) ∧ x ∈ t.symbols ∧
      ∀ rest' cur', walk t ⟨p ++ rest', cur'⟩ = .ok (x, ⟨rest', cur' + p.length⟩)) ∨
      (r.rest.length < t.height ∧ walk t r = .error ⟨.corruptStream, 5⟩) := by
  induction t generalizing r with
  | leaf s w =>
    exact .inl ⟨[], r.rest, s, rfl, by simp, by simp [PrefixNode.isInternal], by simp [PrefixNode.symbols],
      fun _ _ => rfl⟩
  | internal l right ihl ihr =>
    rcases readBit_cases r with ⟨hr, he⟩ | ⟨b, rest, hr, he⟩
    · right
      exact ⟨by simp [hr, PrefixNode.height], by simp [walk, he, bind, Except.bind]⟩
    · cases b with
      | false =>
        rcases ihl ⟨rest, r.cur + 1⟩ with ⟨p, rest', x, h1, h2, _, h3, h4⟩ | ⟨h1, h2⟩
        · refine .inl ⟨false :: p, rest', x, by simp_all, by simp only [PrefixNode.height, List.length_cons]; omega,
            fun _ => by simp, by simp [PrefixNode.symbols, h3], fun rest'' cur' => ?_⟩
          simp only [walk, List.cons_append, readBit_cons, bind, Except.bind, Bool.false_eq_true, if_false, h4,
            List.length_cons]
          congr 3; omega
        · refine .inr ⟨by simp only [hr, PrefixNode.height, List.length_cons] at *; omega, ?_⟩
          simp [walk, he, bind, Except.bind, h2]
      | true =>
        rcases ihr ⟨rest, r.cur + 1⟩ with ⟨p, rest', x, h1, h2, _, h3, h4⟩ | ⟨h1, h2⟩
        · refine .inl ⟨true :: p, rest', x, by simp_all, by simp only [PrefixNode.height, List.length_cons]; omega,
            fun _ => by simp, by simp [PrefixNode.symbols, h3], fun rest'' cur' => ?_⟩
          simp only [walk, List.cons_append, readBit_cons, bind, Except.bind, if_true, h4, List.length_cons]
          congr 3; omega
        · refine .inr ⟨by simp only [hr, PrefixNode.height, List.length_cons] at *; omega, ?_⟩
          simp [walk, he, bind, Except.bind, h2]

theorem length_codeTable (t : PrefixNode) : (codeTable t).length = 256 := by simp [codeTable, length_allBytes]

theorem getElem?_codeTable (t : PrefixNode) (b : Byte) :
    (codeTable t)[b.toNat]? = some (codeRecord (codesOf t) b) := by
  simp [codeTable, getElem?_allBytes]

end Sys2Proof.Machine
end

