-- ==== Sys2Proof/Laws/Space.lean ====
section
/-! SUPPORT. Spaces: what a read gives after a write and after a store, and that every operation keeps the canonical form. -/

namespace Sys2Proof.Machine

section
variable {α : Type}

@[simp] theorem Space.read_nil (i : Nat) : Space.read ([] : Space α) i = none := rfl

theorem Space.read_cons (j : Nat) (v : α) (m : Space α) (i : Nat) :
    Space.read ((j, v) :: m) i = if i = j then some v else Space.read m i := rfl

/-- A write gives the value at its own index and leaves every other index alone. -/
theorem Space.read_write (m : Space α) (i : Nat) (v : α) (k : Nat) :
    Space.read (Space.write m i v) k = if k = i then some v else Space.read m k := by
  induction m with
  | nil => simp [Space.write, Space.read_cons]
  | cons c m ih =>
    obtain ⟨j, w⟩ := c
    unfold Space.write
    split
    · simp [Space.read_cons]
    · split
      · subst i
        by_cases hk : k = j <;> simp [Space.read_cons, hk]
      · by_cases hk : k = j
        · subst k
          have : j ≠ i := fun h => by omega
          simp [Space.read_cons, this]
        · simp [Space.read_cons, hk, ih]

theorem Space.mem_write {m : Space α} {i : Nat} {v : α} {c : Nat × α} (h : c ∈ Space.write m i v) :
    c = (i, v) ∨ c ∈ m := by
  induction m with
  | nil => simpa [Space.write] using h
  | cons d m ih =>
    obtain ⟨j, w⟩ := d
    unfold Space.write at h
    split at h
    · simpa using h
    · split at h
      · rcases List.mem_cons.1 h with h | h
        · exact .inl h
        · exact .inr (List.mem_cons_of_mem _ h)
      · rcases List.mem_cons.1 h with h | h
        · exact .inr (h ▸ List.mem_cons_self)
        · exact (ih h).imp id (List.mem_cons_of_mem _)

theorem Space.wf_cons {j : Nat} {w : α} {m : Space α} :
    Space.wf ((j, w) :: m) ↔ (∀ c ∈ m, j < c.1) ∧ Space.wf m := by
  simp [Space.wf, List.pairwise_cons]

/-- A write keeps the canonical form. -/
theorem Space.wf_write {m : Space α} (h : Space.wf m) (i : Nat) (v : α) : Space.wf (Space.write m i v) := by
  induction m with
  | nil => simp [Space.write, Space.wf]
  | cons d m ih =>
    obtain ⟨j, w⟩ := d
    obtain ⟨hj, hm⟩ := Space.wf_cons.1 h
    unfold Space.write
    split
    · refine Space.wf_cons.2 ⟨fun c hc => ?_, h⟩
      rcases List.mem_cons.1 hc with rfl | hc
      · assumption
      · have := hj c hc; omega
    · split
      · subst i; exact Space.wf_cons.2 ⟨hj, hm⟩
      · refine Space.wf_cons.2 ⟨fun c hc => ?_, ih hm⟩
        rcases Space.mem_write hc with rfl | hc
        · simp only; omega
        · exact hj c hc

theorem Space.read_listed (k : Nat) (xs : List α) (rest : Space α) (i : Nat) :
    Space.read (Space.listed k xs ++ rest) i =
      if k ≤ i ∧ i < k + xs.length then xs[i - k]? else Space.read rest i := by
  induction xs generalizing k with
  | nil => simp [Space.listed]
  | cons x xs ih =>
    simp only [Space.listed, List.cons_append, Space.read_cons, ih, List.length_cons]
    by_cases hik : i = k
    · subst i; simp
    · by_cases hki : k + 1 ≤ i
      · have e : i - k = (i - (k + 1)) + 1 := by omega
        have e2 : (k + 1 ≤ i ∧ i < k + 1 + xs.length) ↔ (k ≤ i ∧ i < k + (xs.length + 1)) := by omega
        simp only [hik, if_false, e2, e, List.getElem?_cons_succ]
      · have h1 : ¬ (k + 1 ≤ i ∧ i < k + 1 + xs.length) := fun h => hki h.1
        have h2 : ¬ (k ≤ i ∧ i < k + (xs.length + 1)) := by omega
        rw [if_neg hik, if_neg h1, if_neg h2]

theorem Space.mem_listed {k : Nat} {xs : List α} {c : Nat × α} (h : c ∈ Space.listed k xs) :
    k ≤ c.1 ∧ c.1 < k + xs.length := by
  induction xs generalizing k with
  | nil => simp [Space.listed] at h
  | cons x xs ih =>
    rcases List.mem_cons.1 h with rfl | h
    · simp
    · have := ih h; simp only [List.length_cons]; omega

theorem Space.wf_listed (k : Nat) (xs : List α) : Space.wf (Space.listed k xs) := by
  induction xs generalizing k with
  | nil => simp [Space.listed, Space.wf]
  | cons x xs ih => exact Space.wf_cons.2 ⟨fun c hc => by have := Space.mem_listed hc; omega, ih _⟩

theorem Space.read_filter (m : Space α) (n i : Nat) (h : n ≤ i) :
    Space.read (m.filter fun c => decide (n ≤ c.1)) i = Space.read m i := by
  induction m with
  | nil => rfl
  | cons d m ih =>
    obtain ⟨j, w⟩ := d
    by_cases hj : n ≤ j
    · simp [hj, Space.read_cons, ih]
    · have : i ≠ j := by omega
      simp [hj, Space.read_cons, ih, this]

/-- A store gives the stored elements and leaves every element beyond them alone. -/
theorem Space.read_store (m : Space α) (xs : List α) (i : Nat) :
    Space.read (Space.store m xs) i = if i < xs.length then xs[i]? else Space.read m i := by
  unfold Space.store
  rw [Space.read_listed]
  by_cases h : i < xs.length
  · simp [h]
  · simp [h, Space.read_filter m xs.length i (by omega)]

theorem Space.mem_store {m : Space α} {xs : List α} {c : Nat × α} (h : c ∈ Space.store m xs) :
    c.1 < xs.length ∨ c ∈ m := by
  rcases List.mem_append.1 h with h | h
  · left; have := Space.mem_listed h; omega
  · right; exact List.mem_of_mem_filter h

/-- A store keeps the canonical form. -/
theorem Space.wf_store {m : Space α} (h : Space.wf m) (xs : List α) : Space.wf (Space.store m xs) := by
  unfold Space.store Space.wf
  rw [List.map_append, List.pairwise_append]
  refine ⟨Space.wf_listed 0 xs, ?_, ?_⟩
  · exact List.Pairwise.sublist (List.Sublist.map _ List.filter_sublist) h
  · intro a ha b hb
    obtain ⟨c, hc, rfl⟩ := List.mem_map.1 ha
    obtain ⟨d, hd, rfl⟩ := List.mem_map.1 hb
    have h1 := Space.mem_listed hc
    have h2 := List.of_mem_filter hd
    simp only [decide_eq_true_eq] at h2
    omega

/-- Reset memory has the canonical form. -/
theorem Space.wf_nil : Space.wf ([] : Space α) := List.Pairwise.nil

end

/-- The byte memories of the reset state have the canonical form. -/
theorem Memory.wf_reset : Memory.wf State.reset.inMem ∧ Memory.wf State.reset.outMem := ⟨Space.wf_nil, Space.wf_nil⟩

end Sys2Proof.Machine
end

