-- ==== Sys2Proof/Laws/Status.lean ====
section
/-! SUPPORT. The fields of the status word that `Status.make` builds, and the phases of the states the operations leave. -/

namespace Sys2Proof.Machine

theorem Phase.ofCode_code (p : Phase) : Phase.ofCode p.code = p := by cases p <;> rfl

@[simp] theorem Status.phase_make (p : Phase) (f t c cp o s : Bool) : Status.phase (Status.make p f t c cp o s) = p := by
  cases p <;> revert f t c cp o s <;> decide

@[simp] theorem Status.freqV_make (p : Phase) (f t c cp o s : Bool) : Status.freqV (Status.make p f t c cp o s) = f := by
  cases p <;> revert f t c cp o s <;> decide

@[simp] theorem Status.treeV_make (p : Phase) (f t c cp o s : Bool) : Status.treeV (Status.make p f t c cp o s) = t := by
  cases p <;> revert f t c cp o s <;> decide

@[simp] theorem Status.codeV_make (p : Phase) (f t c cp o s : Bool) : Status.codeV (Status.make p f t c cp o s) = c := by
  cases p <;> revert f t c cp o s <;> decide

@[simp] theorem Status.cpV_make (p : Phase) (f t c cp o s : Bool) : Status.cpV (Status.make p f t c cp o s) = cp := by
  cases p <;> revert f t c cp o s <;> decide

@[simp] theorem Status.outV_make (p : Phase) (f t c cp o s : Bool) : Status.outV (Status.make p f t c cp o s) = o := by
  cases p <;> revert f t c cp o s <;> decide

@[simp] theorem Status.sent_make (p : Phase) (f t c cp o s : Bool) : Status.sent (Status.make p f t c cp o s) = s := by
  cases p <;> revert f t c cp o s <;> decide

theorem Status.make_fields (w : Byte) :
    Status.make (Status.phase w) (Status.freqV w) (Status.treeV w) (Status.codeV w) (Status.cpV w) (Status.outV w)
      (Status.sent w) = w := by
  revert w; decide

@[simp] theorem Status.phase_withPhase (w : Byte) (p : Phase) : Status.phase (Status.withPhase w p) = p := by
  simp [Status.withPhase]

@[simp] theorem Status.freqV_withPhase (w : Byte) (p : Phase) :
    Status.freqV (Status.withPhase w p) = Status.freqV w := by simp [Status.withPhase]

@[simp] theorem Status.treeV_withPhase (w : Byte) (p : Phase) :
    Status.treeV (Status.withPhase w p) = Status.treeV w := by simp [Status.withPhase]

@[simp] theorem Status.codeV_withPhase (w : Byte) (p : Phase) :
    Status.codeV (Status.withPhase w p) = Status.codeV w := by simp [Status.withPhase]

@[simp] theorem Status.cpV_withPhase (w : Byte) (p : Phase) :
    Status.cpV (Status.withPhase w p) = Status.cpV w := by simp [Status.withPhase]

@[simp] theorem Status.outV_withPhase (w : Byte) (p : Phase) :
    Status.outV (Status.withPhase w p) = Status.outV w := by simp [Status.withPhase]

@[simp] theorem Status.sent_withPhase (w : Byte) (p : Phase) :
    Status.sent (Status.withPhase w p) = Status.sent w := by simp [Status.withPhase]

/-- Two status words with the same fields are the same word. -/
theorem Status.ext_fields {w v : Byte} (hp : Status.phase w = Status.phase v) (hf : Status.freqV w = Status.freqV v)
    (ht : Status.treeV w = Status.treeV v) (hc : Status.codeV w = Status.codeV v) (hcp : Status.cpV w = Status.cpV v)
    (ho : Status.outV w = Status.outV v) (hs : Status.sent w = Status.sent v) : w = v := by
  rw [← Status.make_fields w, ← Status.make_fields v, hp, hf, ht, hc, hcp, ho, hs]

theorem FaultKind.code_bounds (k : FaultKind) : 1 ≤ k.code.toNat ∧ k.code.toNat ≤ 7 := by
  cases k <;> decide

end Sys2Proof.Machine
end

