-- ==== Sys2Proof/Laws/Descriptor.lean ====
section
/-! SUPPORT. CodePoints and the descriptor: the bits of a list, what the parser can do, and what the reconstruction can do. -/

namespace Sys2Proof.Machine

/-! ## CodePoints -/

theorem codePointsAt_length (t : PrefixNode) (d : Nat) : (codePointsAt t d).length = t.leafCount := by
  induction t generalizing d with
  | leaf => rfl
  | internal l r ihl ihr => simp [codePointsAt, PrefixNode.leafCount, ihl, ihr]

theorem codePointsAt_syms (t : PrefixNode) (d : Nat) : (codePointsAt t d).map CodePoint.sym = t.symbols := by
  induction t generalizing d with
  | leaf => rfl
  | internal l r ihl ihr => simp [codePointsAt, PrefixNode.symbols, ihl, ihr]

theorem codePointsAt_bounds {t : PrefixNode} {d : Nat} (h : d + t.height ≤ 255) {c : CodePoint}
    (hc : c ∈ codePointsAt t d) :
    d ≤ c.len.toNat ∧ c.len.toNat ≤ d + t.height ∧ (t.isInternal = true → d < c.len.toNat) := by
  induction t generalizing d with
  | leaf s w =>
    simp only [codePointsAt, List.mem_singleton] at hc
    subst hc
    simp only [PrefixNode.height] at h
    have e : (BitVec.ofNat 8 d).toNat = d := by rw [BitVec.toNat_ofNat]; omega
    simp only [e, PrefixNode.height, PrefixNode.isInternal]
    exact ⟨Nat.le_refl _, Nat.le_refl _, fun h => by cases h⟩
  | internal l r ihl ihr =>
    simp only [PrefixNode.height] at h ⊢
    rcases List.mem_append.1 hc with hc | hc
    · have := ihl (d := d + 1) (by omega) hc; omega
    · have := ihr (d := d + 1) (by omega) hc; omega

/-- The CodePoints of a tree with an internal root, as the parser wants them. -/
theorem codePoints_len_ne_zero {t : PrefixNode} (hi : t.isInternal = true) (hh : t.height ≤ 255) :
    ∀ c ∈ codePoints t, c.len ≠ 0 := by
  intro c hc e
  have := (codePointsAt_bounds (by omega) hc).2.2 hi
  simp [e] at this

/-! ## The reconstruction -/

/-- A tree with every weight 0, as the reconstruction makes it (rule R31). -/
def PrefixNode.unweighted : PrefixNode → PrefixNode
  | .leaf s _ => .leaf s 0
  | .internal l r => .internal l.unweighted r.unweighted

theorem PrefixNode.same_unweighted (t : PrefixNode) : t.same t.unweighted = true := by
  induction t with
  | leaf => simp [PrefixNode.unweighted, PrefixNode.same]
  | internal l r ihl ihr => simp [PrefixNode.unweighted, PrefixNode.same, ihl, ihr]

theorem PrefixNode.unweighted_symbols (t : PrefixNode) : t.unweighted.symbols = t.symbols := by
  induction t with
  | leaf => rfl
  | internal l r ihl ihr => simp [PrefixNode.unweighted, PrefixNode.symbols, ihl, ihr]

theorem PrefixNode.unweighted_height (t : PrefixNode) : t.unweighted.height = t.height := by
  induction t with
  | leaf => rfl
  | internal l r ihl ihr => simp [PrefixNode.unweighted, PrefixNode.height, ihl, ihr]

theorem PrefixNode.unweighted_isInternal (t : PrefixNode) : t.unweighted.isInternal = t.isInternal := by
  cases t <;> rfl

theorem PrefixNode.walkLookup_unweighted (t : PrefixNode) (x : Byte) : walkLookup t.unweighted x = walkLookup t x := by
  induction t with
  | leaf => rfl
  | internal l r ihl ihr => simp [PrefixNode.unweighted, walkLookup, ihl, ihr]

/-- The reconstruction reads back the CodePoints of a tree, whatever follows them. -/
theorem rebuildNode_codePoints (n : Nat) (t : PrefixNode) (d : Nat) (rest : List CodePoint)
    (hh : d + t.height ≤ 255) (hn : 257 ≤ n + d) :
    rebuildNode n d (codePointsAt t d ++ rest) = .ok (t.unweighted, rest) := by
  induction t generalizing n d rest with
  | leaf s w =>
    obtain ⟨n, rfl⟩ : ∃ m, n = m + 1 := ⟨n - 1, by simp only [PrefixNode.height] at hh; omega⟩
    simp only [PrefixNode.height] at hh
    have e : (BitVec.ofNat 8 d).toNat = d := by rw [BitVec.toNat_ofNat]; omega
    simp only [codePointsAt, List.cons_append, List.nil_append, rebuildNode, e, if_true, PrefixNode.unweighted]
  | internal l r ihl ihr =>
    simp only [PrefixNode.height] at hh
    obtain ⟨n, rfl⟩ : ∃ m, n = m + 1 := ⟨n - 1, by omega⟩
    have hl := ihl n (d + 1) (codePointsAt r (d + 1) ++ rest) (by omega) (by omega)
    have hr := ihr n (d + 1) rest (by omega) (by omega)
    have hne : codePointsAt l (d + 1) ≠ [] := by
      intro e
      have h1 := codePointsAt_length l (d + 1)
      have h2 := l.leafCount_pos
      rw [e, List.length_nil] at h1
      omega
    obtain ⟨c, cs, hcs⟩ := List.exists_cons_of_ne_nil hne
    have hc := (codePointsAt_bounds (t := l) (d := d + 1) (by omega) (c := c) (by simp [hcs])).1
    have h1 : ¬ c.len.toNat = d := by omega
    have h2 : ¬ c.len.toNat < d := by omega
    rw [hcs, List.cons_append] at hl
    rw [codePointsAt, List.append_assoc, hcs, List.cons_append]
    simp only [rebuildNode, if_neg h1, if_neg h2, hl, hr, bind, Except.bind, PrefixNode.unweighted]
    rfl

/-- What the reconstruction can do: it consumes the CodePoints of the tree it gives, or it faults. -/
theorem rebuildNode_cases (n d : Nat) (cps : List CodePoint) :
    (∃ t rest, rebuildNode n d cps = .ok (t, rest) ∧ cps = codePointsAt t d ++ rest ∧ t.unweighted = t ∧
      d + t.height ≤ 255) ∨
      ∃ k, (k = 2 ∨ k = 3) ∧ rebuildNode n d cps = .error ⟨.corruptStream, k⟩ := by
  induction n generalizing d cps with
  | zero => exact .inr ⟨3, .inr rfl, rfl⟩
  | succ n ih =>
    match cps with
    | [] => exact .inr ⟨2, .inl rfl, rfl⟩
    | c :: rest =>
      by_cases h1 : c.len.toNat = d
      · refine .inl ⟨.leaf c.sym 0, rest, by simp [rebuildNode, h1], ?_, rfl, ?_⟩
        · simp [codePointsAt, ← h1]
        · have := c.len.isLt; simp only [PrefixNode.height]; omega
      · by_cases h2 : c.len.toNat < d
        · exact .inr ⟨3, .inr rfl, by simp [rebuildNode, h1, h2, raise]⟩
        · rcases ih (d + 1) (c :: rest) with ⟨l, r₁, e1, c1, w1, b1⟩ | ⟨k, hk, e1⟩
          · rcases ih (d + 1) r₁ with ⟨r, r₂, e2, c2, w2, b2⟩ | ⟨k, hk, e2⟩
            · refine .inl ⟨.internal l r, r₂, ?_, ?_, by rw [PrefixNode.unweighted, w1, w2], ?_⟩
              · simp only [rebuildNode, if_neg h1, if_neg h2, e1, e2, bind, Except.bind]
                rfl
              · rw [c1, c2, codePointsAt, List.append_assoc]
              · simp only [PrefixNode.height]; omega
            · exact .inr ⟨k, hk, by simp only [rebuildNode, if_neg h1, if_neg h2, e1, e2, bind, Except.bind]⟩
          · exact .inr ⟨k, hk, by simp only [rebuildNode, if_neg h1, if_neg h2, e1, bind, Except.bind]⟩

/-- What `Rebuild` can do. -/
theorem rebuild_cases (cps : List CodePoint) :
    (∃ t, rebuild cps = .ok t ∧ codePointsAt t 0 = cps ∧ t.unweighted = t ∧ t.height ≤ 255) ∨
      ∃ k, (k = 2 ∨ k = 3 ∨ k = 4) ∧ rebuild cps = .error ⟨.corruptStream, k⟩ := by
  rcases rebuildNode_cases 257 0 cps with ⟨t, rest, e, c, w, b⟩ | ⟨k, hk, e⟩
  · cases rest with
    | nil =>
      refine .inl ⟨t, ?_, by simpa using c.symm, w, by omega⟩
      simp only [rebuild, e, bind, Except.bind]; rfl
    | cons x xs =>
      refine .inr ⟨4, .inr (.inr rfl), ?_⟩
      simp only [rebuild, e, bind, Except.bind]; rfl
  · refine .inr ⟨k, by tauto, ?_⟩
    simp only [rebuild, e, bind, Except.bind]

/-! ## The descriptor -/

/-- The bits of the entries of a descriptor. -/
def entryBits (cps : List CodePoint) : BitSeq := cps.flatMap fun c => bits8 c.len ++ bits8 c.sym

theorem entryBits_cons (c : CodePoint) (cps : List CodePoint) :
    entryBits (c :: cps) = bits8 c.len ++ (bits8 c.sym ++ entryBits cps) := by
  simp [entryBits, List.flatMap_cons]

theorem length_entryBits (cps : List CodePoint) : (entryBits cps).length = 16 * cps.length := by
  induction cps with
  | nil => rfl
  | cons c cps ih => simp only [entryBits_cons, List.length_append, length_bits8, ih, List.length_cons]; omega

theorem descriptorBits_eq (cps : List CodePoint) : descriptorBits cps = entryBits cps ++ bits8 0 := by
  have h : ∀ bits, appendEntries bits cps = bits ++ entryBits cps := by
    induction cps with
    | nil => intro bits; simp [appendEntries, entryBits]
    | cons c cps ih => intro bits; simp [appendEntries, ih, appendField8, entryBits_cons]
  simp [descriptorBits, h, appendField8]

theorem length_descriptorBits (cps : List CodePoint) : (descriptorBits cps).length = 16 * cps.length + 8 := by
  rw [descriptorBits_eq, List.length_append, length_entryBits, length_bits8]

/-- What one turn of the parser can do. -/
theorem readEntry_cases (r : Reader) :
    readEntry r = .error ⟨.corruptStream, 1⟩ ∨
      (∃ rest, r.rest = bits8 0 ++ rest ∧ readEntry r = .ok (none, ⟨rest, r.cur + 8⟩)) ∨
      ∃ c rest, c.len ≠ 0 ∧ r.rest = bits8 c.len ++ (bits8 c.sym ++ rest) ∧
        readEntry r = .ok (some c, ⟨rest, r.cur + 16⟩) := by
  rcases readField8_cases r with ⟨_, e⟩ | ⟨v, rest, hr, e⟩
  · left; simp only [readEntry, e, bind, Except.bind]
  · by_cases hv : v = 0
    · right; left
      subst hv
      exact ⟨rest, hr, by simp only [readEntry, e, bind, Except.bind, if_true]; rfl⟩
    · rcases readField8_cases ⟨rest, r.cur + 8⟩ with ⟨_, e2⟩ | ⟨y, rest', hr', e2⟩
      · left; simp only [readEntry, e, e2, bind, Except.bind, if_neg hv]
      · right; right
        simp only at hr'
        refine ⟨⟨v, y⟩, rest', hv, by rw [hr, hr'], ?_⟩
        simp only [readEntry, e, e2, bind, Except.bind, if_neg hv]
        rfl

theorem readEntry_terminator (rest : BitSeq) (cur : Nat) :
    readEntry ⟨bits8 0 ++ rest, cur⟩ = .ok (none, ⟨rest, cur + 8⟩) := by
  simp only [readEntry, readField8_bits8, bind, Except.bind, if_true]; rfl

theorem readEntry_entry {c : CodePoint} (h : c.len ≠ 0) (rest : BitSeq) (cur : Nat) :
    readEntry ⟨bits8 c.len ++ (bits8 c.sym ++ rest), cur⟩ = .ok (some c, ⟨rest, cur + 16⟩) := by
  simp only [readEntry, readField8_bits8, bind, Except.bind, if_neg h]; rfl

/-- What the parser can do: it reads entries up to a terminator, or it faults. -/
theorem parseEntries_cases (room : Nat) (r : Reader) :
    (∃ cps rest, parseEntries room r = .ok (cps, ⟨rest, r.cur + (16 * cps.length + 8)⟩) ∧
      r.rest = descriptorBits cps ++ rest ∧ cps.length ≤ room ∧ ∀ c ∈ cps, c.len ≠ 0) ∨
      ∃ k, (k = 1 ∨ k = 6) ∧ parseEntries room r = .error ⟨.corruptStream, k⟩ := by
  induction room generalizing r with
  | zero =>
    rcases readEntry_cases r with e | ⟨rest, hr, e⟩ | ⟨c, rest, hc, hr, e⟩
    · exact .inr ⟨1, .inl rfl, by simp only [parseEntries, e, bind, Except.bind]⟩
    · refine .inl ⟨[], rest, ?_, by simpa [descriptorBits_eq, entryBits] using hr, by simp, by simp⟩
      simp only [parseEntries, e, bind, Except.bind]; rfl
    · exact .inr ⟨6, .inr rfl, by simp only [parseEntries, e, bind, Except.bind]; rfl⟩
  | succ room ih =>
    rcases readEntry_cases r with e | ⟨rest, hr, e⟩ | ⟨c, rest, hc, hr, e⟩
    · exact .inr ⟨1, .inl rfl, by simp only [parseEntries, e, bind, Except.bind]⟩
    · refine .inl ⟨[], rest, ?_, by simpa [descriptorBits_eq, entryBits] using hr, by simp, by simp⟩
      simp only [parseEntries, e, bind, Except.bind]; rfl
    · rcases ih ⟨rest, r.cur + 16⟩ with ⟨cps, rest', e2, hr2, hl, hz⟩ | ⟨k, hk, e2⟩
      · refine .inl ⟨c :: cps, rest', ?_, ?_, by simpa using hl, by simpa using ⟨hc, hz⟩⟩
        · simp only [parseEntries, e, e2, bind, Except.bind]
          simp only [pure, Except.pure, List.length_cons]
          congr 3; omega
        · simp only at hr2
          rw [hr, hr2, descriptorBits_eq, descriptorBits_eq, entryBits_cons]
          simp only [List.append_assoc]
      · exact .inr ⟨k, hk, by simp only [parseEntries, e, e2, bind, Except.bind]⟩

theorem parseEntries_descriptor (room : Nat) (cps : List CodePoint) (rest : BitSeq) (cur : Nat)
    (hz : ∀ c ∈ cps, c.len ≠ 0) (hl : cps.length ≤ room) :
    parseEntries room ⟨descriptorBits cps ++ rest, cur⟩ = .ok (cps, ⟨rest, cur + (16 * cps.length + 8)⟩) := by
  induction cps generalizing room cur with
  | nil =>
    have : descriptorBits [] ++ rest = bits8 0 ++ rest := by simp [descriptorBits_eq, entryBits]
    rw [this]
    cases room <;> simp only [parseEntries, readEntry_terminator, bind, Except.bind] <;> rfl
  | cons c cps ih =>
    have hc : c.len ≠ 0 := hz c (by simp)
    obtain ⟨room, rfl⟩ : ∃ m, room = m + 1 := ⟨room - 1, by simp only [List.length_cons] at hl; omega⟩
    have : descriptorBits (c :: cps) ++ rest =
        bits8 c.len ++ (bits8 c.sym ++ (descriptorBits cps ++ rest)) := by
      simp only [descriptorBits_eq, entryBits_cons, List.append_assoc]
    rw [this]
    simp only [parseEntries, readEntry_entry hc, bind, Except.bind,
      ih room (cur + 16) (fun x hx => hz x (List.mem_cons_of_mem _ hx)) (by simpa using hl)]
    simp only [pure, Except.pure, List.length_cons]
    congr 3; omega

end Sys2Proof.Machine
end

