-- ==== Sys2Proof/Laws/Stream.lean ====
section
/-! SUPPORT. Streams: the payload of a symbol sequence, what `Serialize` can do, what the decoding loop does on a payload and
on any bits, and what `Deserialize` can do. -/

namespace Sys2Proof.Machine

/-! ## The payload -/

/-- The code of a symbol, empty when it has no leaf. -/
def codeOf (t : PrefixNode) (x : Byte) : BitSeq := (walkLookup t x).getD []

theorem walkLookup_codeOf {t : PrefixNode} {x : Byte} (h : x ∈ t.symbols) : walkLookup t x = some (codeOf t x) := by
  obtain ⟨p, hp⟩ := Option.isSome_iff_exists.1 ((walkLookup_isSome t x).2 h)
  simp [codeOf, hp]

theorem length_codeOf_le (t : PrefixNode) (x : Byte) : (codeOf t x).length ≤ t.height := by
  unfold codeOf
  cases h : walkLookup t x with
  | none => simp
  | some p => exact (walkLookup_length h).1

theorem length_codeOf_pos {t : PrefixNode} (hi : t.isInternal = true) {x : Byte} (h : x ∈ t.symbols) :
    1 ≤ (codeOf t x).length := (walkLookup_length (walkLookup_codeOf h)).2 hi

/-- The payload of symbols that all have a leaf. -/
def payloadOf (t : PrefixNode) (xs : List Byte) : BitSeq := xs.flatMap (codeOf t)

theorem payloadOf_cons (t : PrefixNode) (x : Byte) (xs : List Byte) :
    payloadOf t (x :: xs) = codeOf t x ++ payloadOf t xs := by simp [payloadOf, List.flatMap_cons]

theorem length_payloadOf_le (t : PrefixNode) (xs : List Byte) : (payloadOf t xs).length ≤ t.height * xs.length := by
  induction xs with
  | nil => simp [payloadOf]
  | cons x xs ih =>
    have := length_codeOf_le t x
    rw [payloadOf_cons, List.length_append, List.length_cons, Nat.mul_succ]; omega

theorem length_le_payloadOf {t : PrefixNode} (hi : t.isInternal = true) {xs : List Byte} (h : ∀ x ∈ xs, x ∈ t.symbols) :
    xs.length ≤ (payloadOf t xs).length := by
  induction xs with
  | nil => simp
  | cons x xs ih =>
    have h1 := length_codeOf_pos hi (h x (by simp))
    have h2 := ih fun y hy => h y (List.mem_cons_of_mem _ hy)
    rw [payloadOf_cons, List.length_append, List.length_cons]; omega

theorem payloadBits_ok {t : PrefixNode} {xs : List Byte} (h : ∀ x ∈ xs, x ∈ t.symbols) :
    payloadBits t xs = .ok (payloadOf t xs) := by
  unfold payloadBits
  induction xs with
  | nil => rfl
  | cons x xs ih =>
    have hx := walkLookup_codeOf (h x (by simp))
    simp only [payloadFrom, codesOf_lookup, hx, ih fun y hy => h y (List.mem_cons_of_mem _ hy), bind, Except.bind,
      payloadOf_cons]
    rfl

theorem payloadBits_missing {t : PrefixNode} {before after : List Byte} {x : Byte} (h : ∀ y ∈ before, y ∈ t.symbols)
    (hx : x ∉ t.symbols) :
    payloadBits t (before ++ x :: after) = .error ⟨.symbolNotInTree, x.setWidth 64⟩ := by
  unfold payloadBits
  induction before with
  | nil =>
    have : walkLookup t x = none := by
      cases e : walkLookup t x with
      | none => rfl
      | some p => exact absurd ((walkLookup_isSome t x).1 (by simp [e])) hx
    simp only [List.nil_append, payloadFrom, codesOf_lookup, this]
    rfl
  | cons y ys ih =>
    have hy := walkLookup_codeOf (h y (by simp))
    simp only [List.cons_append, payloadFrom, codesOf_lookup, hy, ih fun z hz => h z (List.mem_cons_of_mem _ hz), bind,
      Except.bind]

/-- What `PayloadBits` can do. -/
theorem payloadBits_cases (t : PrefixNode) (xs : List Byte) :
    ((∀ x ∈ xs, x ∈ t.symbols) ∧ payloadBits t xs = .ok (payloadOf t xs)) ∨
      ∃ before x after, xs = before ++ x :: after ∧ (∀ y ∈ before, y ∈ t.symbols) ∧ x ∉ t.symbols ∧
        payloadBits t xs = .error ⟨.symbolNotInTree, x.setWidth 64⟩ := by
  by_cases h : ∀ x ∈ xs, x ∈ t.symbols
  · exact .inl ⟨h, payloadBits_ok h⟩
  · right
    have H : ∃ before x after, xs = before ++ x :: after ∧ (∀ y ∈ before, y ∈ t.symbols) ∧ x ∉ t.symbols := by
      induction xs with
      | nil => simp at h
      | cons y ys ih =>
        by_cases hy : y ∈ t.symbols
        · have : ¬ ∀ x ∈ ys, x ∈ t.symbols := fun hs => h (by simpa using ⟨hy, hs⟩)
          obtain ⟨b, x, a, rfl, hb, hx⟩ := ih this
          exact ⟨y :: b, x, a, rfl, by simpa using ⟨hy, hb⟩, hx⟩
        · exact ⟨[], y, ys, rfl, by simp, hy⟩
    obtain ⟨b, x, a, rfl, hb, hx⟩ := H
    exact ⟨b, x, a, rfl, hb, hx, payloadBits_missing hb hx⟩

/-- The bits of a stream before padding. -/
def streamBits (t : PrefixNode) (xs : List Byte) : BitSeq := descriptorBits (codePoints t) ++ payloadOf t xs

theorem serialize_ok {t : PrefixNode} {xs : List Byte} (h : ∀ x ∈ xs, x ∈ t.symbols) :
    serialize t xs = .ok (pack (streamBits t xs), (streamBits t xs).length) := by
  simp only [serialize, payloadBits_ok h, bind, Except.bind]; rfl

/-- What `Serialize` can do. -/
theorem serialize_cases (t : PrefixNode) (xs : List Byte) :
    ((∀ x ∈ xs, x ∈ t.symbols) ∧ serialize t xs = .ok (pack (streamBits t xs), (streamBits t xs).length)) ∨
      ∃ before x after, xs = before ++ x :: after ∧ (∀ y ∈ before, y ∈ t.symbols) ∧ x ∉ t.symbols ∧
        serialize t xs = .error ⟨.symbolNotInTree, x.setWidth 64⟩ := by
  rcases payloadBits_cases t xs with ⟨h, _⟩ | ⟨b, x, a, hxs, hb, hx, e⟩
  · exact .inl ⟨h, serialize_ok h⟩
  · exact .inr ⟨b, x, a, hxs, hb, hx, by simp only [serialize, e, bind, Except.bind]⟩

theorem length_streamBits_le (t : PrefixNode) (xs : List Byte) (h : t.leafCount ≤ 256) :
    (streamBits t xs).length ≤ 16 * t.leafCount + 8 + 255 * xs.length := by
  have h1 := length_payloadOf_le t xs
  have h2 := t.height_lt_leafCount
  have h3 : t.height * xs.length ≤ 255 * xs.length := Nat.mul_le_mul_right _ (by omega)
  rw [streamBits, List.length_append, length_descriptorBits, codePoints, codePointsAt_length]
  omega

/-! ## The decoding loop -/

/-- With enough turns, the number of turns does not matter. -/
theorem decodeLoop_turns {t : PrefixNode} (hi : t.isInternal = true) (n m : Nat) (r : Reader) (hn : r.rest.length ≤ n)
    (hm : r.rest.length ≤ m) : decodeLoop t n r = decodeLoop t m r := by
  induction n generalizing m r with
  | zero =>
    have : r.rest.length < 2 := by omega
    cases m <;> simp [decodeLoop, this]
  | succ n ih =>
    cases m with
    | zero =>
      have : r.rest.length < 2 := by omega
      simp [decodeLoop, this]
    | succ m =>
      unfold decodeLoop
      split
      · rfl
      · rcases walk_cases t r with ⟨p, rest, x, hr, _, hp, _, hw⟩ | ⟨_, e⟩
        · have hp := hp hi
          have e := hw rest r.cur
          rw [← hr] at e
          have hl := congrArg List.length hr
          rw [List.length_append] at hl
          have := ih m ⟨rest, r.cur + p.length⟩ (by simp only; omega) (by simp only; omega)
          simp only [e, bind, Except.bind, this]
        · simp only [e, bind, Except.bind]

/-- Putting symbols in front of what a decoding gives. -/
def prepend (xs : List Byte) : Result (List Byte × Reader × Bool) → Result (List Byte × Reader × Bool)
  | .ok (out, r, sent) => .ok (xs ++ out, r, sent)
  | .error e => .error e

/-- One symbol that is not the sentinel is decoded and the loop goes on. -/
theorem decodeLoop_symbol {t : PrefixNode} (hi : t.isInternal = true) {x : Byte} (hx : x ∈ t.symbols) (h0 : x ≠ 0)
    {rest : BitSeq} (hrest : rest ≠ []) (n cur : Nat) :
    decodeLoop t (n + 1) ⟨codeOf t x ++ rest, cur⟩ =
      prepend [x] (decodeLoop t n ⟨rest, cur + (codeOf t x).length⟩) := by
  have h1 := length_codeOf_pos hi hx
  have h2 := List.length_pos_of_ne_nil hrest
  have h3 : ¬ (codeOf t x ++ rest).length < 2 := by rw [List.length_append]; omega
  rw [decodeLoop, if_neg h3, walk_code (walkLookup_codeOf hx)]
  simp only [bind, Except.bind]
  rw [if_neg (show ¬ x = Config.sentinel from h0)]
  cases decodeLoop t n ⟨rest, cur + (codeOf t x).length⟩ <;> rfl

/-- The sentinel ends the loop. -/
theorem decodeLoop_sentinel {t : PrefixNode} (hi : t.isInternal = true) (hx : (0 : Byte) ∈ t.symbols)
    {rest : BitSeq} (hrest : rest ≠ []) (n cur : Nat) :
    decodeLoop t (n + 1) ⟨codeOf t 0 ++ rest, cur⟩ = .ok ([], ⟨rest, cur + (codeOf t 0).length⟩, true) := by
  have h1 := length_codeOf_pos hi hx
  have h2 := List.length_pos_of_ne_nil hrest
  have h3 : ¬ (codeOf t 0 ++ rest).length < 2 := by rw [List.length_append]; omega
  rw [decodeLoop, if_neg h3, walk_code (walkLookup_codeOf hx)]
  simp only [bind, Except.bind, Config.sentinel]
  rfl

/-- Symbols other than the sentinel are decoded one by one. -/
theorem decodeLoop_payload {t : PrefixNode} (hi : t.isInternal = true) (xs : List Byte) (hx : ∀ x ∈ xs, x ∈ t.symbols)
    (h0 : (0 : Byte) ∉ xs) {rest : BitSeq} (hrest : rest ≠ []) (n cur : Nat) :
    decodeLoop t (xs.length + n) ⟨payloadOf t xs ++ rest, cur⟩ =
      prepend xs (decodeLoop t n ⟨rest, cur + (payloadOf t xs).length⟩) := by
  induction xs generalizing cur with
  | nil =>
    simp only [payloadOf, List.flatMap_nil, List.nil_append, List.length_nil, Nat.zero_add, Nat.add_zero]
    cases decodeLoop t n ⟨rest, cur⟩ <;> rfl
  | cons x xs ih =>
    have hx0 : x ≠ 0 := fun e => h0 (by simp [e])
    have hrest' : payloadOf t xs ++ rest ≠ [] := by simp [hrest]
    rw [payloadOf_cons, List.append_assoc, List.length_cons, Nat.add_right_comm,
      decodeLoop_symbol hi (hx x (by simp)) hx0 hrest',
      ih (fun y hy => hx y (List.mem_cons_of_mem _ hy)) (fun h => h0 (List.mem_cons_of_mem _ h)), List.length_append,
      Nat.add_assoc]
    cases decodeLoop t n ⟨rest, cur + ((codeOf t x).length + (payloadOf t xs).length)⟩ <;> rfl

/-- What the loop can do on any bits: it stops behind some of them with no zero symbol collected, and a stop on the sentinel
depends on no later bit; or it faults. -/
theorem decodeLoop_cases {t : PrefixNode} (hi : t.isInternal = true) (n : Nat) (r : Reader) :
    (∃ p rest out sent, r.rest = p ++ rest ∧ decodeLoop t n r = .ok (out, ⟨rest, r.cur + p.length⟩, sent) ∧
      (0 : Byte) ∉ out ∧ out.length ≤ p.length ∧
      (sent = true → ∀ (rest' : BitSeq) (m cur' : Nat), rest' ≠ [] → p.length ≤ m →
        decodeLoop t m ⟨p ++ rest', cur'⟩ = .ok (out, ⟨rest', cur' + p.length⟩, true))) ∨
      decodeLoop t n r = .error ⟨.corruptStream, 5⟩ := by
  induction n generalizing r with
  | zero => exact .inl ⟨[], r.rest, [], false, rfl, rfl, by simp, by simp, by simp⟩
  | succ n ih =>
    by_cases h2 : r.rest.length < 2
    · exact .inl ⟨[], r.rest, [], false, rfl, by simp [decodeLoop, h2], by simp, by simp, by simp⟩
    · rcases walk_cases t r with ⟨p, rest, x, hr, _, hp, _, hw⟩ | ⟨_, e⟩
      · have hp := hp hi
        have e := hw rest r.cur
        rw [← hr] at e
        by_cases hx : x = 0
        · subst hx
          refine .inl ⟨p, rest, [], true, hr, ?_, by simp, by simp, fun _ rest' m cur' hrest hm => ?_⟩
          · simp only [decodeLoop, if_neg h2, e, bind, Except.bind, Config.sentinel]; rfl
          · obtain ⟨m, rfl⟩ : ∃ k, m = k + 1 := ⟨m - 1, by omega⟩
            have h3 := List.length_pos_of_ne_nil hrest
            have h4 : ¬ (p ++ rest').length < 2 := by rw [List.length_append]; omega
            simp only [decodeLoop, if_neg h4, hw, bind, Except.bind, Config.sentinel]; rfl
        · rcases ih ⟨rest, r.cur + p.length⟩ with ⟨q, rest₂, out, sent, hr2, e2, h0, hl, hs⟩ | e2
          · simp only at hr2 e2
            refine .inl ⟨p ++ q, rest₂, x :: out, sent, by rw [hr, hr2, List.append_assoc], ?_, ?_, ?_, ?_⟩
            · simp only [decodeLoop, if_neg h2, e, e2, bind, Except.bind, Config.sentinel, if_neg hx]
              simp only [pure, Except.pure, List.length_append, Nat.add_assoc]
            · simpa using ⟨fun h => hx h.symm, h0⟩
            · simp only [List.length_cons, List.length_append]; omega
            · intro hsent rest' m cur' hrest hm
              rw [List.length_append] at hm
              obtain ⟨m, rfl⟩ : ∃ k, m = k + 1 := ⟨m - 1, by omega⟩
              have h3 := List.length_pos_of_ne_nil hrest
              have h4 : ¬ (p ++ (q ++ rest')).length < 2 := by simp only [List.length_append]; omega
              rw [List.append_assoc]
              simp only [decodeLoop, if_neg h4, hw, bind, Except.bind, Config.sentinel, if_neg hx,
                hs hsent rest' m (cur' + p.length) hrest (by omega)]
              simp only [pure, Except.pure, List.length_append, Nat.add_assoc]
          · exact .inr (by
              simp only [decodeLoop, if_neg h2, e, e2, bind, Except.bind, Config.sentinel, if_neg hx])
      · exact .inr (by simp only [decodeLoop, if_neg h2, e, bind, Except.bind])

/-! ## The whole stream -/

theorem expand_pack (bits : BitSeq) :
    (pack bits).length = (bits.length + paddingBits bits.length) / 8 ∧
      expand (pack bits) = bits ++ (List.replicate (paddingBits bits.length) false ++ [false]) := by
  have h8 : 8 * ((bits.length + paddingBits bits.length) / 8) = bits.length + paddingBits bits.length := by
    unfold paddingBits; omega
  refine ⟨chunks_length _ _, ?_⟩
  unfold expand pack
  rw [flatMap_chunks _ _ (by simp only [List.length_append, List.length_replicate]; omega), List.append_assoc]

/-- A stream is parsed and its tree rebuilt; what is left is the decoding of the payload. -/
theorem deserialize_stream {t : PrefixNode} (hi : t.isInternal = true) (hl : t.leafCount ≤ 256) (packed : List Byte)
    (rest : BitSeq) (h : expand packed = descriptorBits (codePoints t) ++ rest) :
    deserialize packed =
      match decodeLoop t.unweighted rest.length ⟨rest, 16 * t.leafCount + 8⟩ with
      | .ok (out, r, sent) => .ok ⟨t.unweighted, out, codePoints t, r.cur, sent⟩
      | .error e => .error e := by
  have hh := t.height_lt_leafCount
  have hz := codePoints_len_ne_zero hi (by omega)
  have hlen : (codePoints t).length = t.leafCount := codePointsAt_length t 0
  have hp : parseDescriptor (expand packed) = .ok (codePoints t, ⟨rest, 16 * t.leafCount + 8⟩) := by
    have := parseEntries_descriptor 256 (codePoints t) rest 0 hz (by omega)
    rw [hlen, Nat.zero_add] at this
    rw [parseDescriptor, h]
    exact this
  have hr : rebuild (codePoints t) = .ok t.unweighted := by
    have := rebuildNode_codePoints 257 t 0 [] (by omega) (by omega)
    rw [List.append_nil] at this
    simp only [rebuild, codePoints, this, bind, Except.bind]
    rfl
  simp only [deserialize, hp, hr, bind, Except.bind, decodePayload]
  cases decodeLoop t.unweighted rest.length ⟨rest, 16 * t.leafCount + 8⟩ <;> rfl

theorem codeOf_unweighted (t : PrefixNode) (x : Byte) : codeOf t.unweighted x = codeOf t x := by
  simp [codeOf, PrefixNode.walkLookup_unweighted]

theorem payloadOf_unweighted (t : PrefixNode) (xs : List Byte) : payloadOf t.unweighted xs = payloadOf t xs := by
  unfold payloadOf
  congr 1
  funext x
  exact codeOf_unweighted t x

/-- What `Deserialize` can do: it reads a descriptor, rebuilds its tree and stops behind some bits of the payload; or it
faults. -/
theorem deserialize_cases (packed : List Byte) :
    (∃ t p rest out sent, expand packed = descriptorBits (codePoints t) ++ (p ++ rest) ∧ t.isInternal = true ∧
      t.leafCount ≤ 256 ∧ t.unweighted = t ∧ t.height ≤ 255 ∧ (0 : Byte) ∉ out ∧ out.length ≤ p.length ∧
      deserialize packed = .ok ⟨t, out, codePoints t, 16 * t.leafCount + 8 + p.length, sent⟩ ∧
      (sent = true → ∀ (packed' : List Byte) (rest' : BitSeq), rest' ≠ [] →
        expand packed' = descriptorBits (codePoints t) ++ (p ++ rest') → deserialize packed' = deserialize packed)) ∨
      ∃ k : Word, 1 ≤ k.toNat ∧ k.toNat ≤ 6 ∧ deserialize packed = .error ⟨.corruptStream, k⟩ := by
  rcases parseEntries_cases Config.cpCap (Reader.start (expand packed) 0) with ⟨cps, rest, e, hb, hl, hz⟩ | ⟨k, hk, e⟩
  · rcases rebuild_cases cps with ⟨t, e2, hc, hw, hh⟩ | ⟨k, hk, e2⟩
    · have hi : t.isInternal = true := by
        cases t with
        | leaf s w => exact absurd rfl (hz ⟨0, s⟩ (by simp [← hc, codePointsAt]))
        | internal l r => rfl
      have hlen : t.leafCount ≤ 256 := by rw [← codePointsAt_length t 0, hc]; exact hl
      have hb' : expand packed = descriptorBits (codePoints t) ++ rest := by
        rw [codePoints, hc]; simpa [Reader.start] using hb
      have hd := deserialize_stream hi hlen packed rest hb'
      rw [hw] at hd
      rcases decodeLoop_cases hi rest.length ⟨rest, 16 * t.leafCount + 8⟩ with
        ⟨p, rest₂, out, sent, hr, e3, h0, ho, hs⟩ | e3
      · simp only at hr e3
        rw [e3] at hd
        refine .inl ⟨t, p, rest₂, out, sent, by rw [hb', hr], hi, hlen, hw, hh, h0, ho, hd, ?_⟩
        intro hsent packed' rest' hrest' hb2
        have hd2 := deserialize_stream hi hlen packed' (p ++ rest') hb2
        rw [hw, hs hsent rest' _ _ hrest' (by simp)] at hd2
        rw [hd2, hd, hsent]
      · rw [e3] at hd
        exact .inr ⟨5, by decide, by decide, hd⟩
    · refine .inr ⟨k, ?_, ?_, ?_⟩
      · rcases hk with rfl | rfl | rfl <;> decide
      · rcases hk with rfl | rfl | rfl <;> decide
      · simp only [deserialize, parseDescriptor, e, e2, bind, Except.bind]
  · refine .inr ⟨k, ?_, ?_, by simp only [deserialize, parseDescriptor, e, bind, Except.bind]⟩
    · rcases hk with rfl | rfl <;> decide
    · rcases hk with rfl | rfl <;> decide

end Sys2Proof.Machine
end

