-- ==== Sys2Proof/Laws/Commands.lean ====
section
/-! SUPPORT. Commands: when one is dropped, what each does where it is accepted, and everything `exec` can answer. -/

namespace Sys2Proof.Machine

/-! ## Acceptance -/

theorem State.settle_ok (s t : State) : s.settle (.ok t) = t := rfl

theorem State.settle_error (s : State) (e : Raise) : s.settle (.error e) = s.enterFault e.kind e.info := rfl

theorem State.not_ready {s : State} : ¬ s.ready ↔ s.phase = .busy ∨ s.phase = .fault := by
  unfold State.ready; cases s.phase <;> simp

theorem runCommand_ready {s : State} (h : s.ready) (run : State → Result State) :
    runCommand run s = .next (s.settle (run s)) := by
  unfold runCommand; rcases h with h | h <;> rw [h]

theorem runCommand_dropped {s : State} (h : s.phase = .busy ∨ s.phase = .fault) (run : State → Result State) :
    runCommand run s = .next s := by
  unfold runCommand; rcases h with h | h <;> rw [h]

theorem execReset_busy {s : State} (h : s.phase = .busy) : execReset s = .next s := by unfold execReset; rw [h]

theorem execReset_taken {s : State} (h : s.phase ≠ .busy) : execReset s = .next s.toReset := by
  unfold execReset; cases hp : s.phase <;> first | rfl | exact absurd hp h

/-- The own work of a command that is not RESET. -/
def ownWork : Instr → State → Result State
  | .build => runBuild
  | .codes => runCodes
  | .cplist => runCplist
  | .serialize => runSerialize
  | .deserialize => runDeserialize
  | .encode => runEncode
  | .reset => fun s => .ok s.toReset

/-- Every command but RESET runs its own work under the one dispatch. -/
theorem exec_ownWork {i : Instr} (h : i ≠ .reset) (s : State) : exec i s = runCommand (ownWork i) s := by
  cases i <;> first | rfl | exact absurd rfl h

/-- An accepted command leaves what its own work settles to. -/
theorem exec_of_ownWork {s : State} (hr : s.ready) {i : Instr} (hi : i ≠ .reset) {r : Result State}
    (h : ownWork i s = r) : exec i s = .next (s.settle r) := by rw [exec_ownWork hi, runCommand_ready hr, h]

/-! ## The tests that come first -/

theorem needCapacity_over {s : State} (h : s.params.inCap < s.inLen.toNat) :
    needCapacity s = .error ⟨.capacity, s.inLen⟩ := by simp [needCapacity, h, raise]

theorem needCapacity_within {s : State} (h : s.inLen.toNat ≤ s.params.inCap) : needCapacity s = .ok () := by
  simp [needCapacity, Nat.not_lt.2 h]

theorem needTree_held {s : State} (hv : Status.treeV s.status = true) {t : PrefixNode} (ht : s.tree = some t)
    (i : Instr) : needTree i s = .ok t := by simp [needTree, hv, ht]

theorem needTree_missing {s : State} (hv : Status.treeV s.status = false) (i : Instr) :
    needTree i s = .error ⟨.sequence, (opcode i).setWidth 64⟩ := by simp [needTree, hv, raise]

/-- What the tree test can do. -/
theorem needTree_cases (i : Instr) (s : State) :
    (∃ t, Status.treeV s.status = true ∧ s.tree = some t ∧ needTree i s = .ok t) ∨
      needTree i s = .error ⟨.sequence, (opcode i).setWidth 64⟩ := by
  cases hv : Status.treeV s.status with
  | false => exact .inr (needTree_missing hv i)
  | true =>
    cases ht : s.tree with
    | none => right; simp [needTree, ht, raise]
    | some t => exact .inl ⟨t, rfl, rfl, needTree_held hv ht i⟩

/-! ## The own work of each command -/

/-- What BUILD's own work can do. -/
theorem runBuild_cases (s : State) :
    (s.params.inCap < s.inLen.toNat ∧ runBuild s = .error ⟨.capacity, s.inLen⟩) ∨
      s.inLen.toNat ≤ s.params.inCap ∧
        ((∃ e, build s.params.childOrder s.inBytes = .error e ∧ runBuild s = .error e) ∨
          ∃ t, build s.params.childOrder s.inBytes = .ok t ∧ runBuild s = .ok (s.withBuilt s.inBytes t)) := by
  rcases Nat.lt_or_ge s.params.inCap s.inLen.toNat with h | h
  · exact .inl ⟨h, by simp only [runBuild, needCapacity_over h, bind, Except.bind]⟩
  · refine .inr ⟨h, ?_⟩
    cases hb : build s.params.childOrder s.inBytes with
    | error e => exact .inl ⟨e, rfl, by simp only [runBuild, needCapacity_within h, hb, bind, Except.bind]⟩
    | ok t => exact .inr ⟨t, rfl, by simp only [runBuild, needCapacity_within h, hb, bind, Except.bind]; rfl⟩

/-- What CODES's own work can do. -/
theorem runCodes_cases (s : State) :
    (∃ t, Status.treeV s.status = true ∧ s.tree = some t ∧ runCodes s = .ok (s.withCodes t)) ∨
      runCodes s = .error ⟨.sequence, 2⟩ := by
  rcases needTree_cases .codes s with ⟨t, hv, ht, e⟩ | e
  · exact .inl ⟨t, hv, ht, by simp only [runCodes, e, bind, Except.bind]; rfl⟩
  · exact .inr (by simp only [runCodes, e, bind, Except.bind]; rfl)

/-- What CPLIST's own work can do. -/
theorem runCplist_cases (s : State) :
    (∃ t, Status.treeV s.status = true ∧ s.tree = some t ∧ runCplist s = .ok (s.withCodePoints t)) ∨
      runCplist s = .error ⟨.sequence, 3⟩ := by
  rcases needTree_cases .cplist s with ⟨t, hv, ht, e⟩ | e
  · exact .inl ⟨t, hv, ht, by simp only [runCplist, e, bind, Except.bind]; rfl⟩
  · exact .inr (by simp only [runCplist, e, bind, Except.bind]; rfl)

/-- What SERIALIZE's own work can do. -/
theorem runSerialize_cases (s : State) :
    runSerialize s = .error ⟨.sequence, 4⟩ ∨
      ∃ t, Status.treeV s.status = true ∧ s.tree = some t ∧
        ((s.params.inCap < s.inLen.toNat ∧ runSerialize s = .error ⟨.capacity, s.inLen⟩) ∨
          s.inLen.toNat ≤ s.params.inCap ∧
            ((∃ e, serialize t s.inBytes = .error e ∧ runSerialize s = .error e) ∨
              ∃ bytes n, serialize t s.inBytes = .ok (bytes, n) ∧ runSerialize s = .ok (s.withSerialized t bytes n))) := by
  rcases needTree_cases .serialize s with ⟨t, hv, ht, e⟩ | e
  · refine .inr ⟨t, hv, ht, ?_⟩
    rcases Nat.lt_or_ge s.params.inCap s.inLen.toNat with h | h
    · exact .inl ⟨h, by simp only [runSerialize, e, needCapacity_over h, bind, Except.bind]⟩
    · refine .inr ⟨h, ?_⟩
      cases hb : serialize t s.inBytes with
      | error e' => exact .inl ⟨e', rfl, by simp only [runSerialize, e, needCapacity_within h, hb, bind, Except.bind]⟩
      | ok r =>
        exact .inr ⟨r.1, r.2, rfl, by simp only [runSerialize, e, needCapacity_within h, hb, bind, Except.bind]; rfl⟩
  · exact .inl (by simp only [runSerialize, e, bind, Except.bind]; rfl)

/-- What ENCODE's own work can do. -/
theorem runEncode_cases (s : State) :
    (s.params.inCap < s.inLen.toNat ∧ runEncode s = .error ⟨.capacity, s.inLen⟩) ∨
      s.inLen.toNat ≤ s.params.inCap ∧
        ((∃ e, build s.params.childOrder (withSentinel s.inBytes) = .error e ∧ runEncode s = .error e) ∨
          ∃ t, build s.params.childOrder (withSentinel s.inBytes) = .ok t ∧
            ((∃ e, serialize t (withSentinel s.inBytes) = .error e ∧ runEncode s = .error e) ∨
              ∃ bytes n, serialize t (withSentinel s.inBytes) = .ok (bytes, n) ∧
                runEncode s = .ok (s.withEncoded (withSentinel s.inBytes) t bytes n))) := by
  rcases Nat.lt_or_ge s.params.inCap s.inLen.toNat with h | h
  · exact .inl ⟨h, by simp only [runEncode, needCapacity_over h, bind, Except.bind]⟩
  · refine .inr ⟨h, ?_⟩
    cases hb : build s.params.childOrder (withSentinel s.inBytes) with
    | error e =>
      exact .inl ⟨e, rfl, by simp only [runEncode, needCapacity_within h, encodeBytes, hb, bind, Except.bind]⟩
    | ok t =>
      refine .inr ⟨t, rfl, ?_⟩
      cases hs : serialize t (withSentinel s.inBytes) with
      | error e =>
        exact .inl ⟨e, rfl, by simp only [runEncode, needCapacity_within h, encodeBytes, hb, hs, bind, Except.bind]⟩
      | ok r =>
        refine .inr ⟨r.1, r.2, rfl, ?_⟩
        simp only [runEncode, needCapacity_within h, encodeBytes, hb, hs, bind, Except.bind]; rfl

/-- What DESERIALIZE's own work can do. -/
theorem runDeserialize_cases (s : State) :
    (s.params.inCap < s.inLen.toNat ∧ runDeserialize s = .error ⟨.capacity, s.inLen⟩) ∨
      s.inLen.toNat ≤ s.params.inCap ∧
        ((∃ e, deserialize s.inBytes = .error e ∧ runDeserialize s = .error e) ∨
          ∃ d, deserialize s.inBytes = .ok d ∧ runDeserialize s = .ok (s.withDecoded d)) := by
  rcases Nat.lt_or_ge s.params.inCap s.inLen.toNat with h | h
  · exact .inl ⟨h, by simp only [runDeserialize, needCapacity_over h, bind, Except.bind]⟩
  · refine .inr ⟨h, ?_⟩
    cases hb : deserialize s.inBytes with
    | error e => exact .inl ⟨e, rfl, by simp only [runDeserialize, needCapacity_within h, hb, bind, Except.bind]⟩
    | ok d => exact .inr ⟨d, rfl, by simp only [runDeserialize, needCapacity_within h, hb, bind, Except.bind]; rfl⟩

/-! ## The operand -/

theorem State.length_inBytes (s : State) : s.inBytes.length = s.inLen.toNat := by simp [State.inBytes]

/-- The operand depends on IN, `IN_LEN` and the epoch alone. -/
theorem State.inBytes_congr {s u : State} (hl : u.inLen = s.inLen) (hm : u.inMem = s.inMem) (he : u.epoch = s.epoch) :
    u.inBytes = s.inBytes := by
  simp only [State.inBytes, hl]
  exact List.map_congr_left fun i _ => by simp only [State.inByte, hm, he]

/-! ## Everything `exec` can answer -/

/-- What an accepted command can leave: it faults, or it has the one effect of its kind. -/
inductive Effect (s : State) : Instr → State → Prop where
  | faulted (i : Instr) (h : i ≠ .reset) (e : Raise) (hw : ownWork i s = .error e) :
    Effect s i (s.enterFault e.kind e.info)
  | built (t : PrefixNode) (hc : s.inLen.toNat ≤ s.params.inCap) (hb : build s.params.childOrder s.inBytes = .ok t) :
    Effect s .build (s.withBuilt s.inBytes t)
  | coded (t : PrefixNode) (hv : Status.treeV s.status = true) (ht : s.tree = some t) : Effect s .codes (s.withCodes t)
  | listed (t : PrefixNode) (hv : Status.treeV s.status = true) (ht : s.tree = some t) :
    Effect s .cplist (s.withCodePoints t)
  | serialized (t : PrefixNode) (bytes : List Byte) (n : Nat) (hv : Status.treeV s.status = true) (ht : s.tree = some t)
    (hc : s.inLen.toNat ≤ s.params.inCap) (hs : serialize t s.inBytes = .ok (bytes, n)) :
    Effect s .serialize (s.withSerialized t bytes n)
  | decoded (d : Decoded) (hc : s.inLen.toNat ≤ s.params.inCap) (hd : deserialize s.inBytes = .ok d) :
    Effect s .deserialize (s.withDecoded d)
  | encoded (t : PrefixNode) (bytes : List Byte) (n : Nat) (hc : s.inLen.toNat ≤ s.params.inCap)
    (hb : build s.params.childOrder (withSentinel s.inBytes) = .ok t)
    (hs : serialize t (withSentinel s.inBytes) = .ok (bytes, n)) :
    Effect s .encode (s.withEncoded (withSentinel s.inBytes) t bytes n)
  | reset : Effect s .reset s.toReset

/-- Where a command is accepted, it has an effect. -/
theorem exec_effect {s : State} (h : s.ready) (i : Instr) : ∃ u, exec i s = .next u ∧ Effect s i u := by
  by_cases hi : i = .reset
  · subst hi
    refine ⟨s.toReset, execReset_taken ?_, .reset⟩
    rcases h with h | h <;> rw [h] <;> decide
  rw [exec_ownWork hi, runCommand_ready h]
  refine ⟨_, rfl, ?_⟩
  have hf : ∀ e, ownWork i s = .error e → Effect s i (s.settle (ownWork i s)) := fun e he => by
    have := Effect.faulted i hi e he
    rwa [← State.settle_error, ← he] at this
  cases i with
  | build =>
    rcases runBuild_cases s with ⟨_, e⟩ | ⟨hc, ⟨e', _, e⟩ | ⟨t, hb, e⟩⟩
    · exact hf _ e
    · exact hf _ e
    · rw [show ownWork .build s = _ from e]; exact .built t hc hb
  | codes =>
    rcases runCodes_cases s with ⟨t, hv, ht, e⟩ | e
    · rw [show ownWork .codes s = _ from e]; exact .coded t hv ht
    · exact hf _ e
  | cplist =>
    rcases runCplist_cases s with ⟨t, hv, ht, e⟩ | e
    · rw [show ownWork .cplist s = _ from e]; exact .listed t hv ht
    · exact hf _ e
  | serialize =>
    rcases runSerialize_cases s with e | ⟨t, hv, ht, ⟨_, e⟩ | ⟨hc, ⟨e', _, e⟩ | ⟨bytes, n, hs, e⟩⟩⟩
    · exact hf _ e
    · exact hf _ e
    · exact hf _ e
    · rw [show ownWork .serialize s = _ from e]; exact .serialized t bytes n hv ht hc hs
  | deserialize =>
    rcases runDeserialize_cases s with ⟨_, e⟩ | ⟨hc, ⟨e', _, e⟩ | ⟨d, hd, e⟩⟩
    · exact hf _ e
    · exact hf _ e
    · rw [show ownWork .deserialize s = _ from e]; exact .decoded d hc hd
  | encode =>
    rcases runEncode_cases s with ⟨_, e⟩ | ⟨hc, ⟨e', _, e⟩ | ⟨t, hb, ⟨e', _, e⟩ | ⟨bytes, n, hs, e⟩⟩⟩
    · exact hf _ e
    · exact hf _ e
    · exact hf _ e
    · rw [show ownWork .encode s = _ from e]; exact .encoded t bytes n hc hb hs
  | reset => exact absurd rfl hi

/-- Everything a command can answer: dropped, reset out of FAULT, or accepted with an effect. -/
theorem exec_cases (i : Instr) (s : State) :
    (s.phase = .busy ∧ exec i s = .next s) ∨
      (s.phase = .fault ∧ i ≠ .reset ∧ exec i s = .next s) ∨
      (s.phase = .fault ∧ i = .reset ∧ exec i s = .next s.toReset) ∨
      s.ready ∧ ∃ u, exec i s = .next u ∧ Effect s i u := by
  by_cases hr : s.ready
  · exact .inr (.inr (.inr ⟨hr, exec_effect hr i⟩))
  rcases State.not_ready.1 hr with h | h
  · left
    refine ⟨h, ?_⟩
    by_cases hi : i = .reset
    · subst hi; exact execReset_busy h
    · rw [exec_ownWork hi, runCommand_dropped (.inl h)]
  · right
    by_cases hi : i = .reset
    · subst hi; exact .inr (.inl ⟨h, rfl, execReset_taken (by rw [h]; decide)⟩)
    · exact .inl ⟨h, hi, by rw [exec_ownWork hi, runCommand_dropped (.inr h)]⟩

end Sys2Proof.Machine
end

