-- ==== Sys2Proof/Laws/Step.lean ====
section
/-! SUPPORT. The step: what carrying out a command word can do, and everything one step can do. -/

namespace Sys2Proof.Machine

/-! ## Command words -/

theorem opcode_toNat (i : Instr) : 1 ≤ (opcode i).toNat ∧ (opcode i).toNat ≤ 7 := by cases i <;> decide

/-- What one word decodes to: its command, or nothing when it is reserved. -/
theorem decodeWord_cases (w : Byte) :
    (∃ i, w = opcode i ∧ decodeWord w = .ok i) ∨
      ((w.toNat = 0 ∨ 8 ≤ w.toNat) ∧ decodeWord w = .error (.reservedOpcode w)) := by
  have H : ∀ w : Byte, (∃ i ∈ [Instr.build, .codes, .cplist, .serialize, .deserialize, .encode, .reset],
      w = opcode i ∧ opcodeRows.find? (fun r => r.holds w) = some ⟨0xFF, opcode i, i⟩) ∨
      ((w.toNat = 0 ∨ 8 ≤ w.toNat) ∧ opcodeRows.find? (fun r => r.holds w) = none) := by decide +kernel
  rcases H w with ⟨i, _, hw, e⟩ | ⟨hw, e⟩
  · exact .inl ⟨i, hw, by rw [decodeWord, e]⟩
  · exact .inr ⟨hw, by rw [decodeWord, e]⟩

/-- What carrying out a word can do: it is `exec` of its command, or the dispatch of a reserved opcode. -/
theorem execWord_cases (w : Byte) (s : State) :
    (∃ i, w = opcode i ∧ execWord w s = exec i s) ∨
      ((w.toNat = 0 ∨ 8 ≤ w.toNat) ∧ execWord w s = runCommand (runIllegal w) s) := by
  rcases decodeWord_cases w with ⟨i, hw, e⟩ | ⟨hw, e⟩
  · exact .inl ⟨i, hw, by simp only [execWord, decode, e]⟩
  · exact .inr ⟨hw, by simp only [execWord, decode, e]⟩

theorem execWord_opcode (i : Instr) (s : State) : execWord (opcode i) s = exec i s := by
  cases i <;> rfl

theorem execWord_ready {s : State} (h : s.ready) (w : Byte) (hw : w ≠ opcode .reset) :
    ∃ u, execWord w s = .next u ∧
      ((∃ i, i ≠ .reset ∧ w = opcode i ∧ Effect s i u) ∨ u = s.enterFault .illegalCommand (w.setWidth 64)) := by
  rcases execWord_cases w s with ⟨i, hi, e⟩ | ⟨_, e⟩
  · obtain ⟨u, hu, he⟩ := exec_effect h i
    exact ⟨u, e.trans hu, .inl ⟨i, fun h0 => hw (h0 ▸ hi), hi, he⟩⟩
  · exact ⟨_, e.trans (runCommand_ready h _), .inr rfl⟩

/-! ## One step -/

/-- A state that a completion sees accepts a command. -/
theorem State.release_ready (s : State) : s.release.ready := .inr (Status.phase_withPhase _ _)

/-- Everything one step can do. The state without the moves the step takes is `s` with other moves. -/
inductive StepEffect (s : State) : State → Prop where
  | waited (later : List Move) : StepEffect s { s with moves := later }
  | answered (later : List Move) (space i : Nat) : StepEffect s (State.afterRead { s with moves := later } space i)
  | written (later : List Move) (space i v : Nat) (hp : s.phase ≠ .busy) :
    StepEffect s (memWrite { s with moves := later } space i v)
  | started (later : List Move) (w : Byte) (hr : s.ready) (hw : w ≠ opcode .reset)
    (hm : ∃ v, w = BitVec.ofNat 8 v ∧ s.moves = .write 0 0 v :: later) : StepEffect s (State.start { s with moves := later } w)
  | ran (later : List Move) (w : Byte) (u : State) (hr : s.ready) (hw : w ≠ opcode .reset)
    (hu : execWord w { s with moves := later } = .next u)
    (hm : ∃ v rest, w = BitVec.ofNat 8 v ∧ s.moves = .write 0 0 v :: rest) : StepEffect s u
  | completed (later : List Move) (u : State) (hp : s.phase = .busy)
    (hu : execWord s.cmd (State.release { s with moves := later }) = .next u)
    (hm : s.moves = [] ∨ s.moves = .complete :: later) : StepEffect s u
  | commandReset (later : List Move) (v : Nat) (hp : s.phase ≠ .busy) (hm : s.moves = .write 0 0 v :: later)
    (hv : v % 256 = 7) : StepEffect s (State.toReset { s with moves := later })
  | hardwareReset (later : List Move) (hm : s.moves = .hardReset :: later) :
    StepEffect s (State.toReset { s with moves := later })

theorem ofNat_eq_reset (v : Nat) : BitVec.ofNat 8 v = opcode .reset ↔ v % 256 = 7 := by
  rw [← BitVec.toNat_inj, BitVec.toNat_ofNat]; rfl

/-- What a write of `CMD` can do, in a state whose `moves` are the moves after it. -/
theorem writeCmd_cases (w : Byte) (s : State) :
    (w = opcode .reset ∧ writeCmd w s = exec .reset s) ∨
      (w ≠ opcode .reset ∧ ¬ s.ready ∧ writeCmd w s = .next s) ∨
      (w ≠ opcode .reset ∧ s.ready ∧
        ((writeCmd w s = .next (s.start w)) ∨ ∃ later, writeCmd w s = execWord w { s with moves := later })) := by
  by_cases hw : w = opcode .reset
  · subst hw; exact .inl ⟨rfl, by rw [writeCmd, if_pos rfl, execWord_opcode]⟩
  right
  unfold writeCmd
  rw [if_neg hw]
  by_cases hr : s.ready
  · refine .inr ⟨hw, hr, ?_⟩
    rcases hr with h | h
    · rw [h]
      match hm : s.moves with
      | [] => right; exact ⟨[], by simp only; exact congrArg (execWord w) (by rw [← hm])⟩
      | .complete :: later => right; exact ⟨later, rfl⟩
      | .read _ _ :: _ => exact .inl rfl
      | .write _ _ _ :: _ => exact .inl rfl
      | .hardReset :: _ => exact .inl rfl
    · rw [h]
      match hm : s.moves with
      | [] => right; exact ⟨[], by simp only; exact congrArg (execWord w) (by rw [← hm])⟩
      | .complete :: later => right; exact ⟨later, rfl⟩
      | .read _ _ :: _ => exact .inl rfl
      | .write _ _ _ :: _ => exact .inl rfl
      | .hardReset :: _ => exact .inl rfl
  · refine .inl ⟨hw, hr, ?_⟩
    rcases State.not_ready.1 hr with h | h <;> rw [h]

/-- Everything one step can do. -/
theorem step_effect (s : State) : ∃ u, step s = .next u ∧ StepEffect s u := by
  have busy : ∀ later, s.moves = [] ∨ s.moves = .complete :: later → s.phase = .busy → ∃ u, complete { s with moves := later } = .next u ∧ StepEffect s u := by
    intro later hm hp
    have hx : ∃ u, execWord s.cmd (State.release { s with moves := later }) = .next u := by
      rcases execWord_cases s.cmd (State.release { s with moves := later }) with ⟨i, _, e⟩ | ⟨_, e⟩
      · obtain ⟨u, hu, _⟩ := exec_effect (State.release_ready { s with moves := later }) i
        exact ⟨u, e.trans hu⟩
      · exact ⟨_, e.trans (runCommand_ready (State.release_ready _) _)⟩
    obtain ⟨u, hu⟩ := hx
    exact ⟨u, hu, .completed later u hp hu hm⟩
  have block : ∀ later, s.moves = [] ∨ s.moves = .complete :: later →
      ∃ u, blockMove { s with moves := later } = .next u ∧ StepEffect s u := by
    intro later hm
    have e : State.phase { s with moves := later } = s.phase := rfl
    unfold blockMove
    rw [e]
    cases hp : s.phase with
    | busy => exact busy later hm hp
    | idle => exact ⟨_, rfl, .waited later⟩
    | done => exact ⟨_, rfl, .waited later⟩
    | fault => exact ⟨_, rfl, .waited later⟩
  unfold step
  match hm : s.moves with
  | [] => have h := block [] (.inl hm); rw [← hm] at h; exact h
  | .read space i :: later => exact ⟨_, rfl, .answered later space i⟩
  | .hardReset :: later => exact ⟨_, rfl, .hardwareReset later hm⟩
  | .complete :: later => exact block later (.inr hm)
  | .write space i v :: later =>
    have e : State.phase { s with moves := later } = s.phase := rfl
    have other : s.phase ≠ .busy → ∃ u,
        (if space = 0 ∧ i = 0 then writeCmd (BitVec.ofNat 8 v) { s with moves := later }
          else .next (memWrite { s with moves := later } space i v)) = .next u ∧ StepEffect s u := by
      intro hp
      by_cases h0 : space = 0 ∧ i = 0
      · rw [if_pos h0]
        obtain ⟨rfl, rfl⟩ := h0
        rcases writeCmd_cases (BitVec.ofNat 8 v) { s with moves := later } with ⟨hw, h⟩ | ⟨hw, _, h⟩ | ⟨hw, hr, h | ⟨l', h⟩⟩
        · exact ⟨_, h.trans (execReset_taken hp), .commandReset later v hp hm ((ofNat_eq_reset v).1 hw)⟩
        · exact ⟨_, h, .waited later⟩
        · exact ⟨_, h, .started later _ hr hw ⟨v, rfl, hm⟩⟩
        · obtain ⟨u, hu, _⟩ := execWord_ready (s := { s with moves := l' }) hr _ hw
          exact ⟨u, h.trans hu, .ran l' _ u hr hw hu ⟨v, later, rfl, hm⟩⟩
      · rw [if_neg h0]
        exact ⟨_, rfl, .written later space i v hp⟩
    show ∃ u, hostWrite { s with moves := later } space i v = .next u ∧ StepEffect s u
    unfold hostWrite
    rw [e]
    cases hp : s.phase with
    | busy => exact ⟨_, rfl, .waited later⟩
    | idle => exact other (by rw [hp]; decide)
    | done => exact other (by rw [hp]; decide)
    | fault => exact other (by rw [hp]; decide)

theorem step_effect_of {s u : State} (h : step s = .next u) : StepEffect s u := by
  obtain ⟨u', h', e⟩ := step_effect s
  rw [h] at h'
  cases h'
  exact e

end Sys2Proof.Machine
end

