-- ==== Sys2Proof/Laws/Invariant.lean ====
section
/-! SUPPORT. The invariant: each update of the state keeps it. -/

namespace Sys2Proof.Machine

/-- A store inside a bound keeps every index below the bound. -/
theorem Space.bound_store {α : Type} {m : Space α} {xs : List α} {b : Nat} (h : ∀ c ∈ m, c.1 < b) (hx : xs.length ≤ b) :
    ∀ c ∈ m.store xs, c.1 < b := by
  intro c hc
  rcases Space.mem_store hc with h' | h'
  · omega
  · exact h c h'

theorem Space.isSome_read_store {α : Type} (m : Space α) {xs : List α} {i : Nat} (h : i < xs.length) :
    ((m.store xs).read i).isSome = true := by
  rw [Space.read_store, if_pos h, List.getElem?_eq_getElem h]; rfl

theorem read_freqTable (m : Space Word) (xs : List Byte) (b : Byte) :
    (m.store (freqTable xs)).read b.toNat = some (symbolFreq xs b) := by
  rw [Space.read_store, length_freqTable, if_pos b.isLt, getElem?_freqTable]

theorem read_codeTable (m : Space CodeRecord) (t : PrefixNode) (b : Byte) :
    (m.store (codeTable t)).read b.toNat = some (codeRecord (codesOf t) b) := by
  rw [Space.read_store, length_codeTable, if_pos b.isLt, getElem?_codeTable]

theorem length_codePoints (t : PrefixNode) : (codePoints t).length = t.leafCount := codePointsAt_length t 0

/-- A stream of symbols that fit the block fits OUT (rule R175). -/
theorem length_serialize_le (p : Params) {t : PrefixNode} {xs bytes : List Byte} {n : Nat} (hl : t.leafCount ≤ 256)
    (h : serialize t xs = .ok (bytes, n)) (hx : xs.length ≤ p.inCap + 1) : bytes.length ≤ p.outCap := by
  rcases serialize_cases t xs with ⟨hm, e⟩ | ⟨_, _, _, _, _, _, e⟩
  · rw [h] at e
    simp only [Except.ok.injEq, Prod.mk.injEq] at e
    obtain ⟨rfl, rfl⟩ := e
    have h1 := length_streamBits_le t xs hl
    have h2 : (pack (streamBits t xs)).length = ((streamBits t xs).length + 7) / 8 := by
      rw [(expand_pack _).1]; unfold paddingBits; omega
    rw [h2, Params.outCap]; omega
  · rw [h] at e; cases e

/-- A length that fits OUT fits its register. -/
theorem toNat_outLen {p : Params} (hw : p.wf = true) {n : Nat} (h : n ≤ p.outCap) : (BitVec.ofNat 64 n).toNat = n := by
  simp only [Params.wf, Bool.and_eq_true, decide_eq_true_eq] at hw
  rw [Params.outCap] at h
  rw [BitVec.toNat_ofNat]; omega

/-! ## Reset, fault entry, and the updates outside a command -/

theorem State.toReset_inv (s : State) (h : s.params.wf = true) : s.toReset.Inv := by
  constructor
  · constructor <;> first | exact h | (intro c hc; cases hc) | exact Space.wf_nil | exact Nat.zero_le _
  · constructor <;> simp [State.toReset, State.reset, State.phase] <;> decide
  · constructor <;> simp [State.toReset, State.reset] <;> decide
  · constructor <;> (intro h; exact absurd h (by simp only [State.toReset, State.reset]; decide))

theorem State.enterFault_inv {s : State} (k : FaultKind) (v : Word) (hI : s.Inv) (hc : s.cmd = 0) :
    (s.enterFault k v).Inv := by
  refine ⟨?_, ?_, ?_, ?_⟩
  · exact { hI.spaces with
      outForm := Space.wf_nil
      freqForm := Space.wf_nil
      codeForm := Space.wf_nil
      cpForm := Space.wf_nil
      outBound := nofun
      freqBound := nofun
      codeBound := nofun
      cpBound := nofun
      outLen := Nat.zero_le _ }
  · have := k.code_bounds
    constructor <;> simp [State.phase, hc, this]
    decide
  · constructor <;> simp
  · constructor <;> simp

theorem State.moves_inv {s : State} (h : s.Inv) (later : List Move) : ({ s with moves := later } : State).Inv :=
  ⟨{ h.spaces with }, { h.status with }, { h.tree with }, { h.results with }⟩

theorem State.afterRead_inv {s : State} (h : s.Inv) (space i : Nat) : (s.afterRead space i).Inv :=
  ⟨{ h.spaces with }, { h.status with }, { h.tree with }, { h.results with }⟩

theorem memWrite_inv {s : State} (h : s.Inv) (space i v : Nat) : (memWrite s space i v).Inv := by
  unfold memWrite
  split
  · exact ⟨{ h.spaces with }, { h.status with }, { h.tree with }, { h.results with }⟩
  · split
    · rename_i hi
      refine ⟨{ h.spaces with
        inForm := Space.wf_write h.spaces.inForm _ _
        inBound := ?_ }, { h.status with }, { h.tree with }, { h.results with }⟩
      intro c hc
      rcases Space.mem_write hc with rfl | hc
      · exact hi.2
      · exact h.spaces.inBound c hc
    · exact h

theorem State.start_inv {s : State} (h : s.Inv) (hr : s.ready) {w : Byte} (hw : w ≠ opcode .reset) :
    (s.start w).Inv := by
  have hn := h.status.noFault (by rcases hr with h | h <;> rw [h] <;> decide)
  refine ⟨{ h.spaces with }, ?_, ?_, ?_⟩
  · constructor <;> simp [State.phase, State.start, hn, hw]
    · exact h.status.sent
    · exact h.status.noOut
  · constructor <;> simp only [State.start, Status.treeV_withPhase, Status.freqV_withPhase, Status.codeV_withPhase,
      Status.cpV_withPhase, Status.outV_withPhase]
    · exact h.tree.flag
    · exact h.tree.empty
    · exact h.tree.held
    · exact h.tree.needed
  · constructor <;> simp only [State.start, Status.freqV_withPhase, Status.codeV_withPhase, Status.cpV_withPhase,
      Status.outV_withPhase]
    · exact h.results.freqTrue
    · exact h.results.codeTrue
    · exact h.results.cpTrue
    · exact h.results.outTrue

theorem State.release_inv {s : State} (h : s.Inv) (hb : s.phase = .busy) : s.release.Inv := by
  have hn := h.status.noFault (by rw [hb]; decide)
  refine ⟨{ h.spaces with }, ?_, ?_, ?_⟩
  · constructor <;> simp [State.phase, State.release, hn]
    · exact h.status.sent
    · exact h.status.noOut
  · constructor <;> simp only [State.release, Status.treeV_withPhase, Status.freqV_withPhase, Status.codeV_withPhase,
      Status.cpV_withPhase, Status.outV_withPhase]
    · exact h.tree.flag
    · exact h.tree.empty
    · exact h.tree.held
    · exact h.tree.needed
  · constructor <;> simp only [State.release, Status.freqV_withPhase, Status.codeV_withPhase, Status.cpV_withPhase,
      Status.outV_withPhase]
    · exact h.results.freqTrue
    · exact h.results.codeTrue
    · exact h.results.cpTrue
    · exact h.results.outTrue

/-! ## The effects of the commands -/

theorem State.withBuilt_inv {s : State} (hI : s.Inv) (hc : s.cmd = 0) {xs : List Byte} {t : PrefixNode}
    (hx : xs.length ≤ s.params.inCap + 1) (hb : build s.params.childOrder xs = .ok t) : (s.withBuilt xs t).Inv := by
  have hl := build_ok_leafCount_le _ hb
  have hh := t.height_lt_leafCount
  refine ⟨{ hI.spaces with
    freqForm := Space.wf_store hI.spaces.freqForm _
    freqBound := Space.bound_store hI.spaces.freqBound (by rw [length_freqTable]; exact Nat.le_refl _)
    outLen := Nat.zero_le _ }, ?_, ?_, ?_⟩
  · constructor <;> simp [State.phase, State.withBuilt, hc]
  · constructor
    · simp [State.withBuilt]
    · simp [State.withBuilt]
    · intro t' ht'
      cases ht'
      exact ⟨rfl, (build_ok _ hb).2.2, hl, by show t.height ≤ 255; omega⟩
    · simp [State.withBuilt]
  · constructor
    · exact fun _ => ⟨t, xs, rfl, hx, hb, read_freqTable _ _⟩
    all_goals simp [State.withBuilt]

theorem State.withCodes_inv {s : State} (hI : s.Inv) (hc : s.cmd = 0) {t : PrefixNode}
    (hv : Status.treeV s.status = true) (ht : s.tree = some t) : (s.withCodes t).Inv := by
  refine ⟨{ hI.spaces with
    codeForm := Space.wf_store hI.spaces.codeForm _
    codeBound := Space.bound_store hI.spaces.codeBound (by rw [length_codeTable]; exact Nat.le_refl _) }, ?_, ?_, ?_⟩
  · constructor <;> simp [State.phase, State.withCodes, hc]
    · exact hI.status.sent
    · exact hI.status.noOut
  · constructor
    · simpa [State.withCodes] using hI.tree.flag
    · simpa [State.withCodes] using hI.tree.empty
    · simpa [State.withCodes] using hI.tree.held
    · simp [State.withCodes, hv]
  · constructor
    · simpa [State.withCodes] using hI.results.freqTrue
    · exact fun _ => ⟨t, ht, read_codeTable _ _⟩
    · simpa [State.withCodes] using hI.results.cpTrue
    · simpa [State.withCodes] using hI.results.outTrue

theorem State.withCodePoints_inv {s : State} (hI : s.Inv) (hc : s.cmd = 0) {t : PrefixNode}
    (hv : Status.treeV s.status = true) (ht : s.tree = some t) : (s.withCodePoints t).Inv := by
  have hl := (hI.tree.held t ht).2.2.1
  refine ⟨{ hI.spaces with
    cpForm := Space.wf_store hI.spaces.cpForm _
    cpBound := Space.bound_store hI.spaces.cpBound (by rw [length_codePoints]; exact hl) }, ?_, ?_, ?_⟩
  · constructor <;> simp [State.phase, State.withCodePoints, hc]
    · exact hI.status.sent
    · exact hI.status.noOut
  · constructor
    · simpa [State.withCodePoints] using hI.tree.flag
    · simpa [State.withCodePoints] using hI.tree.empty
    · simpa [State.withCodePoints] using hI.tree.held
    · simp [State.withCodePoints, hv]
  · constructor
    · simpa [State.withCodePoints] using hI.results.freqTrue
    · simpa [State.withCodePoints] using hI.results.codeTrue
    · refine fun _ => ⟨t, ht, fun i hi => ?_⟩
      show (s.cp.store _).read _ = _
      rw [Space.read_store, length_codePoints, if_pos hi]
    · simpa [State.withCodePoints] using hI.results.outTrue

theorem State.withSerialized_inv {s : State} (hI : s.Inv) (hc : s.cmd = 0) {t : PrefixNode} {xs bytes : List Byte} {n : Nat}
    (hv : Status.treeV s.status = true) (ht : s.tree = some t) (hx : xs.length ≤ s.params.inCap + 1)
    (hs : serialize t xs = .ok (bytes, n)) : (s.withSerialized t bytes n).Inv := by
  have hl := (hI.tree.held t ht).2.2.1
  have hb := length_serialize_le s.params hl hs hx
  have hbl := toNat_outLen hI.spaces.params hb
  refine ⟨{ hI.spaces with
    outForm := Space.wf_store hI.spaces.outForm _
    codeForm := Space.wf_store hI.spaces.codeForm _
    cpForm := Space.wf_store hI.spaces.cpForm _
    outBound := Space.bound_store hI.spaces.outBound hb
    codeBound := Space.bound_store hI.spaces.codeBound (by rw [length_codeTable]; exact Nat.le_refl _)
    cpBound := Space.bound_store hI.spaces.cpBound (by rw [length_codePoints]; exact hl)
    outLen := by rw [State.withSerialized_outLen, hbl]; exact hb }, ?_, ?_, ?_⟩
  · constructor <;> simp [State.phase, State.withSerialized, hc]
  · constructor
    · simpa [State.withSerialized] using hI.tree.flag
    · simpa [State.withSerialized] using hI.tree.empty
    · simpa [State.withSerialized] using hI.tree.held
    · simp [State.withSerialized, hv]
  · constructor
    · simpa [State.withSerialized] using hI.results.freqTrue
    · exact fun _ => ⟨t, ht, read_codeTable _ _⟩
    · refine fun _ => ⟨t, ht, fun i hi => ?_⟩
      show (s.cp.store _).read _ = _
      rw [Space.read_store, length_codePoints, if_pos hi]
    · intro _ i hi
      rw [State.withSerialized_outLen, hbl] at hi
      exact Space.isSome_read_store s.outMem hi

theorem State.withDecoded_inv {s : State} (hI : s.Inv) (hc : s.cmd = 0) {packed : List Byte} {d : Decoded}
    (hx : packed.length ≤ s.params.inCap) (hd : deserialize packed = .ok d) : (s.withDecoded d).Inv := by
  rcases deserialize_cases packed with ⟨t, p, rest, out, sent, he, hi, hl, _, hh, _, ho, hd', _⟩ | ⟨k, _, _, e⟩
  · cases hd.symm.trans hd'
    have hb : out.length ≤ s.params.outCap := by
      have := congrArg List.length he
      rw [length_expand] at this
      simp only [List.length_append, length_descriptorBits] at this
      rw [Params.outCap]; omega
    have hbl := toNat_outLen hI.spaces.params hb
    refine ⟨{ hI.spaces with
      outForm := Space.wf_store hI.spaces.outForm _
      cpForm := Space.wf_store hI.spaces.cpForm _
      outBound := Space.bound_store hI.spaces.outBound hb
      cpBound := Space.bound_store hI.spaces.cpBound (by rw [length_codePoints]; exact hl)
      outLen := by rw [State.withDecoded_outLen, hbl]; exact hb }, ?_, ?_, ?_⟩
    · constructor <;> simp [State.phase, State.withDecoded, hc]
    · constructor
      · simp [State.withDecoded]
      · simp [State.withDecoded]
      · intro t' ht'
        cases ht'
        exact ⟨by rw [State.withDecoded_nleaf, length_codePoints], hi, hl, hh⟩
      · simp [State.withDecoded]
    · constructor
      · simp [State.withDecoded]
      · simp [State.withDecoded]
      · refine fun _ => ⟨t, rfl, fun i hi => ?_⟩
        show (s.cp.store _).read _ = _
        rw [Space.read_store, if_pos (by rw [length_codePoints]; exact hi)]
      · intro _ i hi
        rw [State.withDecoded_outLen, hbl] at hi
        exact Space.isSome_read_store s.outMem hi
  · cases hd.symm.trans e

theorem State.withEncoded_inv {s : State} (hI : s.Inv) (hc : s.cmd = 0) {t : PrefixNode} {xs bytes : List Byte} {n : Nat}
    (hx : xs.length ≤ s.params.inCap + 1) (hb : build s.params.childOrder xs = .ok t)
    (hs : serialize t xs = .ok (bytes, n)) : (s.withEncoded xs t bytes n).Inv := by
  have hl := build_ok_leafCount_le _ hb
  have hh := t.height_lt_leafCount
  have hbo := length_serialize_le s.params hl hs hx
  have hbl := toNat_outLen hI.spaces.params hbo
  refine ⟨{ hI.spaces with
    outForm := Space.wf_store hI.spaces.outForm _
    freqForm := Space.wf_store hI.spaces.freqForm _
    codeForm := Space.wf_store hI.spaces.codeForm _
    cpForm := Space.wf_store hI.spaces.cpForm _
    outBound := Space.bound_store hI.spaces.outBound hbo
    freqBound := Space.bound_store hI.spaces.freqBound (by rw [length_freqTable]; exact Nat.le_refl _)
    codeBound := Space.bound_store hI.spaces.codeBound (by rw [length_codeTable]; exact Nat.le_refl _)
    cpBound := Space.bound_store hI.spaces.cpBound (by rw [length_codePoints]; exact hl)
    outLen := by rw [State.withEncoded_outLen, hbl]; exact hbo }, ?_, ?_, ?_⟩
  · constructor <;> simp [State.phase, State.withEncoded, hc]
  · constructor
    · simp [State.withEncoded]
    · simp [State.withEncoded]
    · intro t' ht'
      cases ht'
      exact ⟨rfl, (build_ok _ hb).2.2, hl, by show t.height ≤ 255; omega⟩
    · simp [State.withEncoded]
  · constructor
    · exact fun _ => ⟨t, xs, rfl, hx, hb, read_freqTable _ _⟩
    · exact fun _ => ⟨t, rfl, read_codeTable _ _⟩
    · refine fun _ => ⟨t, rfl, fun i hi => ?_⟩
      show (s.cp.store _).read _ = _
      rw [Space.read_store, length_codePoints, if_pos hi]
    · intro _ i hi
      rw [State.withEncoded_outLen, hbl] at hi
      exact Space.isSome_read_store s.outMem hi

/-- The effect of an accepted command keeps the invariant. -/
theorem Effect.keeps_inv {s u : State} {i : Instr} (h : Effect s i u) (hr : s.ready) (hI : s.Inv) : u.Inv := by
  have hc := hI.status.latch (by rcases hr with h | h <;> rw [h] <;> decide)
  have hin := s.length_inBytes
  cases h with
  | faulted i h e hw => exact State.enterFault_inv e.kind e.info hI hc
  | built t hn hb => exact State.withBuilt_inv hI hc (by omega) hb
  | coded t hv ht => exact State.withCodes_inv hI hc hv ht
  | listed t hv ht => exact State.withCodePoints_inv hI hc hv ht
  | serialized t bytes n hv ht hn hs => exact State.withSerialized_inv hI hc hv ht (by omega) hs
  | decoded d hn hd => exact State.withDecoded_inv hI hc (by omega) hd
  | encoded t bytes n hn hb hs =>
    exact State.withEncoded_inv hI hc (by
      simp only [withSentinel, List.length_append, List.length_singleton]; omega) hb hs
  | reset => exact State.toReset_inv s hI.spaces.params

/-- A command word carried out in a state that accepts it keeps the invariant. -/
theorem execWord_keeps_inv {s u : State} {w : Byte} (hr : s.ready) (hI : s.Inv) (h : execWord w s = .next u) : u.Inv := by
  rcases execWord_cases w s with ⟨i, _, e⟩ | ⟨_, e⟩
  · obtain ⟨u', hu, he⟩ := exec_effect hr i
    rw [h, hu] at e
    cases e
    exact he.keeps_inv hr hI
  · rw [h, runCommand_ready hr] at e
    cases e
    exact State.enterFault_inv _ _ hI (hI.status.latch (by rcases hr with h | h <;> rw [h] <;> decide))

end Sys2Proof.Machine
end

