-- ==== Sys2Proof/Laws/PerInstr.lean ====
section
/-! SUPPORT. Statements made per instruction. Family `RoundTrip`: the instruction's word decodes to it and to no other, and
the decoder over the numbering of spec/opcode_table.json agrees. -/

namespace Sys2Proof.Laws.RoundTrip

/-- The word of an instruction decodes to it, in both numberings, and the instruction is well formed. -/
def Statement (i : Instr) : Prop :=
  decode (encode i) = .ok (i, []) ∧ decodeTableWord 8 (opcode i).toNat = some i ∧ i.wf = true ∧
    commandWordWf (opcode i) = true

theorem build : Statement .build := by unfold Statement; decide
theorem codes : Statement .codes := by unfold Statement; decide
theorem cplist : Statement .cplist := by unfold Statement; decide
theorem serialize : Statement .serialize := by unfold Statement; decide
theorem deserialize : Statement .deserialize := by unfold Statement; decide
theorem encode : Statement .encode := by unfold Statement; decide
theorem reset : Statement .reset := by unfold Statement; decide

end Sys2Proof.Laws.RoundTrip
end

