-- ==== Sys2Proof/Laws/Sentinel.lean ====
section
/-! SUPPORT. The sentinel: what `Build` does on an input with its sentinel, what decoding does on a payload that holds one, what
it does on the zeros behind a payload that holds none, and the expansion of a stream cut at a byte. -/

namespace Sys2Proof.Machine

/-- What `Build` does on an input and its sentinel. -/
theorem build_sentinel (o) (xs : List Byte) (hl : xs.length < 2 ^ 33) :
    ((∃ x ∈ xs, x ≠ 0) ∧ ∃ t, build o (withSentinel xs) = .ok t ∧ (∀ x ∈ withSentinel xs, x ∈ t.symbols) ∧
        t.isInternal = true) ∨
      ((∀ x ∈ xs, x = 0) ∧ build o (withSentinel xs) = .error ⟨.singleSymbol, 0⟩) := by
  have hlen : (withSentinel xs).length < 2 ^ 64 := by simp [withSentinel]; omega
  rcases build_cases o (withSentinel xs) hlen with ⟨h, _⟩ | ⟨b, _, hb, e⟩ | ⟨t, ⟨x, hx, y, hy, hxy⟩, hbd, hp, _, hi⟩
  · simp [withSentinel] at h
  · right
    have h0 : (0 : Byte) = b := hb 0 (by simp [withSentinel, Config.sentinel])
    subst h0
    exact ⟨fun x hx => hb x (by simp [withSentinel, hx]), e⟩
  · left
    refine ⟨?_, t, hbd, fun z hz => hp.mem_iff.2 (mem_usedSymbols.2 ((symbolFreq_ne_zero hlen z).2 hz)), hi⟩
    by_contra hcon
    push Not at hcon
    have al : ∀ z ∈ withSentinel xs, z = 0 := by
      intro z hz
      simp only [withSentinel, Config.sentinel, List.mem_append, List.mem_singleton] at hz
      rcases hz with hz | hz
      · exact hcon z hz
      · exact hz
    exact hxy ((al x hx).trans (al y hy).symm)

/-- A stream whose symbols start with `xs` and a sentinel decodes to `xs`. -/
theorem deserialize_sentinel {t : PrefixNode} (hi : t.isInternal = true) (hl : t.leafCount ≤ 256) (xs ys : List Byte)
    (hm : ∀ x ∈ xs ++ 0 :: ys, x ∈ t.symbols) (h0 : (0 : Byte) ∉ xs) :
    deserialize (pack (streamBits t (xs ++ 0 :: ys))) =
      .ok ⟨t.unweighted, xs, codePoints t, (streamBits t (xs ++ [0])).length, true⟩ := by
  have hpl : ∀ a b, payloadOf t (a ++ b) = payloadOf t a ++ payloadOf t b := fun a b => by simp [payloadOf]
  obtain ⟨_, he⟩ := expand_pack (streamBits t (xs ++ 0 :: ys))
  set tl := List.replicate (paddingBits (streamBits t (xs ++ 0 :: ys)).length) false ++ [false] with htl
  have hne : payloadOf t ys ++ tl ≠ [] := by simp [htl]
  have hb : expand (pack (streamBits t (xs ++ 0 :: ys))) =
      descriptorBits (codePoints t) ++ (payloadOf t xs ++ (codeOf t 0 ++ (payloadOf t ys ++ tl))) := by
    rw [he, streamBits, hpl, payloadOf_cons]; simp only [List.append_assoc]
  rw [deserialize_stream hi hl _ _ hb]
  have hi' : t.unweighted.isInternal = true := by rw [PrefixNode.unweighted_isInternal]; exact hi
  have hlen : xs.length + 1 ≤ (payloadOf t xs ++ (codeOf t 0 ++ (payloadOf t ys ++ tl))).length := by
    have a := length_le_payloadOf hi (xs := xs) fun x hx => hm x (by simp [hx])
    have b := length_codeOf_pos hi (hm 0 (by simp))
    simp only [List.length_append]; omega
  obtain ⟨m, hmm⟩ : ∃ m, (payloadOf t xs ++ (codeOf t 0 ++ (payloadOf t ys ++ tl))).length = xs.length + (m + 1) :=
    ⟨_, (Nat.add_sub_of_le hlen).symm.trans (by rw [Nat.add_assoc, Nat.add_comm 1])⟩
  rw [hmm]
  have hs : ∀ x ∈ xs, x ∈ t.unweighted.symbols := fun x hx => by
    rw [PrefixNode.unweighted_symbols]; exact hm x (by simp [hx])
  have h00 : (0 : Byte) ∈ t.unweighted.symbols := by rw [PrefixNode.unweighted_symbols]; exact hm 0 (by simp)
  have := decodeLoop_payload hi' xs hs h0 (rest := codeOf t 0 ++ (payloadOf t ys ++ tl)) (by simp [htl]) (m + 1)
    (16 * t.leafCount + 8)
  rw [payloadOf_unweighted] at this
  rw [this]
  have := decodeLoop_sentinel hi' h00 hne m (16 * t.leafCount + 8 + (payloadOf t xs).length)
  rw [codeOf_unweighted] at this
  rw [this]
  simp only [prepend, List.append_nil]
  congr 2
  rw [streamBits, hpl, payloadOf_cons]
  simp [length_descriptorBits, codePoints, codePointsAt_length, payloadOf, Nat.add_assoc]

/-- A walk over zeros reaches the all-left leaf or runs out of bits. -/
theorem walk_zeros (t : PrefixNode) (k cur : Nat) :
    walk t ⟨List.replicate k false, cur⟩ = .error ⟨.corruptStream, 5⟩ ∨
      ∃ j s cur', t.symbols.head? = some s ∧ (t.isInternal = true → j < k) ∧
        walk t ⟨List.replicate k false, cur⟩ = .ok (s, ⟨List.replicate j false, cur'⟩) := by
  induction t generalizing k cur with
  | leaf s w => exact .inr ⟨k, s, cur, rfl, nofun, rfl⟩
  | internal l r ihl ihr =>
    cases k with
    | zero => left; rfl
    | succ k =>
      have e : walk (.internal l r) ⟨List.replicate (k+1) false, cur⟩ = walk l ⟨List.replicate k false, cur + 1⟩ := by
        simp only [walk, List.replicate_succ, readBit_cons, bind, Except.bind, Bool.false_eq_true, if_false]
      rw [e]
      rcases ihl k (cur + 1) with h | ⟨j, s, c, hs, hj, h⟩
      · exact .inl h
      · refine .inr ⟨j, s, c, by simp [PrefixNode.symbols, hs], fun _ => ?_, h⟩
        cases l with
        | internal => have := hj rfl; omega
        | leaf =>
          simp only [walk, Except.ok.injEq, Prod.mk.injEq, Reader.mk.injEq] at h
          have := congrArg List.length h.2.1
          simp at this; omega

/-- The loop over zeros yields copies of the all-left leaf's symbol, or runs out of bits. -/
theorem decodeLoop_zeros (t : PrefixNode) (n k cur : Nat) :
    decodeLoop t n ⟨List.replicate k false, cur⟩ = .error ⟨.corruptStream, 5⟩ ∨
      ∃ j s r sent, t.symbols.head? = some s ∧
        decodeLoop t n ⟨List.replicate k false, cur⟩ = .ok (List.replicate j s, r, sent) := by
  have hd : ∃ s, t.symbols.head? = some s := by
    cases h : t.symbols.head? with
    | some s => exact ⟨s, rfl⟩
    | none =>
      have := List.head?_eq_none_iff.1 h
      have h2 := t.length_symbols
      have := t.leafCount_pos
      simp_all; omega
  obtain ⟨s0, hs0⟩ := hd
  induction n generalizing k cur with
  | zero => exact .inr ⟨0, s0, _, false, hs0, rfl⟩
  | succ n ih =>
    by_cases h2 : (List.replicate k false).length < 2
    · exact .inr ⟨0, s0, _, false, hs0, by simp only [decodeLoop, if_pos h2]; rfl⟩
    · rcases walk_zeros t k cur with h | ⟨j, s, c, hs, hj, h⟩
      · left; simp only [decodeLoop, if_neg h2, h, bind, Except.bind]
      · by_cases hz : s = Config.sentinel
        · right; exact ⟨0, s, _, true, hs, by simp only [decodeLoop, if_neg h2, h, bind, Except.bind, if_pos hz]; rfl⟩
        · rcases ih j c with h' | ⟨j', s', r, sent, hs', h'⟩
          · left; simp only [decodeLoop, if_neg h2, h, h', bind, Except.bind, if_neg hz]
          · right
            rw [hs] at hs'; cases hs'
            exact ⟨j' + 1, s, r, sent, hs, by simp only [decodeLoop, if_neg h2, h, h', bind, Except.bind, if_neg hz]; rfl⟩

/-- A stream cut at a byte and continued otherwise keeps the bits before the cut. -/
theorem expand_cut (packed : List Byte) (k : Nat) (tail : List Byte) (hk : k ≤ packed.length) :
   ∃ rest, expand (packed.take k ++ tail) = (expand packed).take (8 * k) ++ rest ∧ rest ≠ [] := by
  refine ⟨tail.flatMap bits8 ++ [false], ?_, by simp⟩
  unfold expand
  rw [List.flatMap_append, List.append_assoc]
  congr 1
  rw [List.take_append_of_le_length (by rw [length_flatMap_bits8]; omega)]
  have hx : packed.flatMap bits8 = (packed.take k).flatMap bits8 ++ (packed.drop k).flatMap bits8 := by
    rw [← List.flatMap_append, List.take_append_drop]
  have hxl : ((packed.take k).flatMap bits8).length = 8 * k := by rw [length_flatMap_bits8, List.length_take]; omega
  rw [hx, ← hxl, List.take_left']
  rfl

end Sys2Proof.Machine
end

