-- ==== Sys2Proof/Tests/Slice0.lean ====
section
/-! SUPPORT. The model's own tests: ill-formed terms that the checks refuse, words written out from the opcode table, small
one-step tests with results from spec/95_test_vectors.md, and for every obligation with hypotheses a state and operands that meet
them all. -/

namespace Sys2Proof.Tests

-- One test after another: many evaluations side by side need a thread each, and more memory than the compile is given.
set_option Elab.async false

open Sys2Proof Sys2Proof.Machine

/-! ## Helpers -/

/-- The state right after reset with these bytes written to IN and to `IN_LEN`, and a small `IN_CAP`. -/
def loaded (o : ChildOrder) (bytes : List Byte) : State :=
  { State.reset with
    params := ⟨16, o⟩
    inMem := Space.listed 0 bytes
    inLen := BitVec.ofNat 64 bytes.length }

/-- A state that holds a tree, as BUILD leaves it, with these bytes in IN. -/
def holding (t : PrefixNode) (bytes : List Byte) : State :=
  { loaded .lastLeft bytes with
    status := 0x0E
    nleaf := BitVec.ofNat 64 t.leafCount
    tree := some t }

/-- A state in BUSY with this command running. -/
def running (w : Byte) (bytes : List Byte) : State := (loaded .lastLeft bytes).start w

/-- A state in FAULT, as vector V3 leaves it. -/
def faulted : State := (loaded .lastLeft [0x61, 0x61, 0x61, 0x61]).enterFault .singleSymbol 0x61

/-- The state a command leaves. -/
def after (i : Instr) (s : State) : State :=
  match exec i s with
  | .next u => u
  | .fault _ => s
  | .refused _ => s

/-- The state one step leaves. -/
def stepped (s : State) : State :=
  match step s with
  | .next u => u
  | .fault _ => s
  | .refused _ => s

/-- The tree of vector V12: `(a:1,(c:1,b:1):2)`. -/
def treeAbc : PrefixNode := .internal (.leaf 0x61 1) (.internal (.leaf 0x63 1) (.leaf 0x62 1))

/-- "aab". -/
def aab : List Byte := [0x61, 0x61, 0x62]

/-- The stream of vector V1. -/
def streamAab : List Byte := [0x02, 0x62, 0x02, 0x00, 0x01, 0x61, 0x00, 0xC4]

/-! ## Well-formedness: the checks refuse ill-formed terms (rules R6, R22, R92, R105) -/

theorem test_params_default : Config.defaultParams.wf = true := by decide
theorem test_params_zero_capacity : (Params.mk 0 .lastLeft).wf = false := by decide
theorem test_params_huge_capacity : (Params.mk (2 ^ 32) .lastLeft).wf = false := by decide
theorem test_word_zero_reserved : commandWordWf 0x00 = false := by decide
theorem test_word_eight_reserved : commandWordWf 0x08 = false := by decide
theorem test_transaction_bad_direction : Transaction.wf Config.defaultParams ⟨2, 0, 0, none⟩ = false := by decide
theorem test_transaction_read_with_data : Transaction.wf Config.defaultParams ⟨0, 0, 0, some 1⟩ = false := by decide
theorem test_transaction_write_without_data : Transaction.wf Config.defaultParams ⟨1, 0, 0, none⟩ = false := by decide
theorem test_transaction_no_register_ten : Transaction.wf Config.defaultParams ⟨0, 0, 10, none⟩ = false := by decide
theorem test_transaction_no_space_seven : Transaction.wf Config.defaultParams ⟨0, 7, 0, none⟩ = false := by decide
theorem test_transaction_ok : Transaction.wf Config.defaultParams ⟨1, 1, 65535, some 0x61⟩ = true := by decide

/-! ## Decoding: the words of rule R91 bit by bit, and reserved words -/

theorem test_decode_build : decodeWord 0b00000001 = .ok .build := by decide
theorem test_decode_codes : decodeWord 0b00000010 = .ok .codes := by decide
theorem test_decode_cplist : decodeWord 0b00000011 = .ok .cplist := by decide
theorem test_decode_serialize : decodeWord 0b00000100 = .ok .serialize := by decide
theorem test_decode_deserialize : decodeWord 0b00000101 = .ok .deserialize := by decide
theorem test_decode_encode : decodeWord 0b00000110 = .ok .encode := by decide
theorem test_decode_reset : decodeWord 0b00000111 = .ok .reset := by decide
theorem test_decode_reserved_low : decodeWord 0b00000000 = .error (.reservedOpcode 0x00) := by decide
theorem test_decode_reserved_eight : decodeWord 0b00001000 = .error (.reservedOpcode 0x08) := by decide
theorem test_decode_reserved_high : decodeWord 0b11111111 = .error (.reservedOpcode 0xFF) := by decide
theorem test_decode_nothing : decode [] = .error .noWord := by decide
theorem test_decode_table_word : decodeTableWord 8 0x06 = some .encode := by decide
theorem test_command_transaction : (hostCmd .encode).map encodeMove = [some ⟨1, 0, 0, some 6⟩] := by decide
theorem test_transaction_decode : decodeTransaction ⟨0, 2, 5, none⟩ = some (.read 2 5) := by decide

/-! ## Primitives (vector V20) -/

theorem test_bits8 : bits8 0x62 = [false, true, true, false, false, false, true, false] := by decide
theorem test_byte8 : byte8 [true, true, false, false, false, true, false, false] = 0xC4 := by decide
theorem test_pack : pack [true, true, false, false, false, true] = [0xC4] := by decide
theorem test_pack_nine : pack (List.replicate 9 true) = [0xFF, 0x80] := by decide
theorem test_expand : expand [0xC4] = [true, true, false, false, false, true, false, false, false] := by decide
theorem test_readField8_guard : readField8 (Reader.start (expand [0x01]) 8) = .error ⟨.corruptStream, 1⟩ := by decide
theorem test_readBit_guard : readBit (Reader.start (expand [0xC4]) 8) = .ok (false, ⟨[], 9⟩) := by decide
theorem test_readBit_end : readBit (Reader.start (expand [0xC4]) 9) = .error ⟨.corruptStream, 5⟩ := by decide

/-! ## The commands (vectors V1 to V25) -/

/-- Vector V12. -/
theorem test_build_abc :
    (after .build (loaded .lastLeft [0x61, 0x62, 0x63])).status = 0x0E ∧
      (after .build (loaded .lastLeft [0x61, 0x62, 0x63])).tree = some treeAbc := by decide +kernel

/-- Vector V7 (a), with `LAST_RIGHT`: the tie-break. -/
theorem test_build_tie :
    (after .build (loaded .lastRight [0x61, 0x61, 0x62, 0x62, 0x63, 0x64])).tree =
      some (.internal (.internal (.leaf 0x62 2) (.internal (.leaf 0x63 1) (.leaf 0x64 1))) (.leaf 0x61 2)) := by
  decide +kernel

/-- Vector V12. -/
theorem test_codes_abc :
    (after .codes (holding treeAbc [])).status = 0x1E ∧
      (after .codes (holding treeAbc [])).code.read 0x62 = some ⟨true, 2, [true, true]⟩ := by decide +kernel

/-- Vector V22 row 5. -/
theorem test_codes_sequence : (after .codes State.reset).status = 0x03 ∧ (after .codes State.reset).errInfo = 2 := by
  decide +kernel

/-- Vector V12. -/
theorem test_cplist_abc :
    (after .cplist (holding treeAbc [])).cp = [(0, ⟨1, 0x61⟩), (1, ⟨2, 0x63⟩), (2, ⟨2, 0x62⟩)] := by decide +kernel

/-- Vector V22 row 6. -/
theorem test_cplist_sequence : (after .cplist State.reset).err = 6 ∧ (after .cplist State.reset).errInfo = 3 := by
  decide +kernel

/-- Vector V13 row 3: no padding. -/
theorem test_serialize_exact :
    (after .serialize (holding treeAbc [0x61, 0x61, 0x62, 0x62, 0x63])).bitLen = 64 ∧
      (after .serialize (holding treeAbc [0x61, 0x61, 0x62, 0x62, 0x63])).outBytes =
        [0x01, 0x61, 0x02, 0x63, 0x02, 0x62, 0x00, 0x3E].map some := by decide +kernel

/-- Vector V13 row 6. -/
theorem test_serialize_missing :
    (after .serialize (holding treeAbc [0x61, 0x62, 0x64])).err = 4 ∧
      (after .serialize (holding treeAbc [0x61, 0x62, 0x64])).errInfo = 0x64 := by decide +kernel

/-- Vector V1. -/
theorem test_deserialize_aab :
    (after .deserialize (loaded .lastLeft streamAab)).status = 0xEA ∧
      (after .deserialize (loaded .lastLeft streamAab)).cursor = 62 ∧
      (after .deserialize (loaded .lastLeft streamAab)).outBytes = aab.map some := by decide +kernel

/-- Vector V18 row 8. -/
theorem test_deserialize_inconsistent :
    (after .deserialize (loaded .lastLeft [0x02, 0x61, 0x01, 0x62, 0x00])).err = 3 ∧
      (after .deserialize (loaded .lastLeft [0x02, 0x61, 0x01, 0x62, 0x00])).errInfo = 3 := by decide +kernel

/-- Vector V1. -/
theorem test_encode_aab :
    (after .encode (loaded .lastLeft aab)).status = 0x7E ∧
      (after .encode (loaded .lastLeft aab)).bitLen = 62 ∧
      (after .encode (loaded .lastLeft aab)).outBytes = streamAab.map some := by decide +kernel

/-- Vector V2: the other child order. -/
theorem test_encode_last_right :
    (after .encode (loaded .lastRight aab)).outBytes =
      [0x01, 0x61, 0x02, 0x00, 0x02, 0x62, 0x00, 0x38].map some := by decide +kernel

/-- Vector V22 row 15. -/
theorem test_reset_leaves_fault : (after .reset faulted).status = 0x00 ∧ (after .reset faulted).inLen = 0 := by
  decide +kernel

/-- Vector V22 row 16: the written value is truncated to 8 bits. -/
theorem test_reset_truncated :
    (stepped { faulted with moves := [.write 0 0 0x107] }).status = 0x00 := by decide +kernel

/-- Vector V22 row 2. -/
theorem test_illegal_command :
    (stepped { State.reset with moves := [.write 0 0 0x2A] }).err = 5 ∧
      (stepped { State.reset with moves := [.write 0 0 0x2A] }).errInfo = 0x2A := by decide +kernel

/-- The word of the opcode table is fetched and run. -/
theorem test_fetch_word :
    (stepped (State.reset.withFetchWord 8 0x02)).err = 6 ∧ (stepped (State.reset.withFetchWord 8 0x02)).moves = [] := by
  decide +kernel

/-- Vector V12: the NODE window. -/
theorem test_node_window :
    hostRead (holding treeAbc []) 4 2 = some (.node ⟨true, 0, 2, 3, 4⟩) ∧ hostRead (holding treeAbc []) 4 5 = none := by
  decide +kernel

/-- Rule R62: in BUSY every read but `STATUS` and `ID` has no value. -/
theorem test_busy_reads :
    hostRead (running 0x01 aab) 0 1 = some (.byte 0x01) ∧ hostRead (running 0x01 aab) 0 4 = none := by decide +kernel

/-- Rule R107: the expansion of `ENCODE.S` for `IN_LEN = 3` with one poll in its WAIT, and of `LOAD` and `DECODE`. -/
theorem test_hostNotation :
    hostEncodeStaged 3 1 =
        [.write 1 3 0x00, .write 0 4 4, .write 0 0 0x01, .read 0 1, .complete, .read 0 1, .write 0 0 0x04] ∧
      hostLoad [0x61, 0x62] = [.write 1 0 0x61, .write 1 1 0x62, .write 0 4 2] ∧ hostDecode = [.write 0 0 0x05] := by decide

/-! ## Witnesses: states and operands that meet the hypotheses of the obligations together, clause by clause -/

theorem loaded_ready (o : ChildOrder) (bytes : List Byte) : (loaded o bytes).ready :=
  .inl (show State.reset.phase = .idle by decide)

theorem holding_ready (t : PrefixNode) (bytes : List Byte) : (holding t bytes).ready :=
  .inr (show Status.phase 0x0E = .done by decide)

theorem test_witness_DecodeEncodeAgree : decode [0x04, 0xAA] = .ok (.serialize, [0xAA]) := by decide

/-- The three forms of the schedule; the written value is cut to its low byte. -/
theorem test_witness_StepRunsDecodedCommand :
    (loaded .lastLeft aab).ready ∧ decode [BitVec.ofNat 8 0x106] = .ok (.encode, []) ∧
      ({ loaded .lastLeft aab with moves := [.write 0 0 0x106] } : State).moves = [.write 0 0 0x106] ∧
      ({ loaded .lastLeft aab with moves := [.write 0 0 0x106, .complete, .read 0 1] } : State).moves =
        [.write 0 0 0x106, .complete, .read 0 1] ∧
      decode [BitVec.ofNat 8 7] = .ok (.reset, []) ∧
      ({ loaded .lastLeft aab with moves := [.write 0 0 7] } : State).moves = [.write 0 0 7] :=
  ⟨loaded_ready _ _, by decide, rfl, rfl, by decide, rfl⟩

/-- A state that accepts a word, the four schedules of a write (a read, a write and a reset behind it), and a running
command. -/
theorem test_witness_StartThenCompleteEqualsOneStep :
    (loaded .lastLeft aab).ready ∧ (loaded .lastLeft aab).cmd = 0 ∧ 6 % 256 ≠ 7 ∧ 8 % 256 ≠ 7 ∧
      ({ loaded .lastLeft aab with moves := [.write 0 0 6] } : State).moves = [.write 0 0 6] ∧
      ({ loaded .lastLeft aab with moves := [.write 0 0 6, .complete] } : State).moves = [.write 0 0 6, .complete] ∧
      (∀ m : Move, ({ loaded .lastLeft aab with moves := [.write 0 0 6, m] } : State).moves = [.write 0 0 6, m]) ∧
      Move.read 0 1 ≠ .complete ∧ Move.write 0 0 7 ≠ .complete ∧ Move.hardReset ≠ .complete ∧
      (running 0x06 aab).phase = .busy ∧ (running 0x06 aab).moves = [] ∧
      ({ running 0x06 aab with moves := [.complete] } : State).moves = [.complete] :=
  ⟨loaded_ready _ _, rfl, by decide, by decide, rfl, rfl, fun _ => rfl, by decide, by decide, by decide, by decide, rfl, rfl⟩

/-- Rules R25 and R216: with a read behind the write the block is BUSY after the step, and two steps later DONE. -/
theorem test_busy_interval :
    (stepped { loaded .lastLeft aab with moves := [.write 0 0 1, .read 0 1] }).phase = .busy ∧
      (stepped (stepped (stepped { loaded .lastLeft aab with moves := [.write 0 0 1, .read 0 1] }))).phase = .done := by
  decide +kernel

theorem test_witness_EveryCommandCompletes : (running 0x01 aab).cmd ≠ opcode .reset := by decide

theorem reset_statusLegal : State.reset.statusLegal := by constructor <;> decide

theorem test_witness_StepMovesStateAsListed :
    (∃ u, State.reset.statusLegal ∧ step State.reset = .next u) ∧ faulted.phase ≠ .busy ∧ faulted.moves = [] ∧
      ({ faulted with moves := [.complete] } : State).moves = [.complete] :=
  ⟨⟨_, reset_statusLegal, (step_effect State.reset).choose_spec.1⟩, by decide, rfl, rfl⟩

/-- Both ways out of FAULT. -/
theorem test_witness_FaultIsLeftByResetOnly :
    faulted.phase = .fault ∧
      (∃ u, step { faulted with moves := [.hardReset] } = .next u ∧ u.phase ≠ .fault) ∧
      ∃ u, step { faulted with moves := [.write 0 0 7] } = .next u ∧ u.phase ≠ .fault :=
  ⟨by decide, ⟨_, rfl, by decide⟩, ⟨_, rfl, by decide⟩⟩

theorem test_witness_FaultDropsCommands :
    faulted.phase = .fault ∧ Instr.encode ≠ .reset ∧ 6 % 256 ≠ 7 ∧ 8 % 256 ≠ 7 := by decide

theorem test_witness_BusyAllowsOnlyStatusAndId :
    (running 0x06 aab).phase = .busy ∧ ¬ (0 = 0 ∧ (0 = 1 ∨ 0 = 9)) ∧ ¬ (0 = 0 ∧ (2 = 1 ∨ 2 = 9)) ∧
      ¬ (1 = 0 ∧ (1 = 1 ∨ 1 = 9)) := by decide

/-- The boundary values of the reserved opcodes. -/
theorem test_witness_ReservedOpcodeFaults :
    State.reset.ready ∧ State.reset.moves = [] ∧ (0 % 256 = 0 ∨ 8 ≤ 0 % 256) ∧ (8 % 256 = 0 ∨ 8 ≤ 8 % 256) ∧
      (255 % 256 = 0 ∨ 8 ≤ 255 % 256) ∧ (256 % 256 = 0 ∨ 8 ≤ 256 % 256) :=
  ⟨.inl (by decide), rfl, by decide, by decide, by decide, by decide⟩

theorem test_witness_SequenceFaults :
    State.reset.ready ∧ Status.treeV State.reset.status = false ∧ ∃ u, exec .build State.reset = .next u :=
  ⟨.inl (by decide), by decide, (exec_effect (.inl (by decide)) .build).imp fun _ h => h.1⟩

/-- `IN_LEN` one above `IN_CAP`, without and with a tree. -/
theorem test_witness_CapacityFaults :
    ({ loaded .lastLeft [] with inLen := 17 } : State).ready ∧
      ({ loaded .lastLeft [] with inLen := 17 } : State).params.inCap < (17 : Word).toNat ∧
      ({ holding treeAbc [] with inLen := 17 } : State).ready ∧
      Status.treeV (holding treeAbc []).status = true ∧ (holding treeAbc []).tree = some treeAbc :=
  ⟨.inl (by decide), by decide, .inr (by decide), by decide, rfl⟩

theorem test_witness_MalformedStreamsAreCorruptStreams : deserialize [] = .error ⟨.corruptStream, 1⟩ := by decide +kernel

/-- The four clauses: over capacity, empty, one symbol at the least length, two symbols. -/
theorem test_witness_BuildCommand :
    (loaded .lastLeft []).params.wf = true ∧ (loaded .lastLeft []).ready ∧
      ({ loaded .lastLeft [] with inLen := 17 } : State).params.inCap < (17 : Word).toNat ∧
      (loaded .lastLeft []).inLen = 0 ∧
      ((loaded .lastLeft [0x61]).inLen.toNat ≤ 16 ∧ (loaded .lastLeft [0x61]).inLen ≠ 0 ∧
        (loaded .lastLeft [0x61]).inBytes = [0x61]) ∧
      (loaded .lastLeft [0x61, 0x62]).inBytes = [0x61, 0x62] := by decide +kernel

theorem test_witness_CodesCommand :
    State.reset.ready ∧ (holding treeAbc []).ready ∧ Status.treeV State.reset.status = false ∧ Status.treeV (holding treeAbc []).status = true ∧
      (holding treeAbc []).tree = some treeAbc ∧ (codesOf treeAbc).lookup 0x61 = some [false] ∧
      (codesOf treeAbc).lookup 0x64 = none := by decide +kernel

theorem test_witness_CplistCommand :
    State.reset.ready ∧ (holding treeAbc []).ready ∧ Status.treeV State.reset.status = false ∧ Status.treeV (holding treeAbc []).status = true ∧
      (holding treeAbc []).tree = some treeAbc := by decide

/-- The clauses on a held tree: over capacity, a missing symbol, every symbol present at `IN_LEN = IN_CAP`. -/
theorem test_witness_SerializeCommand :
    (holding treeAbc []).ready ∧ Status.treeV (holding treeAbc []).status = true ∧
      (holding treeAbc []).tree = some treeAbc ∧
      ({ holding treeAbc [] with inLen := 17 } : State).params.inCap < (17 : Word).toNat ∧
      ((holding treeAbc [0x61, 0x64]).inBytes = [0x61] ++ 0x64 :: [] ∧ (∀ y ∈ [0x61], y ∈ treeAbc.symbols) ∧
        (0x64 : Byte) ∉ treeAbc.symbols) ∧
      ((holding treeAbc (List.replicate 16 0x61)).inLen.toNat ≤ 16 ∧
        ∀ x ∈ (holding treeAbc (List.replicate 16 0x61)).inBytes, x ∈ treeAbc.symbols) := by decide +kernel

theorem test_witness_DeserializeCommand :
    ((loaded .lastLeft streamAab).ready ∧ (loaded .lastLeft streamAab).inLen.toNat ≤ 16) ∧
      16 < ({ loaded .lastLeft [] with inLen := 17 } : State).inLen.toNat ∧
      deserialize (loaded .lastLeft [0x00]).inBytes = .error ⟨.corruptStream, 2⟩ ∧
      (∃ d, deserialize (loaded .lastLeft streamAab).inBytes = .ok d ∧ d.sent = true) ∧
      ∃ d, deserialize (loaded .lastLeft [0x01, 0x61, 0x01, 0x62, 0x00]).inBytes = .ok d ∧ d.sent = false :=
  ⟨by decide, by decide, by decide +kernel, ⟨⟨.internal (.internal (.leaf 0x62 0) (.leaf 0x00 0)) (.leaf 0x61 0), aab,
    [⟨2, 0x62⟩, ⟨2, 0x00⟩, ⟨1, 0x61⟩], 62, true⟩, by decide +kernel⟩,
    ⟨⟨.internal (.leaf 0x61 0) (.leaf 0x62 0), [], [⟨1, 0x61⟩, ⟨1, 0x62⟩], 40, false⟩, by decide +kernel⟩⟩

/-- The clauses: over capacity, no byte or zero bytes only, one byte that is not zero. -/
theorem test_witness_EncodeCommand :
    (loaded .lastLeft []).params.wf = true ∧ (loaded .lastLeft []).ready ∧ (loaded .lastLeft [0x61]).ready ∧
      ({ loaded .lastLeft [] with inLen := 17 } : State).params.inCap < (17 : Word).toNat ∧
      (∀ x ∈ (loaded .lastLeft []).inBytes, x = 0) ∧ (∀ x ∈ (loaded .lastLeft [0, 0]).inBytes, x = 0) ∧
      ∃ x ∈ (loaded .lastLeft [0x61]).inBytes, x ≠ 0 := by decide +kernel

theorem test_witness_ResetCommand :
    (running 0x01 aab).phase = .busy ∧ State.reset.phase ≠ .busy ∧ (holding treeAbc []).phase ≠ .busy ∧
      faulted.phase ≠ .busy ∧ 7 % 256 = 7 ∧ 0x107 % 256 = 7 := by decide

theorem test_witness_EncodeEqualsStagedEncode :
    (loaded .lastLeft aab).params.wf = true ∧ (loaded .lastLeft aab).ready ∧ (loaded .lastLeft aab).inLen.toNat < 16 ∧
      (∃ x ∈ (loaded .lastLeft aab).inBytes, x ≠ 0) ∧
      loaded .lastLeft (aab ++ [0x00]) =
        { loaded .lastLeft aab with
          inMem := (loaded .lastLeft (aab ++ [0x00])).inMem
          inLen := (loaded .lastLeft (aab ++ [0x00])).inLen } ∧
      (loaded .lastLeft (aab ++ [0x00])).inLen = (loaded .lastLeft aab).inLen + 1 ∧
      (loaded .lastLeft (aab ++ [0x00])).inBytes = (loaded .lastLeft aab).inBytes ++ [0x00] := by decide +kernel

theorem test_witness_FrequenciesCountSymbols : aab.length < 2 ^ 64 := by decide

theorem test_witness_MergeTakesLightestLatest : 2 ≤ (seed (symbolFreq [0x61, 0x62])).length := by decide +kernel

theorem test_witness_MergeKeepsTotalWeight :
    2 ≤ (seed (symbolFreq aab)).length ∧
      build .lastLeft aab = .ok (.internal (.leaf 0x62 1) (.leaf 0x61 2)) := by decide +kernel

theorem test_witness_BuildIteratesMergeSteps :
    aab.length < 2 ^ 64 ∧ build .lastLeft aab = .ok (.internal (.leaf 0x62 1) (.leaf 0x61 2)) := by decide +kernel

theorem test_witness_BuiltTreeShape :
    aab.length < 2 ^ 64 ∧ build .lastRight aab = .ok (.internal (.leaf 0x61 2) (.leaf 0x62 1)) := by decide +kernel

theorem test_witness_BuildFailsOnlyBelowTwoSymbols :
    ([] : List Byte).length < 2 ^ 64 ∧ [(0x61 : Byte)].length < 2 ^ 64 ∧ [(0x61 : Byte), 0x62].length < 2 ^ 64 := by decide

theorem test_witness_CodesAreFreeOfPrefixes :
    lookupCode treeAbc 0x63 = some [true, false] ∧ lookupCode treeAbc 0x62 = some [true, true] ∧ (0x63 : Byte) ≠ 0x62 := by
  decide

theorem test_witness_CodePointLengthsAreCodeLengths :
    (⟨2, 0x63⟩ : CodePoint) ∈ codePoints treeAbc ∧ treeAbc.symbols.count 0x63 = 1 := by decide

/-- Vector V25. -/
theorem test_witness_DescriptorRoundTrip :
    treeAbc.isInternal = true ∧ treeAbc.leafCount ≤ 256 ∧
      rebuild [⟨2, 0x61⟩, ⟨2, 0x62⟩, ⟨2, 0x63⟩, ⟨2, 0x64⟩] =
        .ok (.internal (.internal (.leaf 0x61 0) (.leaf 0x62 0)) (.internal (.leaf 0x63 0) (.leaf 0x64 0))) := by
  decide +kernel

theorem test_witness_RebuiltTreeShape :
    (∀ c ∈ ([⟨1, 0x61⟩, ⟨1, 0x62⟩] : List CodePoint), c.len ≠ 0) ∧
      rebuild [⟨1, 0x61⟩, ⟨1, 0x62⟩] = .ok (.internal (.leaf 0x61 0) (.leaf 0x62 0)) := by decide +kernel

/-- Each of the three faults: an entry left over, a sibling that is missing, and a length below the depth (vector PRG5). -/
theorem test_witness_MalformedListsFault :
    (1 < 2 ∧ rebuild ([⟨0, 0x61⟩, ⟨1, 0x62⟩].take 1) = .ok (.leaf 0x61 0)) ∧
      rebuild ([⟨1, 0x61⟩] ++ [⟨1, 0x62⟩]) = .ok (.internal (.leaf 0x61 0) (.leaf 0x62 0)) ∧
      rebuild [⟨2, 0x61⟩, ⟨1, 0x62⟩] = .error ⟨.corruptStream, 3⟩ := by decide +kernel

/-- The second leaf of a repeated symbol too (vector V19 row 8). -/
theorem test_witness_WalkReadsOneCode :
    lookupCode treeAbc 0x63 = some [true, false] ∧
      (PrefixNode.internal (.leaf 0x61 0) (.leaf 0x61 0)).leafAt [true] = some 0x61 ∧ 0 < [true].length := by decide

/-- No entry, 256 entries and 257; a tail of seven bits. -/
theorem test_witness_ParserReadsTheDescriptor :
    (∀ c ∈ ([] : List CodePoint), c.len ≠ 0) ∧ (List.replicate 7 false).length < 8 ∧ (0x01 : Byte) ≠ 0 ∧
    (∀ c ∈ List.replicate 257 (⟨8, 0x01⟩ : CodePoint), c.len ≠ 0) ∧
      (List.replicate 256 (⟨8, 0x01⟩ : CodePoint)).length ≤ 256 ∧
      256 < (List.replicate 257 (⟨8, 0x01⟩ : CodePoint)).length := by decide +kernel

theorem test_witness_ExpandIsMostSignificantBitFirst : 7 < 8 * [(0xC4 : Byte)].length := by decide

/-- At the end, inside, seven bits left, eight bits left. -/
theorem test_witness_ReadsAreBoundsChecked :
    (expand [0x01]).length ≤ 9 ∧ (expand [0x01])[8]? = some false ∧ (expand [0x01]).length < 2 + 8 ∧
      ((expand [0x01]).drop 0).take 8 = bits8 0x01 := by decide

theorem test_witness_StreamsFitOut :
    treeAbc.leafCount ≤ 256 ∧ serialize treeAbc [0x63] = .ok ([0x01, 0x61, 0x02, 0x63, 0x02, 0x62, 0x00, 0x80], 58) ∧
      [(0x63 : Byte)].length ≤ (Params.mk 1 .lastLeft).inCap + 1 ∧ ∃ d, deserialize streamAab = .ok d :=
  ⟨by decide, by decide +kernel, by decide,
    ⟨⟨.internal (.internal (.leaf 0x62 0) (.leaf 0x00 0)) (.leaf 0x61 0), aab,
      [⟨2, 0x62⟩, ⟨2, 0x00⟩, ⟨1, 0x61⟩], 62, true⟩, by decide +kernel⟩⟩

/-- Vector V1 with its two padding bits set: 62 bits agree. -/
theorem test_witness_NothingIsReadPastTheSentinel :
    ∃ d, deserialize streamAab = .ok d ∧ d.sent = true ∧
      d.cursor ≤ 8 * [0x02, 0x62, 0x02, 0x00, 0x01, 0x61, 0x00, (0xC7 : Byte)].length ∧
      (expand [0x02, 0x62, 0x02, 0x00, 0x01, 0x61, 0x00, 0xC7]).take d.cursor = (expand streamAab).take d.cursor :=
  ⟨⟨.internal (.internal (.leaf 0x62 0) (.leaf 0x00 0)) (.leaf 0x61 0), aab,
    [⟨2, 0x62⟩, ⟨2, 0x00⟩, ⟨1, 0x61⟩], 62, true⟩, by decide +kernel⟩

theorem test_witness_DecodeInvertsEncode :
    aab.length ≤ 2 ^ 32 - 1 ∧ (∃ x ∈ aab, x ≠ 0) ∧ (0 : Byte) ∉ aab ∧ (∃ x ∈ [(0x61 : Byte), 0x00, 0x62], x ≠ 0) ∧
      ∀ x ∈ ([] : List Byte), x = 0 := by decide

/-- Vector V13 rows 1 and 3. -/
theorem test_witness_StreamWithoutSentinelKeepsItsSymbols :
    treeAbc.isInternal = true ∧ treeAbc.leafCount ≤ 256 ∧ (0x00 : Byte) ∉ [(0x61 : Byte), 0x62, 0x63] ∧
      serialize treeAbc [0x61, 0x62, 0x63] = .ok ([0x01, 0x61, 0x02, 0x63, 0x02, 0x62, 0x00, 0x70], 61) ∧
      serialize treeAbc [0x61, 0x61, 0x62, 0x62, 0x63] = .ok ([0x01, 0x61, 0x02, 0x63, 0x02, 0x62, 0x00, 0x3E], 64) ∧
      64 % 8 = 0 := by decide +kernel

/-- Vector V1. -/
theorem test_witness_EncodeThenDeserializeRestoresInput :
    (loaded .lastLeft aab).params.wf = true ∧ (loaded .lastLeft aab).ready ∧ (loaded .lastLeft streamAab).ready ∧ (loaded .lastLeft aab).inLen.toNat ≤ 16 ∧
      (loaded .lastLeft aab).inBytes ≠ [] ∧ (0x00 : Byte) ∉ (loaded .lastLeft aab).inBytes ∧
      (loaded .lastLeft streamAab).inLen = (after .encode (loaded .lastLeft aab)).outLen ∧
      (loaded .lastLeft streamAab).inLen.toNat ≤ 16 ∧
      (loaded .lastLeft streamAab).inBytes.map some = (after .encode (loaded .lastLeft aab)).outBytes := by decide +kernel

theorem test_witness_ResultsDependOnInputAlone :
    ∃ u u', (loaded .lastLeft aab).ready ∧ (holding treeAbc aab).ready ∧
      (loaded .lastLeft aab).params = (holding treeAbc aab).params ∧
      (loaded .lastLeft aab).inLen = (holding treeAbc aab).inLen ∧
      (loaded .lastLeft aab).inBytes = (holding treeAbc aab).inBytes ∧
      exec .encode (loaded .lastLeft aab) = .next u ∧ exec .encode (holding treeAbc aab) = .next u' :=
  ⟨_, _, loaded_ready _ _, holding_ready _ _, rfl, rfl, rfl, (exec_effect (loaded_ready _ _) .encode).choose_spec.1,
    (exec_effect (holding_ready _ _) .encode).choose_spec.1⟩

theorem test_witness_ReadsHaveNoSideEffect :
    ({ State.reset with moves := [.read 0 9, .hardReset] } : State).moves = .read 0 9 :: [.hardReset] := rfl

/-- The last byte of IN, the index behind it, a register that is read-only, and a space that is. -/
theorem test_witness_WritesReachInAndInLenOnly :
    ({ loaded .lastLeft [] with moves := [.write 1 15 0x161] } : State).moves = [.write 1 15 0x161] ∧
    (loaded .lastLeft []).phase ≠ .busy ∧ 15 < (loaded .lastLeft []).params.inCap ∧
      (¬ (1 = 0 ∧ (16 = 0 ∨ 16 = 4)) ∧ ¬ (1 = 1 ∧ 16 < (loaded .lastLeft []).params.inCap)) ∧
      (¬ (0 = 0 ∧ (1 = 0 ∨ 1 = 4)) ∧ ¬ (0 = 1 ∧ 1 < (loaded .lastLeft []).params.inCap)) ∧
      (¬ (2 = 0 ∧ (0 = 0 ∨ 0 = 4)) ∧ ¬ (2 = 1 ∧ 0 < (loaded .lastLeft []).params.inCap)) := ⟨rfl, by decide⟩

theorem test_witness_RegisterReads : State.reset.phase ≠ .busy ∧ 10 ≤ 10 := by decide

/-- Every clause, the lengths at their boundary. -/
theorem loaded_inv (o : ChildOrder) (bytes : List Byte) (h : bytes.length ≤ 16) : (loaded o bytes).Inv := by
  have hr := State.toReset_inv { State.reset with params := ⟨16, o⟩ } (by cases o <;> decide)
  refine ⟨{ hr.spaces with
    inForm := Space.wf_listed 0 bytes
    inBound := ?_ }, { hr.status with }, { hr.tree with }, { hr.results with }⟩
  intro c hc
  have := (Space.mem_listed hc).2
  show c.1 < 16
  omega

theorem test_witness_InvalidReadsHaveNoValue :
    Status.freqV State.reset.status = false ∧ Status.treeV State.reset.status = false ∧
      Status.codeV State.reset.status = false ∧ Status.cpV State.reset.status = false ∧
      Status.outV State.reset.status = false ∧ (holding treeAbc []).outLen.toNat ≤ 0 ∧
      (holding treeAbc []).nleaf.toNat ≤ 3 ∧ 2 * (holding treeAbc []).nleaf.toNat - 1 ≤ 5 ∧ 7 ≤ 7 ∧
      (loaded .lastLeft aab).params.inCap ≤ 16 ∧ 256 ≤ 256 ∧ 511 ≤ 511 ∧ 10 ≤ 10 ∧ (loaded .lastLeft aab).Inv ∧
      (loaded .lastLeft aab).params.outCap ≤ 1057 :=
  ⟨by decide, by decide, by decide, by decide, by decide, by decide, by decide, by decide, by decide, by decide, by decide,
    by decide, by decide, loaded_inv _ _ (by decide), by decide⟩

/-- A state of the invariant in which every table may be read, at its last element. -/
theorem test_witness_ValidReadsHaveValues :
    ∃ s : State, s.Inv ∧ s.phase ≠ .busy ∧ Status.freqV s.status = true ∧ Status.treeV s.status = true ∧
      Status.codeV s.status = true ∧ Status.cpV s.status = true ∧ Status.outV s.status = true ∧ 255 < 256 ∧
      4 < 2 * s.nleaf.toNat - 1 ∧ 2 < s.nleaf.toNat ∧ 7 < s.outLen.toNat ∧ 15 < s.params.inCap := by
  obtain ⟨u, hu, he⟩ := exec_effect (loaded_ready .lastLeft aab) .encode
  have hI := he.keeps_inv (loaded_ready _ _) (loaded_inv _ _ (by decide))
  have ha : after .encode (loaded .lastLeft aab) = u := by rw [after, hu]
  exact ⟨u, hI, by rw [← ha]; decide +kernel⟩

theorem test_witness_NodeWindowIsPreOrder :
    treeAbc.leafCount ≤ 256 ∧ (holding treeAbc []).phase ≠ .busy ∧ Status.treeV (holding treeAbc []).status = true ∧
      (holding treeAbc []).tree = some treeAbc ∧ (holding treeAbc []).nleaf = BitVec.ofNat 64 treeAbc.leafCount := by decide

theorem test_witness_HardwareResetFromAnyState :
    ({ running 0x01 aab with moves := [.hardReset] } : State).moves = .hardReset :: [] ∧
      ({ faulted with moves := [.hardReset] } : State).moves = .hardReset :: [] ∧ faulted.phase ≠ .busy :=
  ⟨rfl, rfl, by decide⟩

theorem test_witness_FaultEntryWritesTheFaultState : 2 ≤ 2 := by decide

theorem test_witness_StepKeepsMemoryForm :
    ∃ u, step (loaded .lastLeft aab) = .next u ∧ Memory.wf (loaded .lastLeft aab).inMem ∧
      Memory.wf (loaded .lastLeft aab).outMem :=
  ⟨_, (step_effect _).choose_spec.1, Space.wf_listed 0 aab, Space.wf_nil⟩

theorem test_witness_StepKeepsStatusLegal : ∃ u, step State.reset = .next u ∧ State.reset.statusLegal :=
  ⟨_, (step_effect _).choose_spec.1, reset_statusLegal⟩

/-- A step that carries a command out, from a state of the invariant. -/
theorem test_witness_StepKeepsInvariant :
    ∃ u, step { loaded .lastLeft aab with moves := [.write 0 0 6] } = .next u ∧
      ({ loaded .lastLeft aab with moves := [.write 0 0 6] } : State).Inv :=
  ⟨_, (step_effect _).choose_spec.1, State.moves_inv (loaded_inv _ _ (by decide)) _⟩

end Sys2Proof.Tests
end

/-! PROOFS. Independence (spec/00_scope.md rule R15): what a host can read of the results of ENCODE and DESERIALIZE is
determined by the parameters and `IN[0..IN_LEN)`. A command stores over old contents, so two such states need not be
equal: they agree where a valid flag and a length let the host read. -/

namespace Sys2Proof.Machine

/-- The two states give a command the same parameters and the same operand `IN[0..IN_LEN)` (rule R70). -/
structure State.SameInput (s s' : State) : Prop where
  params : s.params = s'.params
  inLen : s.inLen = s'.inLen
  inBytes : s.inBytes = s'.inBytes

/-- The two states agree in the tree, in every register the host reads, and in the elements of OUT, FREQ, CODE and CP that
are valid and within their length (rule R26). -/
structure State.SameResults (u u' : State) : Prop where
  status : u.status = u'.status
  err : u.err = u'.err
  errInfo : u.errInfo = u'.errInfo
  inLen : u.inLen = u'.inLen
  outLen : u.outLen = u'.outLen
  bitLen : u.bitLen = u'.bitLen
  cursor : u.cursor = u'.cursor
  nleaf : u.nleaf = u'.nleaf
  tree : u.tree = u'.tree
  out : ∀ k, Status.outV u'.status = true → k < u'.outLen.toNat → u.outMem.read k = u'.outMem.read k
  freq : ∀ k, Status.freqV u'.status = true → k < Config.symbolCount → u.freq.read k = u'.freq.read k
  code : ∀ k, Status.codeV u'.status = true → k < Config.symbolCount → u.code.read k = u'.code.read k
  cp : ∀ k, Status.cpV u'.status = true → k < u'.nleaf.toNat → u.cp.read k = u'.cp.read k

/-! ## What the host reads of agreeing states -/

/-- A table read looks at the space only where the flag and the length allow it. -/
theorem readValid_congr {α : Type} {wrap : α → Value} {valid : Bool} {n k : Nat} {m m' : Space α}
    (h : valid = true → k < n → m.read k = m'.read k) : readValid wrap valid n m k = readValid wrap valid n m' k := by
  unfold readValid
  split
  next hv =>
    obtain ⟨hvalid, hk⟩ := Bool.and_eq_true_iff.1 hv
    rw [h hvalid (of_decide_eq_true hk)]
  next => rfl

theorem State.SameResults.readRegister_eq {u u' : State} (h : u.SameResults u') (k : Nat) :
    readRegister u k = readRegister u' k := by
  unfold readRegister
  rw [h.status, h.err, h.errInfo, h.inLen, h.outLen, h.bitLen, h.cursor, h.nleaf]

theorem State.SameResults.readNode_eq {u u' : State} (h : u.SameResults u') (k : Nat) :
    readNode u k = readNode u' k := by
  unfold readNode
  rw [h.tree, h.status, h.nleaf]

theorem State.SameResults.memRead_eq {u u' : State} (h : u.SameResults u') {space : Nat} (hs : space ≠ 1) (k : Nat) :
    memRead u space k = memRead u' space k := by
  unfold memRead
  rw [h.status, h.outLen, h.nleaf]
  split
  · exact h.readRegister_eq k
  · exact absurd rfl hs
  · exact readValid_congr (h.out k)
  · exact readValid_congr (h.freq k)
  · exact h.readNode_eq k
  · exact readValid_congr (h.code k)
  · exact readValid_congr (h.cp k)
  · rfl

theorem State.SameResults.hostRead_eq {u u' : State} (h : u.SameResults u') {space : Nat} (hs : space ≠ 1) (k : Nat) :
    hostRead u space k = hostRead u' space k := by
  unfold hostRead State.phase
  rw [h.status, h.memRead_eq hs k]

/-! ## What the commands leave in states with the same input -/

/-- Below its length a stored list hides the old contents. -/
theorem Space.read_store_congr {α : Type} (m m' : Space α) {xs : List α} {k : Nat} (h : k < xs.length) :
    (m.store xs).read k = (m'.store xs).read k := by
  rw [Space.read_store, Space.read_store, if_pos h, if_pos h]

/-- A length register never shows more than the length, even where 64 bits cut it. -/
theorem lt_of_lt_toNat_ofNat {k n : Nat} (h : k < (BitVec.ofNat 64 n).toNat) : k < n :=
  Nat.lt_of_lt_of_le h (BitVec.toNat_ofNat n 64 ▸ Nat.mod_le _ _)

theorem State.enterFault_sameResults {s s' : State} (h : s.inLen = s'.inLen) (kind : FaultKind) (info : Word) :
    (s.enterFault kind info).SameResults (s'.enterFault kind info) where
  status := rfl
  err := rfl
  errInfo := rfl
  inLen := h
  outLen := rfl
  bitLen := rfl
  cursor := rfl
  nleaf := rfl
  tree := rfl
  out _ _ _ := rfl
  freq _ _ _ := rfl
  code _ _ _ := rfl
  cp _ _ _ := rfl

theorem State.withEncoded_sameResults {s s' : State} (h : s.inLen = s'.inLen) (xs : List Byte) (t : PrefixNode)
    (bytes : List Byte) (n : Nat) : (s.withEncoded xs t bytes n).SameResults (s'.withEncoded xs t bytes n) where
  status := rfl
  err := rfl
  errInfo := rfl
  inLen := h
  outLen := rfl
  bitLen := rfl
  cursor := rfl
  nleaf := rfl
  tree := rfl
  out _ _ hk := Space.read_store_congr _ _ (lt_of_lt_toNat_ofNat hk)
  freq _ _ hk := Space.read_store_congr _ _ (hk.trans_eq (length_freqTable xs).symm)
  code _ _ hk := Space.read_store_congr _ _ (hk.trans_eq (length_codeTable t).symm)
  cp _ _ hk := Space.read_store_congr _ _ ((lt_of_lt_toNat_ofNat hk).trans_eq (length_codePoints t).symm)

/-- DESERIALIZE does not store FREQ and CODE, and clears their flags. -/
theorem State.withDecoded_sameResults {s s' : State} (h : s.inLen = s'.inLen) (d : Decoded) :
    (s.withDecoded d).SameResults (s'.withDecoded d) where
  status := rfl
  err := rfl
  errInfo := rfl
  inLen := h
  outLen := rfl
  bitLen := by rw [State.withDecoded_bitLen, State.withDecoded_bitLen, h]
  cursor := rfl
  nleaf := rfl
  tree := rfl
  out _ _ hk := Space.read_store_congr _ _ (lt_of_lt_toNat_ofNat hk)
  freq _ hv _ := by simp at hv
  code _ hv _ := by simp at hv
  cp _ _ hk := Space.read_store_congr _ _ (lt_of_lt_toNat_ofNat hk)

theorem State.SameInput.needCapacity_eq {s s' : State} (h : s.SameInput s') : needCapacity s = needCapacity s' := by
  unfold needCapacity
  rw [h.params, h.inLen]

theorem State.SameInput.runEncode_sameResults {s s' : State} (h : s.SameInput s') :
    (s.settle (runEncode s)).SameResults (s'.settle (runEncode s')) := by
  unfold runEncode
  rw [h.needCapacity_eq, h.params, h.inBytes]
  cases needCapacity s' with
  | error e => exact State.enterFault_sameResults h.inLen e.kind e.info
  | ok =>
    cases encodeBytes s'.params.childOrder s'.inBytes with
    | error e => exact State.enterFault_sameResults h.inLen e.kind e.info
    | ok r => exact State.withEncoded_sameResults h.inLen (withSentinel s'.inBytes) r.1 r.2.1 r.2.2

theorem State.SameInput.runDeserialize_sameResults {s s' : State} (h : s.SameInput s') :
    (s.settle (runDeserialize s)).SameResults (s'.settle (runDeserialize s')) := by
  unfold runDeserialize
  rw [h.needCapacity_eq, h.inBytes]
  cases needCapacity s' with
  | error e => exact State.enterFault_sameResults h.inLen e.kind e.info
  | ok =>
    cases deserialize s'.inBytes with
    | error e => exact State.enterFault_sameResults h.inLen e.kind e.info
    | ok d => exact State.withDecoded_sameResults h.inLen d

/-- Accepting states whose own work settles to agreeing results leave agreeing results. -/
theorem exec_sameResults {i : Instr} (hi : i ≠ .reset) {s s' u u' : State} (hr : s.ready) (hr' : s'.ready)
    (h : (s.settle (ownWork i s)).SameResults (s'.settle (ownWork i s'))) (hu : exec i s = .next u)
    (hu' : exec i s' = .next u') : u.SameResults u' := by
  rw [exec_of_ownWork hr hi rfl] at hu
  rw [exec_of_ownWork hr' hi rfl] at hu'
  cases hu
  cases hu'
  exact h

/-- Settles O48: both commands compute from the input alone, and what they leave of the old contents is out of the host's
reach. -/
theorem resultsDependOnInputAlone : Obligations.ResultsDependOnInputAlone := by
  unfold Obligations.ResultsDependOnInputAlone
  intro s s' u u' i hi hr hr' hp hl hb hu hu'
  have hin : s.SameInput s' := ⟨hp, hl, hb⟩
  have hres : u.SameResults u' := by
    rcases hi with rfl | rfl
    · exact exec_sameResults (i := .encode) (by decide) hr hr' hin.runEncode_sameResults hu hu'
    · exact exec_sameResults (i := .deserialize) (by decide) hr hr' hin.runDeserialize_sameResults hu hu'
  exact ⟨hres.tree, fun space k hs => hres.hostRead_eq hs k⟩

end Sys2Proof.Machine

/-! PROOFS. The state (spec/10_state.md): what every step keeps (the canonical form of the memories, the agreement of the
registers, the invariant), how `STATE` moves, and what the host reads of the registers, of NODE and of elements that are
not valid. -/

namespace Sys2Proof.Machine

/-! ## Properties that every step keeps -/

/-- Every update a step is made of keeps `P`: the use of a move, a reply, a host write, the start and the release of a
command, a fault, the effect of a command, a reset. -/
structure KeptByUpdates (P : State → Prop) : Prop where
  moves : ∀ s later, P s → P { s with moves := later }
  reply : ∀ s space i, P s → P (s.afterRead space i)
  write : ∀ s space i v, P s → P (memWrite s space i v)
  start : ∀ s w, P s → s.ready → w ≠ opcode .reset → P (s.start w)
  release : ∀ s, P s → s.phase = .busy → P s.release
  fault : ∀ s kind info, P s → s.ready → P (s.enterFault kind info)
  effect : ∀ s i u, P s → s.ready → Effect s i u → P u
  reset : ∀ s, P s → P s.toReset

theorem KeptByUpdates.keeps_execWord {P : State → Prop} (hP : KeptByUpdates P) {s u : State} {w : Byte}
    (hu : execWord w s = .next u) (hr : s.ready) (hs : P s) : P u := by
  rcases execWord_cases w s with ⟨i, _, e⟩ | ⟨_, e⟩
  · obtain ⟨u', hu', he⟩ := exec_effect hr i
    rw [hu, hu'] at e
    cases e
    exact hP.effect s i u hs hr he
  · rw [hu, runCommand_ready hr] at e
    cases e
    exact hP.fault s _ _ hs hr

/-- What the updates keep, a step keeps. -/
theorem KeptByUpdates.keeps_step {P : State → Prop} (hP : KeptByUpdates P) {s u : State} (hu : step s = .next u)
    (hs : P s) : P u := by
  have hmoves := fun later => hP.moves s later hs
  cases step_effect_of hu with
  | waited later => exact hmoves later
  | answered later space i => exact hP.reply _ space i (hmoves later)
  | written later space i v hp => exact hP.write _ space i v (hmoves later)
  | started later w hr hw hm => exact hP.start _ w (hmoves later) hr hw
  | ran later w u hr hw hx hm => exact hP.keeps_execWord hx hr (hmoves later)
  | completed later u hp hx hm => exact hP.keeps_execWord hx (State.release_ready _) (hP.release _ (hmoves later) hp)
  | commandReset later v hp hm hv => exact hP.reset _ (hmoves later)
  | hardwareReset later hm => exact hP.reset _ (hmoves later)

theorem State.ready.ne_busy {s : State} (h : s.ready) : s.phase ≠ .busy := by
  rcases h with h | h <;> rw [h] <;> decide

theorem State.ready.ne_fault {s : State} (h : s.ready) : s.phase ≠ .fault := by
  rcases h with h | h <;> rw [h] <;> decide

/-! ## The invariant -/

theorem State.inv_kept : KeptByUpdates State.Inv where
  moves _ later h := State.moves_inv h later
  reply _ space i h := State.afterRead_inv h space i
  write _ space i v h := memWrite_inv h space i v
  start _ _ h hr hw := State.start_inv h hr hw
  release _ h hb := State.release_inv h hb
  fault _ kind info h hr := State.enterFault_inv kind info h (h.status.latch hr.ne_busy)
  effect _ _ _ h hr he := he.keeps_inv hr h
  reset s h := State.toReset_inv s h.spaces.params

/-- Settles O60: each update of the state keeps the invariant, and a step is made of updates. -/
theorem stepKeepsInvariant : Obligations.StepKeepsInvariant := by
  unfold Obligations.StepKeepsInvariant
  exact fun s u hu hs => State.inv_kept.keeps_step hu hs

/-! ## How `STATE` moves -/

@[simp] theorem memWrite_status (s : State) (space i v : Nat) : (memWrite s space i v).status = s.status := by
  unfold memWrite
  split
  · rfl
  · split <;> rfl

theorem memWrite_phase (s : State) (space i v : Nat) : (memWrite s space i v).phase = s.phase :=
  congrArg Status.phase (memWrite_status s space i v)

/-- A reset leaves every bit of STATUS 0, so `STATE` is IDLE. -/
theorem State.toReset_phase (s : State) : s.toReset.phase = .idle := rfl

theorem State.start_phase (s : State) (w : Byte) : (s.start w).phase = .busy := Status.phase_withPhase _ _

theorem State.enterFault_phase (s : State) (kind : FaultKind) (info : Word) : (s.enterFault kind info).phase = .fault :=
  Status.phase_make ..

/-- A command other than RESET completes in DONE or faults (rule R25). -/
theorem Effect.phase_done_or_fault {s u : State} {i : Instr} (h : Effect s i u) (hi : i ≠ .reset) :
    u.phase = .done ∨ u.phase = .fault := by
  cases h with
  | faulted i _ e _ => exact .inr (State.enterFault_phase s e.kind e.info)
  | reset => exact absurd rfl hi
  | built | coded | listed | serialized | decoded | encoded => exact .inl (Status.phase_make ..)

theorem execWord_phase_done_or_fault {s u : State} {w : Byte} (hu : execWord w s = .next u) (hr : s.ready)
    (hw : w ≠ opcode .reset) : u.phase = .done ∨ u.phase = .fault := by
  obtain ⟨u', hu', h⟩ := execWord_ready hr w hw
  cases hu.symm.trans hu'
  rcases h with ⟨i, hi, _, he⟩ | rfl
  · exact he.phase_done_or_fault hi
  · exact .inr (State.enterFault_phase _ _ _)

/-- Outside BUSY the block has no move of its own (rules R251 and R275). -/
theorem blockMove_of_not_busy {s : State} (h : s.phase ≠ .busy) : blockMove s = .next s := by
  unfold blockMove
  split
  next hb => exact absurd hb h
  next => rfl

/-- Settles O7: each thing a step can do moves `STATE` along one of the listed transitions. -/
theorem stepMovesStateAsListed : Obligations.StepMovesStateAsListed := by
  unfold Obligations.StepMovesStateAsListed
  refine ⟨fun s u hs hu => ?_, fun s hp => ⟨fun hm => ?_, fun later hm => ?_⟩⟩
  · cases step_effect_of hu with
    | waited later => exact .inl rfl
    | answered later space i => exact .inl rfl
    | written later space i v hp => exact .inl (memWrite_phase _ space i v)
    | started later w hr hw hm =>
      obtain ⟨v, rfl, hm⟩ := hm
      exact .inr (.inl ⟨hr, ⟨v, later, hm, mt (ofNat_eq_reset v).2 hw⟩, .inl (State.start_phase _ _)⟩)
    | ran later w u hr hw hx hm =>
      obtain ⟨v, rest, rfl, hm⟩ := hm
      exact .inr (.inl ⟨hr, ⟨v, rest, hm, mt (ofNat_eq_reset v).2 hw⟩, .inr (execWord_phase_done_or_fault hx hr hw)⟩)
    | completed later u hp hx hm =>
      have hmoves : s.moves = [] ∨ ∃ later, s.moves = .complete :: later := hm.imp_right fun h => ⟨later, h⟩
      exact .inr (.inr (.inl ⟨hp, hmoves, execWord_phase_done_or_fault hx (State.release_ready _) (hs.running hp)⟩))
    | commandReset later v hp hm hv =>
      exact .inr (.inr (.inr (.inr ⟨hp, State.toReset_phase _, v, later, hm, hv⟩)))
    | hardwareReset later hm => exact .inr (.inr (.inr (.inl ⟨State.toReset_phase _, later, hm⟩)))
  · unfold step
    rw [hm]
    exact blockMove_of_not_busy hp
  · unfold step
    rw [hm]
    exact blockMove_of_not_busy (s := { s with moves := later }) hp

/-! ## The canonical form of the memories -/

/-- Both memories are in canonical form, and the parameters are `p`. -/
def State.memoryForm (p : Params) (s : State) : Prop := Memory.wf s.inMem ∧ Memory.wf s.outMem ∧ s.params = p

theorem memWrite_memoryForm {p : Params} {s : State} (h : s.memoryForm p) (space i v : Nat) :
    (memWrite s space i v).memoryForm p := by
  obtain ⟨hin, hout, hp⟩ := h
  unfold memWrite
  split
  · exact ⟨hin, hout, hp⟩
  · split
    · exact ⟨Space.wf_write hin _ _, hout, hp⟩
    · exact ⟨hin, hout, hp⟩

/-- No command but RESET writes IN; a command clears OUT, stores into it or leaves it. -/
theorem Effect.keeps_memoryForm {p : Params} {s u : State} {i : Instr} (h : Effect s i u) (hs : s.memoryForm p) :
    u.memoryForm p := by
  obtain ⟨hin, hout, hp⟩ := hs
  cases h with
  | faulted => exact ⟨hin, Space.wf_nil, hp⟩
  | built | coded | listed => exact ⟨hin, hout, hp⟩
  | serialized | decoded | encoded => exact ⟨hin, Space.wf_store hout _, hp⟩
  | reset => exact ⟨Space.wf_nil, Space.wf_nil, hp⟩

theorem State.memoryForm_kept (p : Params) : KeptByUpdates (State.memoryForm p) where
  moves _ _ h := h
  reply _ _ _ h := h
  write _ space i v h := memWrite_memoryForm h space i v
  start _ _ h _ _ := h
  release _ h _ := h
  fault _ _ _ := fun ⟨hin, _, hp⟩ _ => ⟨hin, Space.wf_nil, hp⟩
  effect _ _ _ h _ he := he.keeps_memoryForm h
  reset _ := fun ⟨_, _, hp⟩ => ⟨Space.wf_nil, Space.wf_nil, hp⟩

/-- Settles O58: the updates write IN and OUT by the operations that keep the canonical form. -/
theorem stepKeepsMemoryForm : Obligations.StepKeepsMemoryForm := by
  unfold Obligations.StepKeepsMemoryForm
  exact fun s u hu hin hout => (State.memoryForm_kept s.params).keeps_step hu ⟨hin, hout, rfl⟩

/-! ## The agreement of `STATUS`, `ERR`, `ERRINFO` and `CMD` -/

theorem memWrite_statusLegal {s : State} (h : s.statusLegal) (space i v : Nat) : (memWrite s space i v).statusLegal := by
  unfold memWrite
  split
  · exact { h with }
  · split
    · exact { h with }
    · exact h

theorem State.start_statusLegal {s : State} (h : s.statusLegal) (hr : s.ready) {w : Byte} (hw : w ≠ opcode .reset) :
    (s.start w).statusLegal where
  fault hp := nomatch (State.start_phase s w).symm.trans hp
  noFault _ := h.noFault hr.ne_fault
  idle hp := nomatch (State.start_phase s w).symm.trans hp
  latch hp := absurd (State.start_phase s w) hp
  running _ := hw
  sent := by simpa using h.sent
  noOut := by simpa using h.noOut

/-- In DONE the registers agree when no error and no command is recorded and the OUT fields agree. -/
theorem State.statusLegal_of_done {u : State} (hp : u.phase = .done) (he : u.err = 0 ∧ u.errInfo = 0) (hc : u.cmd = 0)
    (hs : Status.sent u.status = true → Status.outV u.status = true)
    (ho : Status.outV u.status = false → u.outLen = 0 ∧ u.bitLen = 0 ∧ u.cursor = 0) : u.statusLegal where
  fault h := nomatch hp.symm.trans h
  noFault _ := he
  idle h := nomatch hp.symm.trans h
  latch _ := hc
  running h := nomatch hp.symm.trans h
  sent := hs
  noOut := ho

theorem State.release_statusLegal {s : State} (h : s.statusLegal) (hb : s.phase = .busy) : s.release.statusLegal :=
  State.statusLegal_of_done (Status.phase_withPhase _ _) (h.noFault (by rw [hb]; decide)) rfl
    (by simpa using h.sent) (by simpa using h.noOut)

theorem State.enterFault_statusLegal {s : State} (hc : s.cmd = 0) (kind : FaultKind) (info : Word) :
    (s.enterFault kind info).statusLegal where
  fault _ := ⟨rfl, kind.code_bounds⟩
  noFault hp := absurd (State.enterFault_phase s kind info) hp
  idle hp := nomatch (State.enterFault_phase s kind info).symm.trans hp
  latch _ := hc
  running hp := nomatch (State.enterFault_phase s kind info).symm.trans hp
  sent hs := by simp at hs
  noOut _ := ⟨rfl, rfl, rfl⟩

theorem State.toReset_statusLegal (s : State) : s.toReset.statusLegal where
  fault hp := nomatch (State.toReset_phase s).symm.trans hp
  noFault _ := ⟨rfl, rfl⟩
  idle _ := rfl
  latch _ := rfl
  running hp := nomatch (State.toReset_phase s).symm.trans hp
  sent hs := by simp [Status.sent] at hs
  noOut _ := ⟨rfl, rfl, rfl⟩

/-- CODES and CPLIST keep the OUT fields, BUILD clears them, and the other commands set `OUT_V`. -/
theorem Effect.keeps_statusLegal {s u : State} {i : Instr} (h : Effect s i u) (hr : s.ready) (hs : s.statusLegal) :
    u.statusLegal := by
  have hc := hs.latch hr.ne_busy
  cases h with
  | faulted i _ e _ => exact State.enterFault_statusLegal hc e.kind e.info
  | built =>
    exact State.statusLegal_of_done (Status.phase_make ..) ⟨rfl, rfl⟩ hc (by simp) fun _ => ⟨rfl, rfl, rfl⟩
  | coded | listed =>
    exact State.statusLegal_of_done (Status.phase_make ..) ⟨rfl, rfl⟩ hc (by simpa using hs.sent)
      (by simpa using hs.noOut)
  | serialized | decoded | encoded =>
    exact State.statusLegal_of_done (Status.phase_make ..) ⟨rfl, rfl⟩ hc (by simp) (by simp)
  | reset => exact State.toReset_statusLegal s

theorem State.statusLegal_kept : KeptByUpdates State.statusLegal where
  moves _ _ h := { h with }
  reply _ _ _ h := { h with }
  write _ space i v h := memWrite_statusLegal h space i v
  start _ _ h hr hw := State.start_statusLegal h hr hw
  release _ h hb := State.release_statusLegal h hb
  fault _ kind info h hr := State.enterFault_statusLegal (h.latch hr.ne_busy) kind info
  effect _ _ _ h hr he := he.keeps_statusLegal hr h
  reset s _ := State.toReset_statusLegal s

/-- Settles O59: each update keeps the agreement, without the rest of the invariant. -/
theorem stepKeepsStatusLegal : Obligations.StepKeepsStatusLegal := by
  unfold Obligations.StepKeepsStatusLegal
  exact fun s u hu hs => State.statusLegal_kept.keeps_step hu hs

/-! ## Host reads -/

theorem hostRead_of_not_busy {s : State} (h : s.phase ≠ .busy) (space i : Nat) : hostRead s space i = memRead s space i := by
  unfold hostRead
  split
  next hb => exact absurd hb h
  next => rfl

/-- BUSY gives no element a value that it has not in the other phases. -/
theorem hostRead_eq_none {s : State} {space i : Nat} (h : memRead s space i = none) : hostRead s space i = none := by
  unfold hostRead
  split
  · split
    · exact h
    · rfl
  · exact h

theorem readRegister_beyond (s : State) {i : Nat} (h : 10 ≤ i) : readRegister s i = none := by
  obtain ⟨k, rfl⟩ := Nat.exists_eq_add_of_le' h
  rfl

theorem memRead_absent_space (s : State) {space : Nat} (h : 7 ≤ space) (i : Nat) : memRead s space i = none := by
  obtain ⟨k, rfl⟩ := Nat.exists_eq_add_of_le' h
  rfl

theorem readValid_invalid {α : Type} {valid : Bool} (h : valid = false) (wrap : α → Value) (n : Nat) (m : Space α)
    (i : Nat) : readValid wrap valid n m i = none := by
  simp [readValid, h]

theorem readValid_beyond {α : Type} (wrap : α → Value) (valid : Bool) {n i : Nat} (m : Space α) (h : n ≤ i) :
    readValid wrap valid n m i = none := by
  simp [readValid, Nat.not_lt.2 h]

theorem readNode_invalid {s : State} (h : Status.treeV s.status = false) (i : Nat) : readNode s i = none := by
  unfold readNode
  split
  · simp [h]
  · rfl

theorem readNode_beyond {s : State} {i : Nat} (h : 2 * s.nleaf.toNat - 1 ≤ i) : readNode s i = none := by
  unfold readNode
  split
  · simp [Nat.not_lt.2 h]
  · rfl

theorem PrefixNode.length_flatten (t : PrefixNode) : t.flatten.length = 2 * t.leafCount - 1 := by
  rw [PrefixNode.flatten, PrefixNode.length_flattenFrom, PrefixNode.size_eq]

/-- The nodes of a held tree are as many as `NLEAF` makes readable, so NODE shows the flattened tree whole. -/
theorem readNode_held {s : State} {t : PrefixNode} (hv : Status.treeV s.status = true) (ht : s.tree = some t)
    (hn : s.nleaf.toNat = t.leafCount) (i : Nat) : readNode s i = (t.flatten[i]?).map .node := by
  by_cases hi : i < 2 * t.leafCount - 1
  · simp [readNode, ht, hv, hn, hi]
  · have hlen : t.flatten.length ≤ i := by rw [t.length_flatten]; omega
    rw [readNode_beyond (by omega), List.getElem?_eq_none hlen, Option.map_none]

/-- `NLEAF` is the number of leaves of a tree the block can hold, or 0. -/
theorem State.treeLegal.nleaf_le {s : State} (h : s.treeLegal) : s.nleaf.toNat ≤ 256 := by
  cases ht : s.tree with
  | none => simp [h.empty ht]
  | some t =>
    obtain ⟨hn, _, hl, _⟩ := h.held t ht
    rw [hn, BitVec.toNat_ofNat]
    exact (Nat.mod_le _ _).trans hl

/-- Settles O51: outside BUSY the host reads the registers as they are. -/
theorem registerReads : Obligations.RegisterReads := by
  unfold Obligations.RegisterReads
  intro s hp
  simp only [hostRead_of_not_busy hp]
  exact ⟨rfl, rfl, rfl, rfl, rfl, rfl, rfl, rfl, rfl, rfl, fun i hi => readRegister_beyond s hi⟩

/-- Settles O52: each read stops at its flag, at its length or at its capacity. -/
theorem invalidReadsHaveNoValue : Obligations.InvalidReadsHaveNoValue := by
  unfold Obligations.InvalidReadsHaveNoValue
  intro s i
  have hout (h : s.outLen.toNat ≤ i) : hostRead s 2 i = none := hostRead_eq_none (readValid_beyond _ _ _ h)
  have hcp (h : s.nleaf.toNat ≤ i) : hostRead s 6 i = none := hostRead_eq_none (readValid_beyond _ _ _ h)
  have hnode (h : 2 * s.nleaf.toNat - 1 ≤ i) : hostRead s 4 i = none := hostRead_eq_none (readNode_beyond h)
  refine ⟨fun h => hostRead_eq_none (readValid_invalid h ..), fun h => hostRead_eq_none (readNode_invalid h i),
    fun h => hostRead_eq_none (readValid_invalid h ..), fun h => hostRead_eq_none (readValid_invalid h ..),
    fun h => hostRead_eq_none (readValid_invalid h ..), hout, hcp, hnode,
    fun h => hostRead_eq_none (readValid_beyond _ _ _ h),
    fun h => ⟨hostRead_eq_none (readValid_beyond _ _ _ h), hostRead_eq_none (readValid_beyond _ _ _ h)⟩,
    fun hI => ?_, fun h => hostRead_eq_none (readRegister_beyond s h),
    fun space h => hostRead_eq_none (memRead_absent_space s h i)⟩
  have hn := hI.tree.nleaf_le
  exact ⟨fun h => hout (hI.spaces.outLen.trans h), fun h => hnode (by omega), fun h => hcp (hn.trans h)⟩

/-! ## NODE -/

theorem PrefixNode.size_pos (t : PrefixNode) : 1 ≤ t.size := by
  have h := t.leafCount_pos
  rw [t.size_eq]; omega

/-- The record of an internal node with index `i`. -/
def internalRecord (l r : PrefixNode) (i : Nat) : NodeRecord :=
  ⟨true, 0, l.weight + r.weight, BitVec.ofNat 9 (i + 1), BitVec.ofNat 9 (i + 1 + l.size)⟩

theorem PrefixNode.flattenFrom_internal (l r : PrefixNode) (i : Nat) :
    (PrefixNode.internal l r).flattenFrom i =
      internalRecord l r i :: (l.flattenFrom (i + 1) ++ r.flattenFrom (i + 1 + l.size)) := rfl

/-- The records of a subtree, wherever they stand in a list, show it at the index where they begin. Below index 512 no
child index is cut. -/
theorem showsNode_flattenFrom (t : PrefixNode) (before after : List NodeRecord) (h : before.length + t.size ≤ 512) :
    showsNode (before ++ t.flattenFrom before.length ++ after) t before.length := by
  induction t generalizing before after with
  | leaf s w => simp [showsNode, PrefixNode.flattenFrom]
  | internal l r ihl ihr =>
    rw [PrefixNode.size] at h
    have hpos := r.size_pos
    have hleft : (BitVec.ofNat 9 (before.length + 1)).toNat = before.length + 1 := by
      rw [BitVec.toNat_ofNat]; omega
    have hright : (BitVec.ofNat 9 (before.length + 1 + l.size)).toNat = before.length + 1 + l.size := by
      rw [BitVec.toNat_ofNat]; omega
    have hl := ihl (before ++ [internalRecord l r before.length]) (r.flattenFrom (before.length + 1 + l.size) ++ after)
      (by simp only [List.length_append, List.length_singleton]; omega)
    have hr := ihr (before ++ internalRecord l r before.length :: l.flattenFrom (before.length + 1)) after
      (by simp only [List.length_append, List.length_cons, PrefixNode.length_flattenFrom]; omega)
    rw [PrefixNode.flattenFrom_internal]
    refine ⟨_, _, by simp [internalRecord], hleft, hright, ?_, ?_⟩
    · rw [hleft]
      simpa using hl
    · rw [hright]
      simpa [PrefixNode.length_flattenFrom, Nat.add_assoc, Nat.add_comm] using hr

/-- Settles O54: the flattened tree shows every subtree at its index, and NODE reads it. -/
theorem nodeWindowIsPreOrder : Obligations.NodeWindowIsPreOrder := by
  unfold Obligations.NodeWindowIsPreOrder
  intro t hl
  refine ⟨t.length_flatten, ?_, fun s i hp hv ht hn => ?_⟩
  · simpa [PrefixNode.flatten] using showsNode_flattenFrom t [] [] (by rw [PrefixNode.size_eq]; simp; omega)
  · have hn' : s.nleaf.toNat = t.leafCount := by
      rw [hn, BitVec.toNat_ofNat]; omega
    exact (hostRead_of_not_busy hp 4 i).trans (readNode_held hv ht hn' i)

end Sys2Proof.Machine

/-! PROOFS. Memory and the host port (spec/20_memory.md): what a step does with each kind of move, what host reads and
writes reach in BUSY and outside it, that a start and a completion leave what one step leaves (rule R67), and the bounds
checks of the stream reads (rule R73). -/

namespace Sys2Proof.Machine

/-! ## A step takes its next move -/

theorem step_of_no_move {s : State} (h : s.moves = []) : step s = blockMove s := by
  unfold step
  rw [h]

theorem step_of_move {s : State} {m : Move} {later : List Move} (h : s.moves = m :: later) :
    step s = moveStep m { s with moves := later } := by
  unfold step
  rw [h]

theorem blockMove_of_busy {s : State} (h : s.phase = .busy) : blockMove s = complete s := by
  unfold blockMove
  rw [h]

/-! ## Host writes -/

theorem hostWrite_of_busy {s : State} (h : s.phase = .busy) (space i v : Nat) : hostWrite s space i v = .next s := by
  unfold hostWrite
  rw [h]

/-- Outside BUSY the write of `CMD` starts a command, and every other write is a memory write. -/
theorem hostWrite_of_not_busy {s : State} (h : s.phase ≠ .busy) (space i v : Nat) :
    hostWrite s space i v =
      if space = 0 ∧ i = 0 then writeCmd (BitVec.ofNat 8 v) s else .next (memWrite s space i v) := by
  unfold hostWrite
  split
  next hb => exact absurd hb h
  next => rfl

theorem hostWrite_cmd {s : State} (h : s.phase ≠ .busy) (v : Nat) :
    hostWrite s 0 0 v = writeCmd (BitVec.ofNat 8 v) s := by
  rw [hostWrite_of_not_busy h, if_pos ⟨rfl, rfl⟩]

theorem hostWrite_element {s : State} (h : s.phase ≠ .busy) {space i : Nat} (hc : ¬ (space = 0 ∧ i = 0)) (v : Nat) :
    hostWrite s space i v = .next (memWrite s space i v) := by
  rw [hostWrite_of_not_busy h, if_neg hc]

theorem memWrite_inLen (s : State) (v : Nat) : memWrite s 0 4 v = { s with inLen := BitVec.ofNat 64 v } := by
  simp [memWrite]

theorem memWrite_in {s : State} {i : Nat} (h : i < s.params.inCap) (v : Nat) :
    memWrite s 1 i v = { s with inMem := s.inMem.write i (BitVec.ofNat 8 v) } := by
  simp [memWrite, h]

theorem memWrite_dropped {s : State} {space i : Nat} (hl : ¬ (space = 0 ∧ i = 4))
    (hi : ¬ (space = 1 ∧ i < s.params.inCap)) (v : Nat) : memWrite s space i v = s := by
  rw [memWrite, if_neg hl, if_neg hi]

/-- Settles O50: outside BUSY and but for `CMD` a host write is `memWrite`, which has one arm per kind of address. -/
theorem writesReachInAndInLenOnly : Obligations.WritesReachInAndInLenOnly := by
  unfold Obligations.WritesReachInAndInLenOnly
  refine ⟨fun s space i v later hm => step_of_move hm, fun s v hp => ⟨?_, fun i hi => ?_, fun space i hr hi => ?_⟩⟩
  · rw [hostWrite_element hp (by decide), memWrite_inLen]
  · refine ⟨_, by rw [hostWrite_element hp (by simp), memWrite_in hi], rfl, ?_, fun k hk => ?_⟩
    · exact (Space.read_write ..).trans (if_pos rfl)
    · exact (Space.read_write ..).trans (if_neg hk)
  · rw [hostWrite_element hp (by tauto), memWrite_dropped (by tauto) hi]

/-! ## Host reads, and the BUSY interval -/

theorem hostRead_of_busy {s : State} (h : s.phase = .busy) (space i : Nat) :
    hostRead s space i = if space = 0 ∧ (i = 1 ∨ i = 9) then memRead s space i else none := by
  unfold hostRead
  rw [h]

/-- Settles O49: the step of a read is `afterRead`, which writes the reply alone. -/
theorem readsHaveNoSideEffect : Obligations.ReadsHaveNoSideEffect := by
  unfold Obligations.ReadsHaveNoSideEffect
  exact fun s space i later hm => step_of_move hm

theorem exec_of_busy {s : State} (h : s.phase = .busy) (i : Instr) : exec i s = .next s := by
  by_cases hi : i = .reset
  · subst hi
    exact execReset_busy h
  · rw [exec_ownWork hi, runCommand_dropped (.inl h)]

/-- Settles O10: each operation of the port and each command has its arm for BUSY. -/
theorem busyAllowsOnlyStatusAndId : Obligations.BusyAllowsOnlyStatusAndId := by
  unfold Obligations.BusyAllowsOnlyStatusAndId
  refine fun s hp => ⟨hostWrite_of_busy hp, exec_of_busy hp, ?_, ?_, fun space i h => ?_⟩
  · rw [hostRead_of_busy hp, if_pos (by decide)]
    rfl
  · rw [hostRead_of_busy hp, if_pos (by decide)]
    rfl
  · rw [hostRead_of_busy hp, if_neg h]

/-! ## The elements behind the valid flags -/

theorem readValid_valid {α : Type} {wrap : α → Value} {valid : Bool} {n i : Nat} {m : Space α} (h : valid = true)
    (hi : i < n) : readValid wrap valid n m i = (m.read i).map wrap := by
  simp [readValid, h, hi]

/-- Every index of a table of 256 elements is a byte value. -/
theorem exists_byte_toNat_eq {i : Nat} (h : i < 256) : ∃ b : Byte, b.toNat = i := ⟨BitVec.ofNatLT i h, rfl⟩

theorem State.treeLegal.nleaf_toNat {s : State} (h : s.treeLegal) {t : PrefixNode} (ht : s.tree = some t) :
    s.nleaf.toNat = t.leafCount := by
  obtain ⟨hn, _, hl, _⟩ := h.held t ht
  rw [hn, BitVec.toNat_ofNat]
  exact Nat.mod_eq_of_lt (hl.trans_lt (by decide))

theorem State.Inv.freq_defined {s : State} {i : Nat} (h : s.Inv) (hv : Status.freqV s.status = true) (hi : i < 256) :
    ∃ w, s.freq.read i = some w := by
  obtain ⟨_, _, _, _, _, hread⟩ := h.results.freqTrue hv
  obtain ⟨b, rfl⟩ := exists_byte_toNat_eq hi
  exact ⟨_, hread b⟩

theorem State.Inv.code_defined {s : State} {i : Nat} (h : s.Inv) (hv : Status.codeV s.status = true) (hi : i < 256) :
    ∃ c, s.code.read i = some c := by
  obtain ⟨_, _, hread⟩ := h.results.codeTrue hv
  obtain ⟨b, rfl⟩ := exists_byte_toNat_eq hi
  exact ⟨_, hread b⟩

theorem State.Inv.cp_defined {s : State} {i : Nat} (h : s.Inv) (hv : Status.cpV s.status = true)
    (hi : i < s.nleaf.toNat) : ∃ c, s.cp.read i = some c := by
  obtain ⟨t, ht, hread⟩ := h.results.cpTrue hv
  rw [h.tree.nleaf_toNat ht] at hi
  rw [hread i hi]
  exact ⟨_, List.getElem?_eq_getElem (by rwa [length_codePoints])⟩

theorem State.Inv.out_defined {s : State} {i : Nat} (h : s.Inv) (hv : Status.outV s.status = true)
    (hi : i < s.outLen.toNat) : ∃ b, s.outMem.read i = some b :=
  Option.isSome_iff_exists.1 (h.results.outTrue hv i hi)

theorem State.Inv.node_defined {s : State} {i : Nat} (h : s.Inv) (hv : Status.treeV s.status = true)
    (hi : i < 2 * s.nleaf.toNat - 1) : ∃ n, readNode s i = some (.node n) := by
  obtain ⟨t, ht⟩ := Option.isSome_iff_exists.1 (h.tree.flag.symm.trans hv)
  have hn := h.tree.nleaf_toNat ht
  have hlen : i < t.flatten.length := by rwa [t.length_flatten, ← hn]
  rw [readNode_held hv ht hn, List.getElem?_eq_getElem hlen]
  exact ⟨_, rfl⟩

/-- Settles O53: the port passes the element on, and under the invariant a set flag says that the elements are there. -/
theorem validReadsHaveValues : Obligations.ValidReadsHaveValues := by
  unfold Obligations.ValidReadsHaveValues
  intro s i hp
  simp only [hostRead_of_not_busy hp]
  exact ⟨readValid_valid rfl, readValid_valid, readValid_valid, readValid_valid, readValid_valid, fun hI =>
    ⟨hI.freq_defined, hI.node_defined, hI.code_defined, hI.cp_defined, hI.out_defined⟩⟩

/-! ## A command sees of `STATE` only that it is accepted -/

/-- The state with another `STATE` and the same flags. -/
def State.inPhase (s : State) (p : Phase) : State := { s with status := Status.withPhase s.status p }

theorem Status.withPhase_withPhase (w : Byte) (p q : Phase) :
    Status.withPhase (Status.withPhase w p) q = Status.withPhase w q := by
  simp [Status.withPhase]

theorem State.inPhase_phase (s : State) (p : Phase) : (s.inPhase p).phase = p := Status.phase_withPhase ..

/-- The completion right after a start sees the state of the start, in DONE. -/
theorem State.release_start {s : State} (h : s.cmd = 0) (w : Byte) : (s.start w).release = s.inPhase .done := by
  rw [State.release, State.start_status, Status.withPhase_withPhase, ← h]
  rfl

theorem needTree_inPhase (i : Instr) (s : State) (p : Phase) : needTree i (s.inPhase p) = needTree i s := by
  simp only [needTree, State.inPhase, Status.treeV_withPhase]

theorem State.withCodes_inPhase (s : State) (p : Phase) (t : PrefixNode) : (s.inPhase p).withCodes t = s.withCodes t := by
  simp [State.withCodes, State.inPhase]

theorem State.withCodePoints_inPhase (s : State) (p : Phase) (t : PrefixNode) :
    (s.inPhase p).withCodePoints t = s.withCodePoints t := by
  simp [State.withCodePoints, State.inPhase]

theorem State.withSerialized_inPhase (s : State) (p : Phase) (t : PrefixNode) (bytes : List Byte) (n : Nat) :
    (s.inPhase p).withSerialized t bytes n = s.withSerialized t bytes n := by
  simp [State.withSerialized, State.inPhase]

/-- A command's own work reads no `STATE`, and writes it. -/
theorem ownWork_inPhase (i : Instr) (s : State) (p : Phase) : ownWork i (s.inPhase p) = ownWork i s := by
  cases i with
  | build | deserialize | encode | reset => rfl
  | codes =>
    simp only [ownWork, runCodes, needTree_inPhase, State.withCodes_inPhase]
  | cplist =>
    simp only [ownWork, runCplist, needTree_inPhase, State.withCodePoints_inPhase]
  | serialize =>
    simp only [ownWork, runSerialize, needTree_inPhase, State.withSerialized_inPhase]
    rfl

/-- A fault writes every bit of STATUS. -/
theorem State.settle_inPhase (s : State) (p : Phase) (r : Result State) : (s.inPhase p).settle r = s.settle r := by
  cases r <;> rfl

theorem runCommand_inPhase_done {s : State} (h : s.ready) {run : State → Result State}
    (hrun : run (s.inPhase .done) = run s) : runCommand run (s.inPhase .done) = runCommand run s := by
  rw [runCommand_ready (.inr (s.inPhase_phase .done)), runCommand_ready h, hrun, State.settle_inPhase]

theorem exec_inPhase_done {s : State} (h : s.ready) (i : Instr) : exec i (s.inPhase .done) = exec i s := by
  by_cases hi : i = .reset
  · subst hi
    exact (execReset_taken (by rw [s.inPhase_phase]; decide)).trans (execReset_taken h.ne_busy).symm
  · rw [exec_ownWork hi, exec_ownWork hi, runCommand_inPhase_done h (ownWork_inPhase i s .done)]

theorem execWord_inPhase_done {s : State} (h : s.ready) (w : Byte) : execWord w (s.inPhase .done) = execWord w s := by
  unfold execWord
  split
  · exact exec_inPhase_done h _
  · exact runCommand_inPhase_done h rfl

/-- R67: a completion right after the start is the command carried out in one step. -/
theorem complete_start {s : State} (h : s.ready) (hc : s.cmd = 0) (w : Byte) : complete (s.start w) = execWord w s := by
  rw [complete, State.start_cmd, State.release_start hc, execWord_inPhase_done h]

/-! ## The write of `CMD` in a state that accepts a command -/

theorem writeCmd_last {s : State} (h : s.ready) {w : Byte} (hw : w ≠ opcode .reset) (hm : s.moves = []) :
    writeCmd w s = execWord w s := by
  rw [writeCmd, if_neg hw]
  rcases h with h | h <;> rw [h, hm]

theorem writeCmd_before_completion {s : State} (h : s.ready) {w : Byte} (hw : w ≠ opcode .reset) {later : List Move}
    (hm : s.moves = .complete :: later) : writeCmd w s = execWord w { s with moves := later } := by
  rw [writeCmd, if_neg hw]
  rcases h with h | h <;> rw [h, hm]

theorem writeCmd_before_other_move {s : State} (h : s.ready) {w : Byte} (hw : w ≠ opcode .reset) {m : Move}
    {later : List Move} (hne : m ≠ .complete) (hm : s.moves = m :: later) : writeCmd w s = .next (s.start w) := by
  rw [writeCmd, if_neg hw]
  cases m with
  | complete => exact absurd rfl hne
  | read | write | hardReset => rcases h with h | h <;> rw [h, hm]

theorem step_write_cmd {s : State} (h : s.ready) {v : Nat} {later : List Move} (hm : s.moves = .write 0 0 v :: later) :
    step s = writeCmd (BitVec.ofNat 8 v) { s with moves := later } :=
  (step_of_move hm).trans (hostWrite_cmd (s := { s with moves := later }) h.ne_busy v)

/-- Settles O5: a command reads no `STATE` but to be accepted, so its completion sees what its start saw; `writeCmd` picks
the form by the move behind it. -/
theorem startThenCompleteEqualsOneStep : Obligations.StartThenCompleteEqualsOneStep := by
  unfold Obligations.StartThenCompleteEqualsOneStep
  refine ⟨fun s w hr hc => complete_start hr hc w, fun s w => ⟨rfl, State.start_phase s w, by simp⟩, fun s v hr hv => ?_,
    fun s hp => ⟨fun hm => ?_, fun later hm => ?_⟩⟩
  · have hw : BitVec.ofNat 8 v ≠ opcode .reset := mt (ofNat_eq_reset v).1 hv
    refine ⟨fun hm => ?_, fun later hm => ?_, fun m later hne hm => ?_⟩
    · rw [step_write_cmd hr hm, writeCmd_last (s := { s with moves := [] }) hr hw rfl]
    · rw [step_write_cmd hr hm, writeCmd_before_completion (s := { s with moves := .complete :: later }) hr hw rfl]
    · rw [step_write_cmd hr hm, writeCmd_before_other_move (s := { s with moves := m :: later }) hr hw hne rfl]
  · rw [step_of_no_move hm, blockMove_of_busy hp]
  · exact (step_of_move hm).trans (blockMove_of_busy (s := { s with moves := later }) hp)

/-! ## The stream reads -/

theorem readField8_short {r : Reader} (h : r.rest.length < 8) : readField8 r = .error ⟨.corruptStream, 1⟩ := by
  rw [readField8, if_pos h]
  rfl

/-- At or beyond its end a bit sequence has nothing left to read. -/
theorem Reader.start_beyond {bits : BitSeq} {cur : Nat} (h : bits.length ≤ cur) : Reader.start bits cur = ⟨[], cur⟩ := by
  rw [Reader.start, List.drop_eq_nil_of_le h]

theorem Reader.start_bit {bits : BitSeq} {cur : Nat} {b : Bool} (h : bits[cur]? = some b) :
    Reader.start bits cur = ⟨b :: bits.drop (cur + 1), cur⟩ := by
  obtain ⟨hlt, rfl⟩ := List.getElem?_eq_some_iff.1 h
  rw [Reader.start, List.drop_eq_getElem_cons hlt]

theorem Reader.start_field8 {bits : BitSeq} {cur : Nat} {v : Byte} (h : (bits.drop cur).take 8 = bits8 v) :
    Reader.start bits cur = ⟨bits8 v ++ bits.drop (cur + 8), cur⟩ := by
  rw [Reader.start, ← h, ← List.drop_drop, List.take_append_drop]

/-- Settles O42: the rest at the cursor is empty, begins with the bit, is short, or begins with the byte's eight bits. -/
theorem readsAreBoundsChecked : Obligations.ReadsAreBoundsChecked := by
  unfold Obligations.ReadsAreBoundsChecked
  refine fun bits cur => ⟨fun h => ?_, fun b h => ?_, fun h => readField8_short ?_, fun v h => ?_⟩
  · rw [Reader.start_beyond h]
    rfl
  · rw [Reader.start_bit h, readBit_cons]
    rfl
  · rw [Reader.start, List.length_drop]
    omega
  · rw [Reader.start_field8 h, readField8_bits8]
    rfl

end Sys2Proof.Machine

/-! PROOFS. The encoding (spec/30_encoding.md): the decoder of command words inverts the opcodes and rejects every other word
(rules R90 to R92 and R104), and the tuples of host transactions are those of the moves that are reads and writes (rule
R105). -/

namespace Sys2Proof.Machine

/-! ## Command words -/

@[simp] theorem decodeWord_opcode (i : Instr) : decodeWord (opcode i) = .ok i := by cases i <;> rfl

theorem decodeWord_eq_ok_iff {w : Byte} {i : Instr} : decodeWord w = .ok i ↔ w = opcode i := by
  refine ⟨fun h => ?_, fun h => h ▸ decodeWord_opcode i⟩
  rcases decodeWord_cases w with ⟨j, hw, e⟩ | ⟨_, e⟩
  · obtain rfl : j = i := Except.ok.inj (e.symm.trans h)
    exact hw
  · cases e.symm.trans h

theorem decodeWord_of_reserved {w : Byte} (hw : w.toNat = 0 ∨ 8 ≤ w.toNat) :
    decodeWord w = .error (.reservedOpcode w) := by
  rcases decodeWord_cases w with ⟨i, rfl, _⟩ | ⟨_, e⟩
  · have := opcode_toNat i
    omega
  · exact e

/-- Settles O1: the seven words are the opcodes, and `decodeWord` finds no command for a word outside their range. -/
theorem opcodeWordsDecode : Obligations.OpcodeWordsDecode := by
  unfold Obligations.OpcodeWordsDecode
  exact ⟨decodeWord_opcode .build, decodeWord_opcode .codes, decodeWord_opcode .cplist, decodeWord_opcode .serialize,
    decodeWord_opcode .deserialize, decodeWord_opcode .encode, decodeWord_opcode .reset, fun _ => decodeWord_of_reserved⟩

/-! ## Byte sequences -/

/-- R104: a command takes one word off the front, whatever stands behind it. -/
theorem decode_encode_append (i : Instr) (rest : List Byte) : decode (encode i ++ rest) = .ok (i, rest) := by
  rw [encode, List.singleton_append, decode, decodeWord_opcode]

theorem decode_cons_eq_ok {w : Byte} {bytes rest : List Byte} {i : Instr} (h : decode (w :: bytes) = .ok (i, rest)) :
    decodeWord w = .ok i ∧ bytes = rest := by
  rw [decode] at h
  split at h
  next j hj =>
    cases h
    exact ⟨hj, rfl⟩
  next => cases h

/-- Settles O2: the first byte carries the command, and `decodeWord` inverts `opcode`. -/
theorem decodeEncodeAgree : Obligations.DecodeEncodeAgree := by
  unfold Obligations.DecodeEncodeAgree
  refine ⟨decode_encode_append, fun bytes rest i h => ?_⟩
  cases bytes with
  | nil => cases h
  | cons w bytes =>
    obtain ⟨hw, rfl⟩ := decode_cons_eq_ok h
    rw [decodeWord_eq_ok_iff.1 hw, encode, List.singleton_append]

/-! ## Host transactions -/

theorem decodeTransaction_of_encodeMove {t : Transaction} {m : Move} (h : encodeMove m = some t) :
    decodeTransaction t = some m := by
  cases m with
  | read | write =>
    obtain rfl := Option.some.inj h
    rfl
  | hardReset | complete => cases h

theorem encodeMove_of_decodeTransaction {t : Transaction} {m : Move} (h : decodeTransaction t = some m) :
    encodeMove m = some t :=
  match t, h with
  | ⟨0, _, _, none⟩, h | ⟨1, _, _, some _⟩, h => Option.some.inj h ▸ rfl

/-- Settles O3: only the tuples (0, no data) and (1, data) decode, to the read and the write that they encode. -/
theorem transactionTupleRoundTrip : Obligations.TransactionTupleRoundTrip := by
  unfold Obligations.TransactionTupleRoundTrip
  exact fun _ _ => ⟨encodeMove_of_decodeTransaction, decodeTransaction_of_encodeMove⟩

end Sys2Proof.Machine

/-! PROOFS. The Tree Builder (spec/40_tree_builder.md): the counts (rule R120), the stable sort (R123), the merge and its
iteration (R124, R125 and R130), the shape of a built tree (R131), the faults of `Build` (R127 and R128), the BUILD command
(R126), and that codes are free of prefixes (R133 and R142). -/

namespace Sys2Proof.Machine

/-! ## Counting -/

theorem symbolFreq_toNat {symbols : List Byte} (h : symbols.length < 2 ^ 64) (b : Byte) :
    (symbolFreq symbols b).toNat = symbols.count b :=
  (BitVec.toNat_ofNat ..).trans (Nat.mod_eq_of_lt (Nat.lt_of_le_of_lt List.count_le_length h))

/-- Every byte stands once in `allBytes`, so the counts over it miss no symbol and take none twice. -/
theorem sum_count_allBytes (symbols : List Byte) : (allBytes.map symbols.count).sum = symbols.length := by
  have hsum := Multiset.sum_count_eq_card (s := allBytes.toFinset) (m := (symbols : Multiset Byte))
    fun b _ => List.mem_toFinset.2 (mem_allBytes b)
  rw [List.sum_toFinset _ nodup_allBytes] at hsum
  simpa only [Multiset.coe_count, Multiset.coe_card] using hsum

/-- Settles O25: no count exceeds the length, which fits 64 bits, and `allBytes` holds each byte once. -/
theorem frequenciesCountSymbols : Obligations.FrequenciesCountSymbols := by
  unfold Obligations.FrequenciesCountSymbols
  intro symbols h
  refine ⟨symbolFreq_toNat h, ?_⟩
  rw [freqTable, List.map_map, ← sum_count_allBytes symbols]
  exact congrArg List.sum (List.map_congr_left fun b _ => symbolFreq_toNat h b)

theorem allBytes_ascending : allBytes.Pairwise fun a b => a.toNat < b.toNat := by
  refine List.pairwise_map.2 (List.pairwise_lt_range.imp_of_mem fun {i j} hi hj hij => ?_)
  have toNat_of_mem : ∀ {k}, k ∈ List.range Config.symbolCount → (BitVec.ofNat 8 k).toNat = k := fun {k} hk => by
    rw [BitVec.toNat_ofNat]
    exact Nat.mod_eq_of_lt (List.mem_range.1 hk)
  rwa [toNat_of_mem hi, toNat_of_mem hj]

theorem usedSymbols_ascending (f : Byte → Word) : (usedSymbols f).Pairwise fun a b => a.toNat < b.toNat :=
  allBytes_ascending.filter _

theorem mem_usedSymbols_symbolFreq {symbols : List Byte} (h : symbols.length < 2 ^ 64) (b : Byte) :
    b ∈ usedSymbols (symbolFreq symbols) ↔ b ∈ symbols :=
  mem_usedSymbols.trans (symbolFreq_ne_zero h b)

/-! ## The sort -/

/-- The sort keeps the order of the entries of each weight. -/
theorem sortDesc_filter (work : List PrefixNode) (w : Word) :
    (sortDesc work).filter (fun x => x.weight = w) = work.filter fun x => x.weight = w := by
  induction work with
  | nil => rfl
  | cons x xs ih => rw [sortDesc, insertDesc_filter x (sortDesc_spec xs).2, List.filter_cons, List.filter_cons, ih]

/-- Settles O26: each insertion keeps the three properties of the sorted rest. -/
theorem sortIsStableDescending : Obligations.SortIsStableDescending := by
  unfold Obligations.SortIsStableDescending
  intro work
  obtain ⟨hperm, hsorted⟩ := sortDesc_spec work
  exact ⟨hperm, hsorted, sortDesc_filter work⟩

/-! ## The merge -/

/-- At least two entries sort to a list with a last and a next to last entry. -/
theorem exists_sortDesc_eq {work : List PrefixNode} (h : 2 ≤ work.length) :
    ∃ front prev last, sortDesc work = front ++ [prev] ++ [last] := by
  have hl := sortDesc_length work
  rcases List.eq_nil_or_concat' (sortDesc work) with e | ⟨init, last, e⟩
  · rw [e, List.length_nil] at hl; omega
  rcases List.eq_nil_or_concat' init with rfl | ⟨front, prev, rfl⟩
  · rw [e, List.length_append, List.length_nil, List.length_singleton] at hl; omega
  · exact ⟨front, prev, last, e⟩

theorem mergeStep_of_sortDesc (o : ChildOrder) {work front : List PrefixNode} {prev last : PrefixNode}
    (h : sortDesc work = front ++ [prev] ++ [last]) : mergeStep o work = front ++ [joinNodes o last prev] := by
  have hr : (sortDesc work).reverse = last :: prev :: front.reverse := by simp [h]
  simp only [mergeStep, hr, List.reverse_reverse]

/-- Settles O27: the merge takes the last two entries of the sorted collection, and the last entry of a stable descending
sort is the lightest, the latest among equals. -/
theorem mergeTakesLightestLatest : Obligations.MergeTakesLightestLatest := by
  unfold Obligations.MergeTakesLightestLatest
  intro o work h
  obtain ⟨front, prev, last, hs⟩ := exists_sortDesc_eq h
  obtain ⟨pre, post, hwork, hpre, hpost, hrest⟩ := sortDesc_last hs
  obtain ⟨pre', post', hwork', hpre', hpost', hfront⟩ := sortDesc_last hrest
  refine ⟨pre, post, pre', post', last, prev, hwork, hpre, hpost, hwork', hpre', hpost', ?_⟩
  rw [mergeStep_of_sortDesc o hs, hfront]
  rfl

/-- The merge puts an internal node at the end. -/
theorem mergeStep_getLast? (o : ChildOrder) {work : List PrefixNode} (h : 2 ≤ work.length) :
    ∃ l r, (mergeStep o work).getLast? = some (.internal l r) := by
  obtain ⟨last, prev, rest, -, e⟩ := mergeStep_spec o h
  rw [e, List.getLast?_concat]
  cases o with
  | lastLeft => exact ⟨last, prev, rfl⟩
  | lastRight => exact ⟨prev, last, rfl⟩

/-- Settles O29: the new node weighs what the two entries it replaces weigh, so the sum stays that of the seed, which is the
number of symbols. -/
theorem mergeKeepsTotalWeight : Obligations.MergeKeepsTotalWeight := by
  unfold Obligations.MergeKeepsTotalWeight
  refine ⟨fun o work h => ⟨mergeStep_weights o h, mergeStep_length o h, ?_⟩, fun o symbols t h => (build_ok o h).2.1⟩
  obtain ⟨l, r, hlast⟩ := mergeStep_getLast? o h
  exact ⟨l, r, hlast, rfl⟩

/-! ## Build -/

/-- A built tree is the one entry that the loop leaves of the seed. -/
theorem mergeAll_seed_of_build {o : ChildOrder} {symbols : List Byte} {t : PrefixNode} (h : build o symbols = .ok t) :
    mergeAll o (seed (symbolFreq symbols)).length (seed (symbolFreq symbols)) = [t] := by
  unfold build at h
  split at h
  · cases h
  · split at h
    · cases h
    · cases h
    next hne _ =>
      have hpos : 1 ≤ (seed (symbolFreq symbols)).length := by
        rw [seed, List.length_map]
        exact List.length_pos_iff.2 hne
      obtain ⟨t', ht', -⟩ := mergeAll_spec o _ _ hpos (Nat.le_succ _)
      simp only [ht'] at h
      cases h
      exact ht'

/-- Settles O28: the seed lists the bytes that occur in ascending order, and the loop is one merge fewer than there are
leaves in it. -/
theorem buildIteratesMergeSteps : Obligations.BuildIteratesMergeSteps := by
  unfold Obligations.BuildIteratesMergeSteps
  intro o symbols t hlen h
  refine ⟨usedSymbols (symbolFreq symbols), usedSymbols_ascending _, mem_usedSymbols_symbolFreq hlen, rfl, ?_⟩
  have hloop := mergeAll_iterate o _ (seed (symbolFreq symbols)) (Nat.le_succ _)
  rw [mergeAll_seed_of_build h, seed, List.length_map] at hloop
  exact hloop.symm

/-- Settles O30: the leaf symbols of a built tree are the bytes that occur, each once; the rest holds of every tree with so
many leaves. -/
theorem builtTreeShape : Obligations.BuiltTreeShape := by
  unfold Obligations.BuiltTreeShape
  intro o symbols t hlen h
  obtain ⟨hperm, -, hinternal⟩ := build_ok o h
  have hnodup : t.symbols.Nodup := hperm.nodup_iff.2 (nodup_usedSymbols _)
  have hmem : ∀ b, b ∈ t.symbols ↔ b ∈ symbols := fun b => hperm.mem_iff.trans (mem_usedSymbols_symbolFreq hlen b)
  have hcount : t.leafCount = symbols.dedup.length := by
    rw [← t.length_symbols]
    exact ((List.perm_ext_iff_of_nodup hnodup symbols.nodup_dedup).2 fun b =>
      (hmem b).trans List.mem_dedup.symm).length_eq
  exact ⟨hnodup, hmem, hcount, hinternal, t.size_eq, build_ok_leafCount_le o h, t.height_lt_leafCount⟩

theorem setWidth_byte_inj {a b : Byte} : a.setWidth 64 = b.setWidth 64 ↔ a = b := by
  refine ⟨fun h => ?_, congrArg _⟩
  simpa using congrArg (BitVec.setWidth 8) h

/-- Settles O31: the three answers of `Build` differ, and so do the inputs it gives them on. -/
theorem buildFailsOnlyBelowTwoSymbols : Obligations.BuildFailsOnlyBelowTwoSymbols := by
  unfold Obligations.BuildFailsOnlyBelowTwoSymbols
  intro o symbols hlen
  rcases build_cases o symbols hlen with ⟨rfl, e⟩ | ⟨b, hne, hb, e⟩ | ⟨t, ⟨x, hx, y, hy, hxy⟩, e, -⟩
  · simp [e]
  · obtain ⟨x, hx⟩ := List.exists_mem_of_ne_nil _ hne
    refine ⟨iff_of_false (by simp [e]) hne, fun c => ?_, iff_of_false (by simp [e]) ?_⟩
    · simp only [e, Except.error.injEq, Raise.mk.injEq, true_and, setWidth_byte_inj]
      exact ⟨fun hbc => ⟨hne, hbc ▸ hb⟩, fun ⟨_, hc⟩ => (hb x hx).symm.trans (hc x hx)⟩
    · exact fun ⟨y, hy, z, hz, hyz⟩ => hyz ((hb y hy).trans (hb z hz).symm)
  · refine ⟨iff_of_false (by simp [e]) (List.ne_nil_of_mem hx), fun c => iff_of_false (by simp [e]) ?_,
      iff_of_true ⟨t, e⟩ ⟨x, hx, y, hy, hxy⟩⟩
    exact fun ⟨_, hc⟩ => hxy ((hc x hx).trans (hc y hy).symm)

/-! ## BUILD -/

/-- The operand is as long as a 64-bit register says. -/
theorem State.length_inBytes_lt (s : State) : s.inBytes.length < 2 ^ 64 := s.length_inBytes ▸ s.inLen.isLt

theorem exec_build_over {s : State} (hr : s.ready) (hc : s.params.inCap < s.inLen.toNat) :
    exec .build s = .next (s.enterFault .capacity s.inLen) := by
  refine exec_of_ownWork hr (r := .error ⟨.capacity, s.inLen⟩) (by decide) ?_
  simp only [ownWork, runBuild, needCapacity_over hc, bind, Except.bind]

theorem exec_build_within {s : State} (hr : s.ready) (hc : s.inLen.toNat ≤ s.params.inCap) {r : Result PrefixNode}
    (hb : build s.params.childOrder s.inBytes = r) :
    exec .build s = .next (s.settle (r.map (s.withBuilt s.inBytes))) := by
  refine exec_of_ownWork hr (by decide) ?_
  simp only [ownWork, runBuild, needCapacity_within hc, hb, bind, Except.bind]
  cases r <;> rfl

/-- `STATUS` after BUILD: DONE with `FREQ_V` and `TREE_V` (rules R24 and R126). -/
theorem status_make_built : Status.make .done true true false false false false = 0x0E := by decide

/-- Settles O17: within the capacity BUILD answers what `Build` answers on `IN[0..IN_LEN)`. -/
theorem buildCommand : Obligations.BuildCommand := by
  unfold Obligations.BuildCommand
  intro s _ hr
  obtain ⟨hempty, hsingle, hok⟩ := buildFailsOnlyBelowTwoSymbols s.params.childOrder s.inBytes s.length_inBytes_lt
  refine ⟨exec_build_over hr, fun h0 => ?_, fun b hc h0 hb => ?_, fun hc hxy => ?_⟩
  · have hnil : s.inBytes = [] := List.eq_nil_of_length_eq_zero (by rw [s.length_inBytes, h0]; rfl)
    exact exec_build_within hr (by rw [h0]; exact Nat.zero_le _) (hempty.2 hnil)
  · have hne : s.inBytes ≠ [] := fun e => h0 (BitVec.eq_of_toNat_eq (by rw [← s.length_inBytes, e]; rfl))
    exact exec_build_within hr hc ((hsingle b).2 ⟨hne, hb⟩)
  · obtain ⟨t, ht⟩ := hok.2 hxy
    have hbeyond : ∀ i, 256 ≤ i → (s.freq.store (freqTable s.inBytes)).read i = s.freq.read i := fun i hi => by
      rw [Space.read_store, length_freqTable, if_neg (Nat.not_lt.2 hi)]
    exact ⟨t, s.withBuilt s.inBytes t, ht, exec_build_within hr hc ht, status_make_built, rfl, rfl, rfl, rfl, rfl, rfl, rfl,
      read_freqTable s.freq s.inBytes, hbeyond, rfl, rfl, rfl, rfl, rfl, rfl, rfl, rfl, rfl, rfl⟩

/-! ## Codes -/

theorem lookupCode_eq_walkLookup (t : PrefixNode) (x : Byte) : lookupCode t x = walkLookup t x := codesOf_lookup t x

/-- Settles O33: a walk over a code stops at its symbol whatever bits follow, so a walk over a code that starts with another
symbol's code would answer both symbols. -/
theorem codesAreFreeOfPrefixes : Obligations.CodesAreFreeOfPrefixes := by
  unfold Obligations.CodesAreFreeOfPrefixes
  rintro t a b p _ ha hb hab ⟨rest, rfl⟩
  rw [lookupCode_eq_walkLookup] at ha hb
  have hwalk := (walk_code ha rest 0).symm.trans (List.append_nil (p ++ rest) ▸ walk_code hb [] 0)
  exact hab (Prod.mk.inj (Except.ok.inj hwalk)).1

end Sys2Proof.Machine

/-! PROOFS. The Code Generator (spec/41_code_generator.md): the two lookups (rules R140 and R141) and the CODES command
(R143). -/

namespace Sys2Proof.Machine

/-! ## Lookups -/

theorem walkLookup_eq_none {t : PrefixNode} {x : Byte} (h : x ∉ t.symbols) : walkLookup t x = none :=
  Option.not_isSome_iff_eq_none.1 (mt (walkLookup_isSome t x).1 h)

theorem lookupCode_leaf (b : Byte) (w : Word) (x : Byte) :
    lookupCode (.leaf b w) x = if x = b then some [] else none := by
  rw [lookupCode_eq_walkLookup, walkLookup]
  exact if_congr eq_comm rfl rfl

/-- The walk turns left at an internal node exactly for the symbols of the left subtree. -/
theorem lookupCode_internal (l r : PrefixNode) (x : Byte) :
    lookupCode (.internal l r) x =
      if x ∈ l.symbols then (lookupCode l x).map (false :: ·) else (lookupCode r x).map (true :: ·) := by
  simp only [lookupCode_eq_walkLookup, walkLookup]
  by_cases h : x ∈ l.symbols
  · simp only [if_pos h, walkLookup_codeOf h, Option.map_some]
  · simp only [if_neg h, walkLookup_eq_none h]

/-- Settles O32: the mapping answers what the walk answers, and the walk finds a symbol exactly where it has a leaf. -/
theorem lookupsAgree : Obligations.LookupsAgree := by
  unfold Obligations.LookupsAgree
  refine ⟨fun t x => ⟨lookupCode_eq_walkLookup t x, ?_⟩, lookupCode_leaf, lookupCode_internal⟩
  rw [lookupCode_eq_walkLookup]
  exact walkLookup_isSome t x

/-! ## CODES -/

theorem codeRecord_of_lookup {m : CodeMap} {b : Byte} {bits : BitSeq} (h : m.lookup b = some bits) :
    codeRecord m b = ⟨true, BitVec.ofNat 8 bits.length, bits⟩ := by rw [codeRecord, h]

theorem codeRecord_of_lookup_none {m : CodeMap} {b : Byte} (h : m.lookup b = none) :
    codeRecord m b = ⟨false, 0, []⟩ := by rw [codeRecord, h]

theorem read_codeTable_beyond (m : Space CodeRecord) (t : PrefixNode) {i : Nat} (h : 256 ≤ i) :
    (m.store (codeTable t)).read i = m.read i := by
  rw [Space.read_store, length_codeTable, if_neg (Nat.not_lt.2 h)]

theorem exec_codes_missing {s : State} (hr : s.ready) (hv : Status.treeV s.status = false) :
    exec .codes s = .next (s.enterFault .sequence 2) := by
  refine exec_of_ownWork hr (r := .error ⟨.sequence, 2⟩) (by decide) ?_
  simp only [ownWork, runCodes, needTree_missing hv, bind, Except.bind]
  rfl

theorem exec_codes_held {s : State} (hr : s.ready) (hv : Status.treeV s.status = true) {t : PrefixNode}
    (ht : s.tree = some t) : exec .codes s = .next (s.withCodes t) := by
  refine exec_of_ownWork hr (r := .ok (s.withCodes t)) (by decide) ?_
  simp only [ownWork, runCodes, needTree_held hv ht, bind, Except.bind]
  rfl

/-- Settles O18: with a tree held CODES writes `STATE`, `CODE_V` and the 256 records, and no other part of the state. -/
theorem codesCommand : Obligations.CodesCommand := by
  unfold Obligations.CodesCommand
  intro s hr
  refine ⟨exec_codes_missing hr, fun t hv ht => ⟨s.withCodes t, exec_codes_held hr hv ht, ?_⟩⟩
  have hrecord : ∀ b : Byte, (s.withCodes t).code.read b.toNat = some (codeRecord (codesOf t) b) :=
    read_codeTable s.code t
  refine ⟨Status.phase_make .., Status.codeV_make .., Status.freqV_make .., (Status.treeV_make ..).trans hv,
    Status.cpV_make .., Status.outV_make .., Status.sent_make .., rfl, rfl, fun b bits hb => ?_, fun b hb => ?_,
    fun i hi => read_codeTable_beyond s.code t hi, rfl, rfl, rfl, rfl, rfl, rfl, rfl, rfl, rfl, rfl, rfl, rfl, rfl,
    rfl, rfl⟩
  · rw [hrecord, codeRecord_of_lookup hb]
  · rw [hrecord, codeRecord_of_lookup_none hb]

end Sys2Proof.Machine

/-! PROOFS. The canonical code encoder (spec/42_canonical_code_encoder.md): the CodePoints of a tree (rule R151), the tree
rebuilt from a list (R154, R156 and R161) and the faults of the reconstruction (R155 and R157), the CPLIST command (R158), and
the bits and the size of a stream (R152, R170, R174 and R175). -/

namespace Sys2Proof.Machine

/-! ## CodePoints -/

/-- The entry of a symbol that stands on one leaf lies as many levels below `d` as its code is long. -/
theorem len_of_mem_codePointsAt {t : PrefixNode} {d : Nat} {c : CodePoint} (hc : c ∈ codePointsAt t d)
    (hone : t.symbols.count c.sym = 1) :
    ∃ bits, lookupCode t c.sym = some bits ∧ c.len = BitVec.ofNat 8 (d + bits.length) := by
  induction t generalizing d with
  | leaf s w =>
    obtain rfl := List.mem_singleton.1 hc
    exact ⟨[], by rw [lookupCode_leaf, if_pos rfl], rfl⟩
  | internal l r ihl ihr =>
    rw [PrefixNode.symbols, List.count_append] at hone
    rw [lookupCode_internal]
    rcases List.mem_append.1 hc with hc | hc
    · have hmem : c.sym ∈ l.symbols := codePointsAt_syms l (d + 1) ▸ List.mem_map_of_mem hc
      have hpos := List.count_pos_iff.2 hmem
      obtain ⟨bits, hbits, hlen⟩ := ihl hc (by omega)
      exact ⟨false :: bits, by rw [if_pos hmem, hbits, Option.map_some],
        hlen.trans (congrArg _ (Nat.succ_add_eq_add_succ ..))⟩
    · have hmem : c.sym ∈ r.symbols := codePointsAt_syms r (d + 1) ▸ List.mem_map_of_mem hc
      have hpos := List.count_pos_iff.2 hmem
      have hleft : c.sym ∉ l.symbols := List.count_eq_zero.1 (by omega)
      obtain ⟨bits, hbits, hlen⟩ := ihr hc (by omega)
      exact ⟨true :: bits, by rw [if_neg hleft, hbits, Option.map_some],
        hlen.trans (congrArg _ (Nat.succ_add_eq_add_succ ..))⟩

/-- Settles O34: the list is collected in leaf order, and the code of a symbol on one leaf is the path to that leaf. -/
theorem codePointLengthsAreCodeLengths : Obligations.CodePointLengthsAreCodeLengths := by
  unfold Obligations.CodePointLengthsAreCodeLengths
  intro t
  refine ⟨codePointsAt_syms t 0, fun c hc hone => ?_⟩
  obtain ⟨bits, hbits, hlen⟩ := len_of_mem_codePointsAt hc hone
  exact ⟨bits, hbits, by rw [hlen, Nat.zero_add]⟩

/-! ## CPLIST -/

theorem exec_cplist_missing {s : State} (hr : s.ready) (hv : Status.treeV s.status = false) :
    exec .cplist s = .next (s.enterFault .sequence 3) := by
  refine exec_of_ownWork hr (r := .error ⟨.sequence, 3⟩) (by decide) ?_
  simp only [ownWork, runCplist, needTree_missing hv, bind, Except.bind]
  rfl

theorem exec_cplist_held {s : State} (hr : s.ready) (hv : Status.treeV s.status = true) {t : PrefixNode}
    (ht : s.tree = some t) : exec .cplist s = .next (s.withCodePoints t) := by
  refine exec_of_ownWork hr (r := .ok (s.withCodePoints t)) (by decide) ?_
  simp only [ownWork, runCplist, needTree_held hv ht, bind, Except.bind]
  rfl

/-- Settles O19: with a tree held CPLIST writes `STATE`, `CP_V` and the list, and no other part of the state. -/
theorem cplistCommand : Obligations.CplistCommand := by
  unfold Obligations.CplistCommand
  intro s hr
  refine ⟨exec_cplist_missing hr, fun t hv ht => ⟨s.withCodePoints t, exec_cplist_held hr hv ht, ?_⟩⟩
  exact ⟨Status.phase_make .., Status.cpV_make .., Status.freqV_make .., (Status.treeV_make ..).trans hv,
    Status.codeV_make .., Status.outV_make .., Status.sent_make .., rfl, rfl, length_codePoints t,
    Space.read_store s.cp (codePoints t), rfl, rfl, rfl, rfl, rfl, rfl, rfl, rfl, rfl, rfl, rfl, rfl, rfl, rfl, rfl⟩

/-! ## The tree of a list -/

theorem rebuild_of_rebuildNode_error {cps : List CodePoint} {e : Raise} (h : rebuildNode 257 0 cps = .error e) :
    rebuild cps = .error e := by
  simp only [rebuild, h, bind, Except.bind]

theorem rebuild_of_rebuildNode_ok {cps rest : List CodePoint} {t : PrefixNode}
    (h : rebuildNode 257 0 cps = .ok (t, rest)) :
    rebuild cps = if rest = [] then .ok t else .error ⟨.corruptStream, 4⟩ := by
  simp only [rebuild, h, bind, Except.bind]
  cases rest <;> rfl

/-- The reconstruction gives a tree exactly when the list is the tree's CodePoints and the tree is one it can make: no weight
(rule R31) and no leaf deeper than a length can say. -/
theorem rebuild_eq_ok_iff {cps : List CodePoint} {t : PrefixNode} :
    rebuild cps = .ok t ↔ codePoints t = cps ∧ t.unweighted = t ∧ t.height ≤ 255 := by
  constructor
  · intro h
    rcases rebuild_cases cps with ⟨t', e, hcps, hw, hh⟩ | ⟨k, -, e⟩
    · cases h.symm.trans e
      exact ⟨hcps, hw, hh⟩
    · cases h.symm.trans e
  · rintro ⟨rfl, hw, hh⟩
    have hnode := rebuildNode_codePoints 257 t 0 [] (by omega) (Nat.le_refl _)
    rw [List.append_nil, hw] at hnode
    exact rebuild_of_rebuildNode_ok hnode

theorem PrefixNode.unweighted_unweighted (t : PrefixNode) : t.unweighted.unweighted = t.unweighted := by
  induction t with
  | leaf => rfl
  | internal l r ihl ihr => rw [unweighted, unweighted, ihl, ihr]

theorem codePointsAt_unweighted (t : PrefixNode) (d : Nat) : codePointsAt t.unweighted d = codePointsAt t d := by
  induction t generalizing d with
  | leaf => rfl
  | internal l r ihl ihr => rw [PrefixNode.unweighted, codePointsAt, codePointsAt, ihl, ihr]

theorem rebuild_codePoints {t : PrefixNode} (h : t.height ≤ 255) : rebuild (codePoints t) = .ok t.unweighted :=
  rebuild_eq_ok_iff.2 ⟨codePointsAt_unweighted t 0, t.unweighted_unweighted, by rwa [t.unweighted_height]⟩

/-- Settles O35: at most 256 leaves leave no depth that 8 bits cannot say, so the reconstruction follows the leaves back to
the shape; and whatever it accepts it has read as the CodePoints of its result. -/
theorem descriptorRoundTrip : Obligations.DescriptorRoundTrip := by
  unfold Obligations.DescriptorRoundTrip
  refine ⟨fun t _ hl => ⟨t.unweighted, rebuild_codePoints ?_, t.same_unweighted⟩,
    fun cps t h => (rebuild_eq_ok_iff.1 h).1⟩
  have := t.height_lt_leafCount
  omega

theorem PrefixNode.weightless_unweighted (t : PrefixNode) : t.unweighted.weightless := by
  induction t with
  | leaf => rfl
  | internal l r ihl ihr => exact ⟨ihl, ihr⟩

/-- Only a tree that is a single leaf has an entry of length 0. -/
theorem isInternal_of_codePoints_len_ne_zero {t : PrefixNode} (h : ∀ c ∈ codePoints t, c.len ≠ 0) :
    t.isInternal = true := by
  cases t with
  | leaf s w => exact absurd rfl (h ⟨0, s⟩ (List.mem_singleton_self _))
  | internal l r => rfl

/-- Settles O36: the list is the CodePoints of the tree, whose leaves it counts and whose root it shows by its lengths. -/
theorem rebuiltTreeShape : Obligations.RebuiltTreeShape := by
  unfold Obligations.RebuiltTreeShape
  intro cps t hz h
  obtain ⟨rfl, hw, hh⟩ := rebuild_eq_ok_iff.1 h
  exact ⟨isInternal_of_codePoints_len_ne_zero hz, (length_codePoints t).symm, hw ▸ t.weightless_unweighted, hh⟩

/-! ## The faults of the reconstruction -/

theorem rebuildNode_leaf (n : Nat) {d : Nat} {c : CodePoint} (h : c.len.toNat = d) (rest : List CodePoint) :
    rebuildNode (n + 1) d (c :: rest) = .ok (.leaf c.sym 0, rest) := by
  simp only [rebuildNode, if_pos h]

theorem rebuildNode_shallow (n : Nat) {d : Nat} {c : CodePoint} (h : c.len.toNat < d) (rest : List CodePoint) :
    rebuildNode (n + 1) d (c :: rest) = .error ⟨.corruptStream, 3⟩ := by
  simp only [rebuildNode, if_neg (Nat.ne_of_lt h), if_pos h, raise]

theorem rebuildNode_deep (n : Nat) {d : Nat} {c : CodePoint} (h : d < c.len.toNat) (rest : List CodePoint) :
    rebuildNode (n + 1) d (c :: rest) =
      (rebuildNode n (d + 1) (c :: rest)).bind fun left =>
        (rebuildNode n (d + 1) left.2).map fun right => (.internal left.1 right.1, right.2) := by
  simp only [rebuildNode, if_neg (Nat.ne_of_gt h), if_neg (Nat.not_lt_of_gt h), bind, Except.bind]
  cases rebuildNode n (d + 1) (c :: rest) with
  | error e => rfl
  | ok left => cases rebuildNode n (d + 1) left.2 <;> rfl

/-- Entries behind those that the reconstruction has read do not change what it does; only a list that ended too early
(sub-cause 2) leaves it open what more entries would do. -/
theorem rebuildNode_append {n d : Nat} {cps : List CodePoint}
    (h : rebuildNode n d cps ≠ .error ⟨.corruptStream, 2⟩) (more : List CodePoint) :
    rebuildNode n d (cps ++ more) = (rebuildNode n d cps).map fun p => (p.1, p.2 ++ more) := by
  induction n generalizing d cps with
  | zero => rfl
  | succ n ih =>
    cases cps with
    | nil => exact absurd rfl h
    | cons c rest =>
      rw [List.cons_append]
      rcases Nat.lt_trichotomy c.len.toNat d with hlt | heq | hgt
      · rw [rebuildNode_shallow n hlt, rebuildNode_shallow n hlt]; rfl
      · rw [rebuildNode_leaf n heq, rebuildNode_leaf n heq]; rfl
      · rw [rebuildNode_deep n hgt] at h ⊢
        rw [rebuildNode_deep n hgt, ← List.cons_append]
        cases hl : rebuildNode n (d + 1) (c :: rest) with
        | error e =>
          rw [hl] at h
          rw [ih (by rw [hl]; exact h), hl]; rfl
        | ok left =>
          rw [hl] at h
          rw [ih (by rw [hl]; nofun), hl]
          cases hr : rebuildNode n (d + 1) left.2 with
          | error e =>
            simp only [Except.bind, hr] at h
            simp only [Except.bind, Except.map, hr, ih (by rw [hr]; exact h)]
          | ok right =>
            simp only [Except.bind, Except.map, hr, ih (by rw [hr]; nofun)]

/-- A list that ends while a node is still needed begins the CodePoints of a tree: a leaf at every place still open
completes it. -/
theorem exists_completion_of_rebuildNode_short {n d : Nat} {cps : List CodePoint} (hd : d ≤ 255)
    (h : rebuildNode n d cps = .error ⟨.corruptStream, 2⟩) :
    ∃ more t, more ≠ [] ∧ cps ++ more = codePointsAt t d ∧ d + t.height ≤ 255 := by
  induction n generalizing d cps with
  | zero => cases h
  | succ n ih =>
    cases cps with
    | nil => exact ⟨codePointsAt (.leaf 0 0) d, .leaf 0 0, List.cons_ne_nil _ _, rfl, hd⟩
    | cons c rest =>
      rcases Nat.lt_trichotomy c.len.toNat d with hlt | heq | hgt
      · rw [rebuildNode_shallow n hlt] at h; cases h
      · rw [rebuildNode_leaf n heq] at h; cases h
      · rw [rebuildNode_deep n hgt] at h
        have hd' : d + 1 ≤ 255 := by have := c.len.isLt; omega
        rcases rebuildNode_cases n (d + 1) (c :: rest) with ⟨l, rest', hl, hcps, -, hheight⟩ | ⟨k, -, hl⟩
        · rw [hl] at h
          cases hr : rebuildNode n (d + 1) rest' with
          | ok right => simp [Except.bind, Except.map, hr] at h
          | error e =>
            simp only [Except.bind, Except.map, hr] at h
            obtain ⟨more, r, hne, hmore, hheight'⟩ := ih hd' (hr.trans h)
            refine ⟨more, .internal l r, hne, by rw [hcps, List.append_assoc, hmore, codePointsAt], ?_⟩
            simp only [PrefixNode.height]
            omega
        · rw [hl] at h
          obtain ⟨more, l, -, hmore, hheight⟩ := ih hd' (hl.trans h)
          refine ⟨more ++ codePointsAt (.leaf 0 0) (d + 1), .internal l (.leaf 0 0), by simp [codePointsAt],
            by rw [← List.append_assoc, hmore]; rfl, ?_⟩
          simp only [PrefixNode.height]
          omega

/-- Sub-cause 4 is `Rebuild`'s own fault (rule R157); every other is one of `Node`. -/
theorem rebuildNode_of_rebuild_error {cps : List CodePoint} {e : Raise} (h : rebuild cps = .error e)
    (he : e ≠ ⟨.corruptStream, 4⟩) : rebuildNode 257 0 cps = .error e := by
  cases hnode : rebuildNode 257 0 cps with
  | error e' => rw [Except.error.inj ((rebuild_of_rebuildNode_error hnode).symm.trans h)]
  | ok p =>
    rw [rebuild_of_rebuildNode_ok hnode] at h
    split at h
    · cases h
    · exact absurd (Except.error.inj h).symm he

/-- Entries behind a complete tree are left over (rule R157). -/
theorem rebuild_append_of_ok {cps more : List CodePoint} {t : PrefixNode} (h : rebuild cps = .ok t) (hne : more ≠ []) :
    rebuild (cps ++ more) = .error ⟨.corruptStream, 4⟩ := by
  obtain ⟨rfl, -, hh⟩ := rebuild_eq_ok_iff.1 h
  rw [codePoints, rebuild_of_rebuildNode_ok (rebuildNode_codePoints 257 t 0 more (by omega) (Nat.le_refl _)), if_neg hne]

theorem exists_take_of_rebuild_left_over {cps : List CodePoint} (h : rebuild cps = .error ⟨.corruptStream, 4⟩) :
    ∃ k t, k < cps.length ∧ rebuild (cps.take k) = .ok t := by
  rcases rebuildNode_cases 257 0 cps with ⟨t, rest, e, rfl, -, hh⟩ | ⟨k, hk, e⟩
  · refine ⟨(codePoints t).length, t.unweighted, ?_, ?_⟩
    · have hne : rest ≠ [] := fun hnil => by
        rw [rebuild_of_rebuildNode_ok e, if_pos hnil] at h
        cases h
      rw [List.length_append]
      exact Nat.lt_add_of_pos_right (List.length_pos_of_ne_nil hne)
    · rw [codePoints, List.take_left]
      exact rebuild_codePoints (by omega)
  · rw [rebuild_of_rebuildNode_error e] at h
    rcases hk with rfl | rfl <;> cases h

theorem exists_append_of_rebuild_short {cps : List CodePoint} (h : rebuild cps = .error ⟨.corruptStream, 2⟩) :
    ∃ more t, more ≠ [] ∧ rebuild (cps ++ more) = .ok t := by
  have hnode := rebuildNode_of_rebuild_error h (by decide)
  obtain ⟨more, t, hne, hmore, hh⟩ := exists_completion_of_rebuildNode_short (Nat.zero_le _) hnode
  exact ⟨more, t.unweighted, hne, hmore ▸ rebuild_codePoints (by omega)⟩

/-- A length below the depth of its node stays a fault, whatever entries follow (rule R155). -/
theorem rebuild_append_of_shallow {cps : List CodePoint} (h : rebuild cps = .error ⟨.corruptStream, 3⟩)
    (more : List CodePoint) : rebuild (cps ++ more) = .error ⟨.corruptStream, 3⟩ := by
  have hnode := rebuildNode_of_rebuild_error h (by decide)
  refine rebuild_of_rebuildNode_error ?_
  rw [rebuildNode_append (by rw [hnode]; decide), hnode]
  rfl

/-- A proper initial part that describes a tree makes the rest left over. -/
theorem rebuild_of_take {cps : List CodePoint} {k : Nat} {t : PrefixNode} (hk : k < cps.length)
    (h : rebuild (cps.take k) = .ok t) : rebuild cps = .error ⟨.corruptStream, 4⟩ := by
  have hne : cps.drop k ≠ [] := fun e => Nat.not_le_of_lt hk (List.drop_eq_nil_iff.1 e)
  rw [← rebuild_append_of_ok h hne, List.take_append_drop]

/-- A proper initial part of a list that describes a tree ends too early. -/
theorem rebuild_of_append_ok {cps more : List CodePoint} {t : PrefixNode} (hne : more ≠ [])
    (h : rebuild (cps ++ more) = .ok t) : rebuild cps = .error ⟨.corruptStream, 2⟩ := by
  rcases rebuild_cases cps with ⟨t', e, -⟩ | ⟨k, rfl | rfl | rfl, e⟩
  · cases h.symm.trans (rebuild_append_of_ok e hne)
  · exact e
  · cases h.symm.trans (rebuild_append_of_shallow e more)
  · obtain ⟨k, t', hk, e'⟩ := exists_take_of_rebuild_left_over e
    rw [← List.take_append_of_le_length (l₂ := more) hk.le] at e'
    cases h.symm.trans (rebuild_of_take (by rw [List.length_append]; omega) e')

/-- Settles O37: the reconstruction has three faults, and each is decided by whether a proper initial part of the list, or an
extension of it, describes a tree. -/
theorem malformedListsFault : Obligations.MalformedListsFault := by
  unfold Obligations.MalformedListsFault
  intro cps
  refine ⟨⟨exists_take_of_rebuild_left_over, fun ⟨k, t, hk, h⟩ => rebuild_of_take hk h⟩,
    ⟨exists_append_of_rebuild_short, fun ⟨more, t, hne, h⟩ => rebuild_of_append_ok hne h⟩,
    fun h => ⟨fun k t hk => ?_, fun more t hmore => ?_⟩, fun ⟨hpart, hmore⟩ => ?_⟩
  · rcases Nat.lt_or_ge k cps.length with hlt | hge
    · cases h.symm.trans (rebuild_of_take hlt hk)
    · rw [List.take_of_length_le hge] at hk
      cases h.symm.trans hk
  · cases hmore.symm.trans (rebuild_append_of_shallow h more)
  · rcases rebuild_cases cps with ⟨t, e, -⟩ | ⟨k, rfl | rfl | rfl, e⟩
    · exact absurd e (List.take_length (l := cps) ▸ hpart cps.length t)
    · obtain ⟨more, t, -, e'⟩ := exists_append_of_rebuild_short e
      exact absurd e' (hmore more t)
    · exact e
    · obtain ⟨k, t, -, e'⟩ := exists_take_of_rebuild_left_over e
      exact absurd e' (hpart k t)

/-! ## Streams -/

theorem length_pack (bits : BitSeq) : (pack bits).length = (bits.length + 7) / 8 := by
  rw [(expand_pack bits).1, paddingBits]
  omega

/-- Each symbol that has a leaf stands for its code. -/
theorem forall₂_lookupCode_codeOf {t : PrefixNode} {symbols : List Byte} (h : ∀ x ∈ symbols, x ∈ t.symbols) :
    List.Forall₂ (fun x code => lookupCode t x = some code) symbols (symbols.map (codeOf t)) := by
  rw [List.forall₂_map_right_iff, List.forall₂_same]
  exact fun x hx => (lookupCode_eq_walkLookup t x).trans (walkLookup_codeOf (h x hx))

theorem length_streamBits (t : PrefixNode) (symbols : List Byte) :
    (streamBits t symbols).length = 16 * t.leafCount + 8 + (payloadOf t symbols).length := by
  rw [streamBits, List.length_append, length_descriptorBits, length_codePoints]

/-- Settles O43: a stream is the descriptor and one code per symbol, no code is longer than the tree is high, and a decoded
symbol takes at least one bit of the stream. -/
theorem streamsFitOut : Obligations.StreamsFitOut := by
  unfold Obligations.StreamsFitOut
  refine ⟨descriptorBits_eq, fun t symbols bytes n h => ?_, fun packed d h => ?_⟩
  · rcases serialize_cases t symbols with ⟨hmem, e⟩ | ⟨_, _, _, _, _, _, e⟩
    · obtain ⟨rfl, rfl⟩ := Prod.mk.inj (Except.ok.inj (h.symm.trans e))
      exact ⟨symbols.map (codeOf t), forall₂_lookupCode_codeOf hmem, rfl, length_streamBits t symbols, length_pack _,
        fun hl => ⟨length_streamBits_le t symbols hl, fun p hp => length_serialize_le p hl h hp⟩⟩
    · cases h.symm.trans e
  · rcases deserialize_cases packed with ⟨t, p, rest, out, sent, hbits, -, -, -, -, -, hout, e, -⟩ | ⟨k, -, -, e⟩
    · cases h.symm.trans e
      have hlen := congrArg List.length hbits
      simp only [length_expand, List.length_append, length_descriptorBits, length_codePoints] at hlen
      constructor <;> dsimp only <;> omega
    · cases h.symm.trans e

end Sys2Proof.Machine

/-! PROOFS. The bit serializer (spec/43_bit_serializer.md): packing (rules R172 and R173), the SERIALIZE and ENCODE commands
(R176 and R178), and that ENCODE is BUILD and then SERIALIZE over the input with its sentinel (R178). -/

namespace Sys2Proof.Machine

/-! ## Packing -/

/-- The padding fills the last byte. -/
theorem paddingBits_eq (n : Nat) : paddingBits n = 8 * ((n + 7) / 8) - n := by
  rw [paddingBits]
  omega

/-- Settles O40: the packed bytes spell the bits and their padding, and the padding ends at the next multiple of 8. -/
theorem packPadsToWholeBytes : Obligations.PackPadsToWholeBytes := by
  unfold Obligations.PackPadsToWholeBytes
  refine fun bits => ⟨length_pack bits, ?_⟩
  rw [(expand_pack bits).2, paddingBits_eq, List.append_assoc]

/-! ## SERIALIZE -/

theorem serialize_missing {t : PrefixNode} {before after : List Byte} {x : Byte} (h : ∀ y ∈ before, y ∈ t.symbols)
    (hx : x ∉ t.symbols) : serialize t (before ++ x :: after) = .error ⟨.symbolNotInTree, x.setWidth 64⟩ := by
  simp only [serialize, payloadBits_missing h hx, bind, Except.bind]

theorem exec_serialize_missing {s : State} (hr : s.ready) (hv : Status.treeV s.status = false) :
    exec .serialize s = .next (s.enterFault .sequence 4) := by
  refine exec_of_ownWork hr (r := .error ⟨.sequence, 4⟩) (by decide) ?_
  simp only [ownWork, runSerialize, needTree_missing hv, bind, Except.bind]
  rfl

theorem exec_serialize_over {s : State} (hr : s.ready) (hv : Status.treeV s.status = true) {t : PrefixNode}
    (ht : s.tree = some t) (hc : s.params.inCap < s.inLen.toNat) :
    exec .serialize s = .next (s.enterFault .capacity s.inLen) := by
  refine exec_of_ownWork hr (r := .error ⟨.capacity, s.inLen⟩) (by decide) ?_
  simp only [ownWork, runSerialize, needTree_held hv ht, needCapacity_over hc, bind, Except.bind]

/-- With a tree held and within the capacity SERIALIZE answers what `Serialize` answers on `IN[0..IN_LEN)`. -/
theorem exec_serialize_within {s : State} (hr : s.ready) (hv : Status.treeV s.status = true) {t : PrefixNode}
    (ht : s.tree = some t) (hc : s.inLen.toNat ≤ s.params.inCap) {r : Result (List Byte × Nat)}
    (hs : serialize t s.inBytes = r) :
    exec .serialize s = .next (s.settle (r.map fun p => s.withSerialized t p.1 p.2)) := by
  refine exec_of_ownWork hr (by decide) ?_
  simp only [ownWork, runSerialize, needTree_held hv ht, needCapacity_within hc, hs, bind, Except.bind]
  cases r <;> rfl

/-- Settles O20: with a tree held SERIALIZE tests the capacity and then looks for the first symbol without a leaf; without
one it stores the packed stream and both tables. -/
theorem serializeCommand : Obligations.SerializeCommand := by
  unfold Obligations.SerializeCommand
  intro s hr
  refine ⟨exec_serialize_missing hr, fun t hv ht => ⟨exec_serialize_over hr hv ht, fun before x after hc hin hb hx => ?_,
    fun hc hm => ?_⟩⟩
  · exact exec_serialize_within hr hv ht hc (hin ▸ serialize_missing hb hx)
  · have hs := serialize_ok hm
    exact ⟨_, _, _, hs, exec_serialize_within hr hv ht hc hs, Status.phase_make .., Status.codeV_make .., Status.cpV_make ..,
      Status.outV_make .., Status.sent_make .., Status.freqV_make .., (Status.treeV_make ..).trans hv, rfl, rfl, rfl, rfl,
      rfl, read_codeTable s.code t, fun i hi => read_codeTable_beyond s.code t hi, Space.read_store s.cp (codePoints t),
      Space.read_store s.outMem _, rfl, rfl, rfl, rfl, rfl, rfl, rfl, rfl, rfl, rfl⟩

/-! ## ENCODE -/

theorem exec_encode_over {s : State} (hr : s.ready) (hc : s.params.inCap < s.inLen.toNat) :
    exec .encode s = .next (s.enterFault .capacity s.inLen) := by
  refine exec_of_ownWork hr (r := .error ⟨.capacity, s.inLen⟩) (by decide) ?_
  simp only [ownWork, runEncode, needCapacity_over hc, bind, Except.bind]

/-- Within the capacity ENCODE answers what `Encode` answers on `IN[0..IN_LEN)`. -/
theorem exec_encode_within {s : State} (hr : s.ready) (hc : s.inLen.toNat ≤ s.params.inCap)
    {r : Result (PrefixNode × List Byte × Nat)} (he : encodeBytes s.params.childOrder s.inBytes = r) :
    exec .encode s =
      .next (s.settle (r.map fun p => s.withEncoded (withSentinel s.inBytes) p.1 p.2.1 p.2.2)) := by
  refine exec_of_ownWork hr (by decide) ?_
  simp only [ownWork, runEncode, needCapacity_within hc, he, bind, Except.bind]
  cases r <;> rfl

theorem encodeBytes_of_build_error {o : ChildOrder} {input : List Byte} {e : Raise}
    (h : build o (withSentinel input) = .error e) : encodeBytes o input = .error e := by
  simp only [encodeBytes, h, bind, Except.bind]

theorem encodeBytes_of_serialize {o : ChildOrder} {input bytes : List Byte} {t : PrefixNode} {n : Nat}
    (hb : build o (withSentinel input) = .ok t) (hs : serialize t (withSentinel input) = .ok (bytes, n)) :
    encodeBytes o input = .ok (t, bytes, n) := by
  simp only [encodeBytes, hb, hs, bind, Except.bind]
  rfl

/-- An input that fits IN is short enough for its sentinel to be counted with it. -/
theorem State.length_inBytes_lt_of_wf {s : State} (hw : s.params.wf = true) (hc : s.inLen.toNat ≤ s.params.inCap) :
    s.inBytes.length < 2 ^ 33 := by
  simp only [Params.wf, Bool.and_eq_true, decide_eq_true_eq] at hw
  rw [s.length_inBytes]
  omega

theorem build_sentinel_of_zeros (o : ChildOrder) {input : List Byte} (hl : input.length < 2 ^ 33) (h : ∀ x ∈ input, x = 0) :
    build o (withSentinel input) = .error ⟨.singleSymbol, 0⟩ := by
  rcases build_sentinel o input hl with ⟨⟨x, hx, hne⟩, -⟩ | ⟨-, e⟩
  · exact absurd (h x hx) hne
  · exact e

/-- An input with a nonzero byte has a tree with its sentinel, and the tree has a leaf for each of their symbols. -/
theorem exists_build_serialize_sentinel (o : ChildOrder) {input : List Byte} (hl : input.length < 2 ^ 33)
    (h : ∃ x ∈ input, x ≠ 0) :
    ∃ t bytes n, build o (withSentinel input) = .ok t ∧ serialize t (withSentinel input) = .ok (bytes, n) := by
  rcases build_sentinel o input hl with ⟨-, t, hb, hm, -⟩ | ⟨hz, -⟩
  · exact ⟨t, _, _, hb, serialize_ok hm⟩
  · obtain ⟨x, hx, hne⟩ := h
    exact absurd (hz x hx) hne

theorem read_freqTable_beyond (m : Space Word) (symbols : List Byte) {i : Nat} (h : 256 ≤ i) :
    (m.store (freqTable symbols)).read i = m.read i := by
  rw [Space.read_store, length_freqTable, if_neg (Nat.not_lt.2 h)]

/-- `STATUS` after ENCODE: DONE with every valid flag (rules R24 and R178). -/
theorem status_make_encoded : Status.make .done true true true true true false = 0x7E := by decide

/-- Settles O22: the input and its sentinel hold two symbols exactly if the input has a nonzero byte, and the tree built from
them has a leaf for each. -/
theorem encodeCommand : Obligations.EncodeCommand := by
  unfold Obligations.EncodeCommand
  intro s hw hr
  refine ⟨exec_encode_over hr, fun hc hz => ?_, fun hc hx => ?_⟩
  · have hb := build_sentinel_of_zeros s.params.childOrder (s.length_inBytes_lt_of_wf hw hc) hz
    exact exec_encode_within hr hc (encodeBytes_of_build_error hb)
  · obtain ⟨t, bytes, n, hb, hs⟩ :=
      exists_build_serialize_sentinel s.params.childOrder (s.length_inBytes_lt_of_wf hw hc) hx
    exact ⟨t, bytes, n, _, hb, hs, exec_encode_within hr hc (encodeBytes_of_serialize hb hs), status_make_encoded, rfl, rfl,
      read_freqTable s.freq _, fun i hi => read_freqTable_beyond s.freq _ hi, rfl, rfl, read_codeTable s.code t,
      fun i hi => read_codeTable_beyond s.code t hi, Space.read_store s.cp (codePoints t), Space.read_store s.outMem bytes,
      rfl, rfl, rfl, rfl, rfl, rfl, rfl, rfl, rfl, rfl⟩

/-! ## ENCODE in two stages -/

/-- What SERIALIZE leaves after BUILD is what ENCODE leaves. -/
theorem State.withSerialized_withBuilt (s : State) (symbols bytes : List Byte) (t : PrefixNode) (n : Nat) :
    (s.withBuilt symbols t).withSerialized t bytes n = s.withEncoded symbols t bytes n := by
  simp only [State.withSerialized, State.withBuilt_status, Status.freqV_make, Status.treeV_make]
  rfl

/-- BUILD and then SERIALIZE leave what ENCODE leaves, over symbols that they find in IN. -/
theorem exec_build_then_serialize {s : State} (hr : s.ready) (hc : s.inLen.toNat ≤ s.params.inCap) {t : PrefixNode}
    {bytes : List Byte} {n : Nat} (hb : build s.params.childOrder s.inBytes = .ok t)
    (hs : serialize t s.inBytes = .ok (bytes, n)) :
    exec .build s = .next (s.withBuilt s.inBytes t) ∧
      exec .serialize (s.withBuilt s.inBytes t) = .next (s.withEncoded s.inBytes t bytes n) := by
  refine ⟨exec_build_within hr hc hb, ?_⟩
  rw [← State.withSerialized_withBuilt]
  have hready : (s.withBuilt s.inBytes t).ready := .inr (Status.phase_make ..)
  have hheld : Status.treeV (s.withBuilt s.inBytes t).status = true := Status.treeV_make ..
  exact exec_serialize_within hready hheld rfl hc hs

/-- Settles O24: on the input with its sentinel the two stages compute the tree and the stream that ENCODE computes, and what
they leave does not depend on IN otherwise. -/
theorem encodeEqualsStagedEncode : Obligations.EncodeEqualsStagedEncode := by
  unfold Obligations.EncodeEqualsStagedEncode
  intro s staged hw hr hc hx hstaged hlen hin
  obtain ⟨m, l, rfl⟩ : ∃ m l, staged = { s with inMem := m, inLen := l } := ⟨_, _, hstaged⟩
  have hcap : l.toNat ≤ s.params.inCap := by
    rw [show l = s.inLen + 1 from hlen, BitVec.toNat_add]
    exact (Nat.mod_le ..).trans hc
  obtain ⟨t, bytes, n, hb, hs⟩ :=
    exists_build_serialize_sentinel s.params.childOrder (s.length_inBytes_lt_of_wf hw hc.le) hx
  change State.inBytes _ = withSentinel s.inBytes at hin
  obtain ⟨hbuilt, hdone⟩ :=
    exec_build_then_serialize (s := { s with inMem := m, inLen := l }) hr hcap (hin ▸ hb) (hin ▸ hs)
  refine ⟨_, _, hbuilt, hdone, ?_⟩
  rw [exec_encode_within hr hc.le (encodeBytes_of_serialize hb hs), hin]
  rfl

end Sys2Proof.Machine

/-! PROOFS. The bit deserializer (spec/44_bit_deserializer.md): the expansion (rule R190), the parser (R192 and R193), the walk
(R194 and R195), the DESERIALIZE command (R199), and what decoding makes of a stream: R200 and R201 for any stream, R203 for one
that ENCODE made, R204 for one without a sentinel. -/

namespace Sys2Proof.Machine

/-! ## The expansion -/

/-- R10 and R64: each byte takes eight places, its most significant bit first. -/
theorem getElem?_flatMap_bits8 (packed : List Byte) (j : Nat) :
    (packed.flatMap bits8)[j]? = (packed[j / 8]?).map fun b => b.getLsbD (7 - j % 8) := by
  induction packed generalizing j with
  | nil => rfl
  | cons b packed ih =>
    rw [List.flatMap_cons]
    rcases Nat.lt_or_ge j 8 with hj | hj
    · rw [List.getElem?_append_left (by rwa [length_bits8]), getElem?_bits8, if_pos hj, Nat.div_eq_of_lt hj,
        Nat.mod_eq_of_lt hj]
      rfl
    · obtain ⟨j, rfl⟩ := Nat.exists_eq_add_of_le' hj
      rw [List.getElem?_append_right (by rwa [length_bits8]), length_bits8, Nat.add_sub_cancel, ih,
        Nat.add_div_right j (by decide), Nat.add_mod_right]
      rfl

/-- Settles O41: the guard bit stands behind the bytes' bits, which are eight to a byte. -/
theorem expandIsMostSignificantBitFirst : Obligations.ExpandIsMostSignificantBitFirst := by
  unfold Obligations.ExpandIsMostSignificantBitFirst
  refine fun packed => ⟨length_expand packed, ?_, fun j hj => ?_⟩
  · rw [expand, List.getElem?_append_right (length_flatMap_bits8 packed).le, length_flatMap_bits8, Nat.sub_self]
    rfl
  · rw [expand, List.getElem?_append_left (by rwa [length_flatMap_bits8]), getElem?_flatMap_bits8]

/-! ## The parser -/

theorem appendEntries_nil (cps : List CodePoint) : appendEntries [] cps = entryBits cps :=
  List.append_cancel_right (descriptorBits_eq cps)

theorem readEntry_short {r : Reader} (h : r.rest.length < 8) : readEntry r = .error ⟨.corruptStream, 1⟩ := by
  simp only [readEntry, readField8_short h, bind, Except.bind]

/-- A length other than 0 wants a symbol behind it. -/
theorem readEntry_cut {len : Byte} (hlen : len ≠ 0) {tail : BitSeq} (h : tail.length < 8) (cur : Nat) :
    readEntry ⟨bits8 len ++ tail, cur⟩ = .error ⟨.corruptStream, 1⟩ := by
  have hsym : readField8 ⟨tail, cur + 8⟩ = .error ⟨.corruptStream, 1⟩ := readField8_short h
  simp only [readEntry, readField8_bits8, hsym, bind, Except.bind, if_neg hlen]

/-- A fault in reading an entry is the parser's, whatever room it has. -/
theorem parseEntries_of_readEntry_error {r : Reader} {e : Raise} (h : readEntry r = .error e) (room : Nat) :
    parseEntries room r = .error e := by
  cases room <;> simp only [parseEntries, h, bind, Except.bind]

theorem parseEntries_full {c : CodePoint} (h : c.len ≠ 0) (rest : BitSeq) (cur : Nat) :
    parseEntries 0 ⟨bits8 c.len ++ (bits8 c.sym ++ rest), cur⟩ = .error ⟨.corruptStream, 6⟩ := by
  simp only [parseEntries, readEntry_entry h, bind, Except.bind]
  rfl

/-- The parser reads the entries it has room for and goes on behind them; a fault there is the parser's. -/
theorem parseEntries_error_behind {cps : List CodePoint} (hz : ∀ c ∈ cps, c.len ≠ 0) {room cur : Nat} {rest : BitSeq}
    {e : Raise} (h : parseEntries room ⟨rest, cur + 16 * cps.length⟩ = .error e) :
    parseEntries (cps.length + room) ⟨entryBits cps ++ rest, cur⟩ = .error e := by
  induction cps generalizing cur with
  | nil => simpa [entryBits] using h
  | cons c cps ih =>
    obtain ⟨hc, hz⟩ := List.forall_mem_cons.1 hz
    rw [List.length_cons, Nat.mul_succ, Nat.add_comm _ 16, ← Nat.add_assoc] at h
    rw [entryBits_cons, List.append_assoc, List.append_assoc, List.length_cons, Nat.add_right_comm]
    simp only [parseEntries, readEntry_entry hc, ih hz h, bind, Except.bind]

/-- The parser faults with an entry that faults behind at most 256 others. -/
theorem parseDescriptor_of_readEntry_error {cps : List CodePoint} (hz : ∀ c ∈ cps, c.len ≠ 0) (hl : cps.length ≤ 256)
    {rest : BitSeq} {e : Raise} (h : ∀ cur, readEntry ⟨rest, cur⟩ = .error e) :
    parseDescriptor (entryBits cps ++ rest) = .error e := by
  have := parseEntries_error_behind hz (cur := 0) (parseEntries_of_readEntry_error (h _) (256 - cps.length))
  rwa [Nat.add_sub_of_le hl] at this

/-- R193: the parser faults with the entry number 257. -/
theorem parseDescriptor_overfull {cps : List CodePoint} (hz : ∀ c ∈ cps, c.len ≠ 0) (hl : 256 < cps.length)
    (rest : BitSeq) : parseDescriptor (entryBits cps ++ rest) = .error ⟨.corruptStream, 6⟩ := by
  have hsplit : entryBits cps = entryBits (cps.take 256) ++ entryBits (cps[256] :: cps.drop 257) := by
    rw [← List.drop_eq_getElem_cons, entryBits, entryBits, entryBits, ← List.flatMap_append, List.take_append_drop]
  have hlen : (cps.take 256).length = 256 := List.length_take_of_le hl.le
  have hfull := parseEntries_full (hz cps[256] (List.getElem_mem hl)) (entryBits (cps.drop 257) ++ rest)
    (0 + 16 * (cps.take 256).length)
  have := parseEntries_error_behind (fun c hc => hz c (List.mem_of_mem_take hc)) hfull
  rw [hsplit, entryBits_cons, List.append_assoc, List.append_assoc, List.append_assoc]
  rwa [hlen] at this

/-- Settles O38: the parser gets through the entries, and what follows them decides: a terminator, too few bits for the next
field, or one entry too many. -/
theorem parserReadsTheDescriptor : Obligations.ParserReadsTheDescriptor := by
  unfold Obligations.ParserReadsTheDescriptor
  intro cps hz
  rw [appendEntries_nil]
  refine ⟨fun hl rest => ?_, fun hl tail ht => ⟨?_, fun len hlen => ?_⟩, parseDescriptor_overfull hz⟩
  · exact Nat.zero_add (16 * cps.length + 8) ▸ parseEntries_descriptor 256 cps rest 0 hz hl
  · exact parseDescriptor_of_readEntry_error hz hl fun _ => readEntry_short ht
  · exact parseDescriptor_of_readEntry_error hz hl (readEntry_cut hlen ht)

/-! ## The walk -/

theorem walk_internal_cons (l r : PrefixNode) (b : Bool) (rest : BitSeq) (cur : Nat) :
    walk (.internal l r) ⟨b :: rest, cur⟩ = walk (if b then r else l) ⟨rest, cur + 1⟩ := by cases b <;> rfl

theorem PrefixNode.leafAt_internal_cons (l r : PrefixNode) (b : Bool) (path : BitSeq) :
    (internal l r).leafAt (b :: path) = (if b then r else l).leafAt path := by cases b <;> rfl

theorem walk_of_leafAt {t : PrefixNode} {path : BitSeq} {x : Byte} (h : t.leafAt path = some x) (rest : BitSeq) (cur : Nat) :
    walk t ⟨path ++ rest, cur⟩ = .ok (x, ⟨rest, cur + path.length⟩) := by
  induction path generalizing t cur with
  | nil =>
    cases t with
    | leaf s w => cases h; rfl
    | internal l r => cases h
  | cons b path ih =>
    cases t with
    | leaf s w => cases h
    | internal l r =>
      rw [PrefixNode.leafAt_internal_cons] at h
      rw [List.cons_append, walk_internal_cons, ih h, List.length_cons, Nat.add_assoc, Nat.add_comm 1]

theorem walk_of_leafAt_cut {t : PrefixNode} {path : BitSeq} {x : Byte} (h : t.leafAt path = some x) {k : Nat}
    (hk : k < path.length) (cur : Nat) : walk t ⟨path.take k, cur⟩ = .error ⟨.corruptStream, 5⟩ := by
  induction path generalizing t k cur with
  | nil => cases hk
  | cons b path ih =>
    cases t with
    | leaf s w => cases h
    | internal l r =>
      rw [PrefixNode.leafAt_internal_cons] at h
      cases k with
      | zero => rfl
      | succ k => rw [List.take_succ_cons, walk_internal_cons, ih h (Nat.lt_of_succ_lt_succ hk)]

theorem leafAt_of_walkLookup {t : PrefixNode} {x : Byte} {path : BitSeq} (h : walkLookup t x = some path) :
    t.leafAt path = some x := by
  induction t generalizing path with
  | leaf s w =>
    obtain ⟨rfl, hp⟩ := Option.ite_none_right_eq_some.1 h
    cases hp
    rfl
  | internal l r ihl ihr =>
    rw [walkLookup] at h
    split at h
    next p hp =>
      cases h
      exact ihl hp
    next =>
      obtain ⟨p, hp, rfl⟩ := Option.map_eq_some_iff.1 h
      exact ihr hp

/-- Settles O39: the walk and `leafAt` take the same turn at every bit. -/
theorem walkReadsOneCode : Obligations.WalkReadsOneCode := by
  unfold Obligations.WalkReadsOneCode
  exact fun t => ⟨fun s code h => leafAt_of_walkLookup ((lookupCode_eq_walkLookup t s).symm.trans h),
    fun s path cur h => ⟨fun rest => walk_of_leafAt h rest cur, fun k hk => walk_of_leafAt_cut h hk cur⟩⟩

/-! ## DESERIALIZE -/

theorem deserialize_error_kind {packed : List Byte} {e : Raise} (h : deserialize packed = .error e) :
    e.kind = .corruptStream := by
  rcases deserialize_cases packed with ⟨t, p, rest, out, sent, -, -, -, -, -, -, -, e', -⟩ | ⟨k, -, -, e'⟩
  · cases h.symm.trans e'
  · cases h.symm.trans e'
    rfl

theorem exec_deserialize_over {s : State} (hr : s.ready) (hc : s.params.inCap < s.inLen.toNat) :
    exec .deserialize s = .next (s.enterFault .capacity s.inLen) := by
  refine exec_of_ownWork hr (r := .error ⟨.capacity, s.inLen⟩) (by decide) ?_
  simp only [ownWork, runDeserialize, needCapacity_over hc, bind, Except.bind]

/-- Within the capacity DESERIALIZE answers what `Deserialize` answers on `IN[0..IN_LEN)`. -/
theorem exec_deserialize_within {s : State} (hr : s.ready) (hc : s.inLen.toNat ≤ s.params.inCap) {r : Result Decoded}
    (hd : deserialize s.inBytes = r) : exec .deserialize s = .next (s.settle (r.map s.withDecoded)) := by
  refine exec_of_ownWork hr (by decide) ?_
  simp only [ownWork, runDeserialize, needCapacity_within hc, hd, bind, Except.bind]
  cases r <;> rfl

theorem exec_deserialize_ok {s : State} (hr : s.ready) (hc : s.inLen.toNat ≤ s.params.inCap) {d : Decoded}
    (hd : deserialize s.inBytes = .ok d) : exec .deserialize s = .next (s.withDecoded d) := exec_deserialize_within hr hc hd

/-- `STATUS` after DESERIALIZE: DONE with `TREE_V`, `CP_V`, `OUT_V` and `SENT` (rules R24 and R199). -/
theorem status_make_decoded (sent : Bool) :
    Status.make .done false true false true true sent = if sent then 0xEA else 0x6A := by cases sent <;> decide

/-- Settles O21: within the capacity DESERIALIZE answers what `Deserialize` answers, whose only fault is `CorruptStream`. -/
theorem deserializeCommand : Obligations.DeserializeCommand := by
  unfold Obligations.DeserializeCommand
  refine fun s hr => ⟨exec_deserialize_over hr, fun e hc he => ?_, fun d hc hd => ?_⟩
  · rw [← deserialize_error_kind he]
    exact exec_deserialize_within hr hc he
  · exact ⟨s.withDecoded d, exec_deserialize_ok hr hc hd, status_make_decoded d.sent, rfl, rfl, rfl, rfl,
      Space.read_store s.cp d.cps, Space.read_store s.outMem d.out, rfl, rfl, rfl, rfl, rfl, rfl, rfl, rfl, rfl, rfl, rfl,
      rfl⟩

/-! ## The bits behind the sentinel -/

/-- Settles O44: a decoding that stops on the sentinel is the same whatever bits, at least the guard bit, follow those it
read. -/
theorem nothingIsReadPastTheSentinel : Obligations.NothingIsReadPastTheSentinel := by
  unfold Obligations.NothingIsReadPastTheSentinel
  intro packed d h
  rcases deserialize_cases packed with ⟨t, p, rest, out, sent, hbits, -, -, -, -, h0, -, e, hany⟩ | ⟨k, -, -, e⟩
  · cases h.symm.trans e
    refine ⟨h0, fun packed' hsent hcur htake => ?_⟩
    dsimp only at hcur htake
    refine (hany hsent packed' ((expand packed').drop (16 * t.leafCount + 8 + p.length)) ?_ ?_).trans e
    · refine List.ne_nil_of_length_pos ?_
      rw [List.length_drop, length_expand]
      omega
    · have hread : (expand packed).take (16 * t.leafCount + 8 + p.length) = descriptorBits (codePoints t) ++ p := by
        rw [hbits, ← List.append_assoc]
        refine List.take_left' ?_
        rw [List.length_append, length_descriptorBits, length_codePoints]
      rw [← List.append_assoc, ← hread, ← htake, List.take_append_drop]
  · cases h.symm.trans e

/-! ## The round trip -/

/-- The input up to its first zero byte, and the zero byte that ends it, stand at the front of the input and its sentinel. -/
theorem exists_withSentinel_eq (input : List Byte) :
    ∃ ys, withSentinel input = input.takeWhile (fun x => x ≠ 0) ++ 0 :: ys := by
  induction input with
  | nil => exact ⟨[], rfl⟩
  | cons x xs ih =>
    by_cases hx : x = 0
    · exact ⟨withSentinel xs, by rw [hx]; rfl⟩
    · obtain ⟨ys, e⟩ := ih
      refine ⟨ys, ?_⟩
      rw [List.takeWhile_cons_of_pos (p := fun x : Byte => x ≠ 0) (decide_eq_true hx), List.cons_append, ← e]
      rfl

/-- The tree that ENCODE builds for an input with a nonzero byte, and the stream it makes with it. -/
theorem exists_tree_encodeBytes (o : ChildOrder) {input : List Byte} (hl : input.length < 2 ^ 33)
    (h : ∃ x ∈ input, x ≠ 0) :
    ∃ t, t.isInternal = true ∧ t.leafCount ≤ 256 ∧ (∀ x ∈ withSentinel input, x ∈ t.symbols) ∧
      encodeBytes o input =
        .ok (t, pack (streamBits t (withSentinel input)), (streamBits t (withSentinel input)).length) := by
  rcases build_sentinel o input hl with ⟨-, t, hb, hm, hi⟩ | ⟨hz, -⟩
  · exact ⟨t, hi, build_ok_leafCount_le o hb, hm, encodeBytes_of_serialize hb (serialize_ok hm)⟩
  · obtain ⟨x, hx, hne⟩ := h
    exact absurd (hz x hx) hne

/-- R203: a stream of an input and its sentinel decodes to the input up to its first zero byte. -/
theorem deserialize_withSentinel {t : PrefixNode} (hi : t.isInternal = true) (hl : t.leafCount ≤ 256) {input : List Byte}
    (hm : ∀ x ∈ withSentinel input, x ∈ t.symbols) :
    deserialize (pack (streamBits t (withSentinel input))) =
      .ok ⟨t.unweighted, input.takeWhile (fun x => x ≠ 0), codePoints t,
        (streamBits t (withSentinel (input.takeWhile fun x => x ≠ 0))).length, true⟩ := by
  obtain ⟨ys, e⟩ := exists_withSentinel_eq input
  have h0 : (0 : Byte) ∉ input.takeWhile fun x => x ≠ 0 := fun h => by simpa using List.mem_takeWhile_imp h
  rw [e] at hm ⊢
  exact deserialize_sentinel hi hl _ ys hm h0

theorem takeWhile_ne_zero_eq_self {input : List Byte} (h : (0 : Byte) ∉ input) :
    input.takeWhile (fun x => x ≠ 0) = input :=
  List.takeWhile_eq_self_iff.2 fun _ hx => decide_eq_true (ne_of_mem_of_not_mem hx h)

/-- Settles O45: the stream of ENCODE is that of the input and its sentinel, and the first zero byte of these ends the
decoding. -/
theorem decodeInvertsEncode : Obligations.DecodeInvertsEncode := by
  unfold Obligations.DecodeInvertsEncode
  intro o input hlen
  have hlen : input.length < 2 ^ 33 := by omega
  refine ⟨fun hx => ?_, fun hz => encodeBytes_of_build_error (build_sentinel_of_zeros o hlen hz)⟩
  obtain ⟨t, hi, hl, hm, he⟩ := exists_tree_encodeBytes o hlen hx
  refine ⟨t, _, _, _, he, deserialize_withSentinel hi hl hm, rfl, rfl, t.same_unweighted, rfl, fun h0 => ?_⟩
  rw [takeWhile_ne_zero_eq_self h0]
  exact ⟨rfl, rfl⟩

/-- Where OUT was stored whole and `OUT_LEN` is its length, `OUT[0..OUT_LEN)` is what was stored. -/
theorem State.outBytes_of_store {u : State} {m : Memory} {xs : List Byte} (hm : u.outMem = m.store xs)
    (hl : u.outLen.toNat = xs.length) : u.outBytes = xs.map some := by
  have hlength : u.outBytes.length = (xs.map some).length := by
    rw [State.outBytes, List.length_map, List.length_map, List.length_range, hl]
  refine List.ext_getElem hlength fun i hi hi' => ?_
  rw [List.length_map] at hi'
  simp only [State.outBytes, hm, List.getElem_map, List.getElem_range, Space.read_store, if_pos hi',
    List.getElem?_eq_getElem hi']

/-- Settles O47: OUT holds the stream of the input and its sentinel, and from the input alone, whatever else the second state
holds, DESERIALIZE recovers what stands before the first zero byte. -/
theorem encodeThenDeserializeRestoresInput : Obligations.EncodeThenDeserializeRestoresInput := by
  unfold Obligations.EncodeThenDeserializeRestoresInput
  intro s hw hr hc hne h0
  have hnonzero : ∃ x ∈ s.inBytes, x ≠ 0 := by
    obtain ⟨x, hx⟩ := List.exists_mem_of_ne_nil _ hne
    exact ⟨x, hx, ne_of_mem_of_not_mem hx h0⟩
  obtain ⟨t, hi, hl, hm, he⟩ :=
    exists_tree_encodeBytes s.params.childOrder (s.length_inBytes_lt_of_wf hw hc) hnonzero
  have hd := deserialize_withSentinel hi hl hm
  rw [takeWhile_ne_zero_eq_self h0] at hd
  generalize hstream : pack (streamBits t (withSentinel s.inBytes)) = stream at he hd
  refine ⟨_, exec_encode_within hr hc he, status_make_encoded, fun v hvr hvl hvc hv => ?_⟩
  have hfit : (BitVec.ofNat 64 stream.length).toNat = stream.length := by
    refine toNat_outLen hw (length_serialize_le s.params hl (hstream ▸ serialize_ok hm) ?_)
    rw [withSentinel, List.length_append, s.length_inBytes]
    exact Nat.add_le_add_right hc 1
  have hin : v.inBytes = stream := by
    rw [State.outBytes_of_store rfl hfit] at hv
    exact List.map_injective_iff.2 (Option.some_injective _) hv
  rw [← hin] at hd
  have hlen : BitVec.ofNat 64 s.inBytes.length = s.inLen := by
    rw [s.length_inBytes, BitVec.ofNat_toNat, BitVec.setWidth_eq]
  refine ⟨_, exec_deserialize_ok hvr hvc hd, status_make_decoded true, ?_, hlen, rfl⟩
  exact State.outBytes_of_store rfl ((congrArg BitVec.toNat hlen).trans s.length_inBytes.symm)

/-! ## Streams without a sentinel -/

/-- R197: a single bit, the guard bit, is too little for a walk. -/
theorem decodeLoop_single_bit (t : PrefixNode) (n : Nat) (b : Bool) (cur : Nat) :
    decodeLoop t n ⟨[b], cur⟩ = .ok ([], ⟨[b], cur⟩, false) := by cases n <;> rfl

/-- A stream of symbols without the sentinel is decoded to these symbols and what the loop makes of the bits behind them. -/
theorem deserialize_stream_append {t : PrefixNode} (hi : t.isInternal = true) (hl : t.leafCount ≤ 256) {xs : List Byte}
    (hm : ∀ x ∈ xs, x ∈ t.symbols) (h0 : (0 : Byte) ∉ xs) {packed : List Byte} {tail : BitSeq} (hne : tail ≠ [])
    (h : expand packed = streamBits t xs ++ tail) :
    ∃ turns, deserialize packed =
      (prepend xs (decodeLoop t.unweighted turns ⟨tail, (streamBits t xs).length⟩)).map
        fun p => ⟨t.unweighted, p.1, codePoints t, p.2.1.cur, p.2.2⟩ := by
  rw [streamBits, List.append_assoc] at h
  have hlen : xs.length ≤ (payloadOf t xs ++ tail).length :=
    (length_le_payloadOf hi hm).trans (List.length_append ▸ Nat.le_add_right ..)
  obtain ⟨turns, hturns⟩ := Nat.exists_eq_add_of_le hlen
  refine ⟨turns, ?_⟩
  have hpayload := decodeLoop_payload (t := t.unweighted) (t.unweighted_isInternal.trans hi) xs
    (t.unweighted_symbols ▸ hm) h0 hne turns (16 * t.leafCount + 8)
  rw [payloadOf_unweighted, ← length_streamBits] at hpayload
  rw [deserialize_stream hi hl packed _ h, hturns, hpayload]
  cases decodeLoop t.unweighted turns ⟨tail, (streamBits t xs).length⟩ <;> rfl

/-- Settles O46: behind the symbols stand zeros alone, which lead to the leftmost leaf; without padding only the guard bit is
left, too little for another walk. -/
theorem streamWithoutSentinelKeepsItsSymbols : Obligations.StreamWithoutSentinelKeepsItsSymbols := by
  unfold Obligations.StreamWithoutSentinelKeepsItsSymbols
  intro t symbols bytes n hi hl h0 hs
  rcases serialize_cases t symbols with ⟨hm, e⟩ | ⟨_, _, _, _, _, _, e⟩
  · obtain ⟨rfl, rfl⟩ := Prod.mk.inj (Except.ok.inj (hs.symm.trans e))
    have hbits := (expand_pack (streamBits t symbols)).2
    rw [← List.replicate_succ'] at hbits
    obtain ⟨turns, hd⟩ := deserialize_stream_append hi hl hm h0 (by simp) hbits
    refine ⟨?_, fun hn => ?_⟩
    · rcases decodeLoop_zeros t.unweighted turns (paddingBits (streamBits t symbols).length + 1)
        (streamBits t symbols).length with hz | ⟨k, x, r, sent, hx, hz⟩
      · rw [hz] at hd
        exact .inl hd
      · rw [hz] at hd
        exact .inr ⟨_, k, x, hd, t.unweighted_symbols ▸ hx, rfl⟩
    · have hpad : paddingBits (streamBits t symbols).length = 0 := by rw [paddingBits, hn]
      rw [hpad, List.replicate_one, decodeLoop_single_bit] at hd
      exact ⟨_, hd, List.append_nil symbols, rfl, rfl⟩
  · cases hs.symm.trans e

end Sys2Proof.Machine

/-! PROOFS. The system commands (spec/45_system_commands.md): which command a step runs (rules R67 and R216), that it completes
(R222), what is dropped in FAULT (R220), the faults `IllegalCommand`, `Sequence` and `Capacity` (R217 to R219), and RESET
(R215). -/

namespace Sys2Proof.Machine

/-! ## Drops -/

theorem exec_of_fault {s : State} (h : s.phase = .fault) {i : Instr} (hi : i ≠ .reset) : exec i s = .next s := by
  rw [exec_ownWork hi, runCommand_dropped (.inr h)]

theorem execWord_of_busy {s : State} (h : s.phase = .busy) (w : Byte) : execWord w s = .next s := by
  rcases execWord_cases w s with ⟨i, _, e⟩ | ⟨_, e⟩
  · rw [e, exec_of_busy h]
  · rw [e, runCommand_dropped (.inl h)]

theorem execWord_of_fault {s : State} (h : s.phase = .fault) {w : Byte} (hw : w ≠ opcode .reset) :
    execWord w s = .next s := by
  rcases execWord_cases w s with ⟨i, rfl, e⟩ | ⟨_, e⟩
  · rw [e, exec_of_fault h fun hi => hw (congrArg opcode hi)]
  · rw [e, runCommand_dropped (.inr h)]

theorem writeCmd_of_fault {s : State} (h : s.phase = .fault) {w : Byte} (hw : w ≠ opcode .reset) :
    writeCmd w s = .next s := by
  rw [writeCmd, if_neg hw, h]

/-- Settles O9: in FAULT the dispatch drops every command but RESET, and so does the write of `CMD`. -/
theorem faultDropsCommands : Obligations.FaultDropsCommands := by
  unfold Obligations.FaultDropsCommands
  refine fun s hp => ⟨fun i hi => exec_of_fault hp hi, fun v hv => ?_⟩
  rw [hostWrite_cmd (by rw [hp]; decide), writeCmd_of_fault hp (mt (ofNat_eq_reset v).1 hv)]

/-! ## The host write of a command word -/

theorem opcode_injective : Function.Injective opcode :=
  fun i j h => Except.ok.inj <| by rw [← decodeWord_opcode i, h, decodeWord_opcode]

/-- With no move behind it the write of `CMD` carries its word out in the same step, in every phase. -/
theorem hostWrite_cmd_last {s : State} (hm : s.moves = []) (v : Nat) :
    hostWrite s 0 0 v = execWord (BitVec.ofNat 8 v) s := by
  by_cases hb : s.phase = .busy
  · rw [hostWrite_of_busy hb, execWord_of_busy hb]
  rw [hostWrite_cmd hb]
  by_cases hw : BitVec.ofNat 8 v = opcode .reset
  · rw [writeCmd, if_pos hw]
  by_cases hr : s.ready
  · exact writeCmd_last hr hw hm
  · have hf : s.phase = .fault := (State.not_ready.1 hr).resolve_left hb
    rw [writeCmd_of_fault hf hw, execWord_of_fault hf hw]

/-- RESET takes effect with the write, in every phase and whatever moves come after it (rule R215). -/
theorem hostWrite_reset (s : State) {v : Nat} (hv : v % 256 = 7) : hostWrite s 0 0 v = exec .reset s := by
  by_cases hb : s.phase = .busy
  · rw [hostWrite_of_busy hb, exec_of_busy hb]
  · rw [hostWrite_cmd hb, (ofNat_eq_reset v).2 hv, writeCmd, if_pos rfl, execWord_opcode]

/-- Settles O4: the word that decodes to a command is its opcode, and each schedule has its form of the write of `CMD`. -/
theorem stepRunsDecodedCommand : Obligations.StepRunsDecodedCommand := by
  unfold Obligations.StepRunsDecodedCommand
  intro s v later i hd
  have hw : BitVec.ofNat 8 v = opcode i := decodeWord_eq_ok_iff.1 (decode_cons_eq_ok hd).1
  refine ⟨fun hm => ?_, fun hr hi hm => ?_, fun hi hm => ?_⟩
  · rw [step_of_move hm, moveStep, hostWrite_cmd_last (s := { s with moves := [] }) rfl, hw, execWord_opcode]
  · rw [step_write_cmd hr hm, hw, writeCmd_before_completion (s := { s with moves := .complete :: later }) hr
      (opcode_injective.ne hi) rfl, execWord_opcode]
  · subst hi
    rw [step_of_move hm, moveStep, hostWrite_reset _ ((ofNat_eq_reset v).1 hw)]

/-! ## Completion -/

/-- Settles O6: a completion carries its word out in a state that accepts it. -/
theorem everyCommandCompletes : Obligations.EveryCommandCompletes := by
  unfold Obligations.EveryCommandCompletes
  refine ⟨fun s => (step_effect s).imp fun _ h => h.1, fun s hc => ?_⟩
  obtain ⟨u, hu, _⟩ := execWord_ready s.release_ready s.cmd hc
  exact ⟨u, hu, execWord_phase_done_or_fault hu s.release_ready hc⟩

/-! ## Reserved opcodes -/

theorem execWord_of_reserved {s : State} (hr : s.ready) {w : Byte} (hw : w.toNat = 0 ∨ 8 ≤ w.toNat) :
    execWord w s = .next (s.enterFault .illegalCommand (w.setWidth 64)) := by
  rw [execWord, decode, decodeWord_of_reserved hw]
  exact runCommand_ready hr _

/-- The low byte of a written value, as `ERRINFO` holds it. -/
theorem setWidth_ofNat_byte (v : Nat) : (BitVec.ofNat 8 v).setWidth 64 = BitVec.ofNat 64 (v % 256) := by
  apply BitVec.eq_of_toNat_eq
  simp

/-- Settles O13: a reserved word decodes to no command, so it takes the dispatch of `IllegalCommand`. -/
theorem reservedOpcodeFaults : Obligations.ReservedOpcodeFaults := by
  unfold Obligations.ReservedOpcodeFaults
  intro s v hr hv
  have hx : execWord (BitVec.ofNat 8 v) s = .next (s.enterFault .illegalCommand (BitVec.ofNat 64 (v % 256))) := by
    rw [execWord_of_reserved hr (by rwa [BitVec.toNat_ofNat]), setWidth_ofNat_byte]
  exact ⟨hx, fun hm => (hostWrite_cmd_last hm v).trans hx⟩

/-! ## Sequence and Capacity -/

theorem FaultKind.code_eq_sequence_iff {k : FaultKind} : k.code = FaultKind.sequence.code ↔ k = .sequence := by
  cases k <;> decide

theorem build_error_kind_ne_sequence {o : ChildOrder} {symbols : List Byte} {e : Raise}
    (h : build o symbols = .error e) : e.kind ≠ .sequence := by
  rcases build_error o h with rfl | ⟨b, rfl⟩ <;> exact nofun

theorem serialize_error_kind {t : PrefixNode} {symbols : List Byte} {e : Raise} (h : serialize t symbols = .error e) :
    e.kind = .symbolNotInTree := by
  rcases serialize_cases t symbols with ⟨-, e'⟩ | ⟨-, x, -, -, -, -, e'⟩
  · cases h.symm.trans e'
  · cases h.symm.trans e'
    rfl

theorem runBuild_error_kind_ne_sequence {s : State} {e : Raise} (h : runBuild s = .error e) : e.kind ≠ .sequence := by
  rcases runBuild_cases s with ⟨-, e'⟩ | ⟨-, ⟨e₁, hb, e'⟩ | ⟨t, -, e'⟩⟩ <;> cases h.symm.trans e'
  · exact nofun
  · exact build_error_kind_ne_sequence hb

theorem runEncode_error_kind_ne_sequence {s : State} {e : Raise} (h : runEncode s = .error e) : e.kind ≠ .sequence := by
  rcases runEncode_cases s with ⟨-, e'⟩ | ⟨-, ⟨e₁, hb, e'⟩ | ⟨t, -, ⟨e₁, hs, e'⟩ | ⟨bytes, n, -, e'⟩⟩⟩ <;>
    cases h.symm.trans e'
  · exact nofun
  · exact build_error_kind_ne_sequence hb
  · rw [serialize_error_kind hs]
    exact nofun

theorem runDeserialize_error_kind_ne_sequence {s : State} {e : Raise} (h : runDeserialize s = .error e) :
    e.kind ≠ .sequence := by
  rcases runDeserialize_cases s with ⟨-, e'⟩ | ⟨-, ⟨e₁, hd, e'⟩ | ⟨d, -, e'⟩⟩ <;> cases h.symm.trans e'
  · exact nofun
  · rw [deserialize_error_kind hd]
    exact nofun

/-- A command records in `ERR` the fault of its own work, and a command that completes leaves 0 there. -/
theorem Effect.err_ne_sequence {s u : State} {i : Instr} (h : Effect s i u)
    (hown : ∀ e, ownWork i s = .error e → e.kind ≠ .sequence) : u.err ≠ FaultKind.sequence.code := by
  cases h with
  | faulted i _ e hw => exact mt FaultKind.code_eq_sequence_iff.1 (hown e hw)
  | built | coded | listed | serialized | decoded | encoded | reset => exact (by decide : (0 : Byte) ≠ 6)

/-- Settles O14: the tree test comes first in the three commands that need a tree, and no own work of another command
raises `Sequence`. -/
theorem sequenceFaults : Obligations.SequenceFaults := by
  unfold Obligations.SequenceFaults
  refine fun s hr => ⟨fun hv => ⟨exec_codes_missing hr hv, exec_cplist_missing hr hv, exec_serialize_missing hr hv⟩,
    fun i u hi hu => ?_⟩
  obtain ⟨u', hu', heffect⟩ := exec_effect hr i
  cases hu.symm.trans hu'
  refine heffect.err_ne_sequence fun e he => ?_
  rcases hi with rfl | rfl | rfl | rfl
  · exact runBuild_error_kind_ne_sequence he
  · exact runEncode_error_kind_ne_sequence he
  · exact runDeserialize_error_kind_ne_sequence he
  · cases he

/-- Settles O15: four commands make the capacity test, and CODES and CPLIST with a tree held do not. -/
theorem capacityFaults : Obligations.CapacityFaults := by
  unfold Obligations.CapacityFaults
  intro s hr hc
  exact ⟨exec_build_over hr hc, exec_deserialize_over hr hc, exec_encode_over hr hc, fun t hv ht =>
    ⟨exec_serialize_over hr hv ht hc, ⟨s.withCodes t, exec_codes_held hr hv ht, Status.phase_make ..⟩,
      s.withCodePoints t, exec_cplist_held hr hv ht, Status.phase_make ..⟩⟩

/-! ## RESET -/

theorem readValid_nil {α : Type} (wrap : α → Value) (valid : Bool) (n i : Nat) : readValid wrap valid n [] i = none := by
  simp [readValid]

/-- After a reset no data space lists an element and no tree is held (rule R260). -/
theorem memRead_toReset (s : State) {space : Nat} (h : 1 ≤ space) (i : Nat) : memRead s.toReset space i = none :=
  match space, h with
  | 1, _ => readValid_nil ..
  | 2, _ => readValid_nil ..
  | 3, _ => readValid_nil ..
  | 4, _ => rfl
  | 5, _ => readValid_nil ..
  | 6, _ => readValid_nil ..
  | k + 7, _ => memRead_absent_space _ (Nat.le_add_left 7 k) i

/-- Settles O23: the write of RESET's opcode is `exec .reset`, which BUSY drops and every other phase takes as `toReset`. -/
theorem resetCommand : Obligations.ResetCommand := by
  unfold Obligations.ResetCommand
  refine fun s => ⟨fun hb => ⟨exec_of_busy hb .reset, fun v _ => hostWrite_of_busy hb 0 0 v⟩, fun hb => ?_⟩
  have hx : exec .reset s = .next s.toReset := execReset_taken hb
  exact ⟨s.toReset, hx, fun v hv => (hostWrite_reset s hv).trans hx, rfl, rfl, rfl, rfl, rfl, rfl, rfl, rfl, rfl, rfl,
    fun space i h => hostRead_eq_none (memRead_toReset s h i), rfl, rfl, rfl, rfl⟩

end Sys2Proof.Machine

/-! PROOFS. The exceptions (spec/60_exceptions.md): the codes of the faults (rule R230), the one fault of `Deserialize` (R233),
fault entry (R241) and the exit from FAULT (R242). -/

namespace Sys2Proof.Machine

/-! ## The exit from FAULT -/

/-- In FAULT a step that changes `STATE` has taken a reset, by hardware or by command, and nothing else. -/
theorem exists_reset_of_step_leaves_fault {s u : State} (hf : s.phase = .fault) (hu : step s = .next u)
    (hleft : u.phase ≠ .fault) :
    ∃ later, u = State.toReset { s with moves := later } ∧
      (s.moves = .hardReset :: later ∨ ∃ v, s.moves = .write 0 0 v :: later ∧ v % 256 = 7) := by
  cases step_effect_of hu with
  | waited later => exact absurd hf hleft
  | answered later space i => exact absurd hf hleft
  | written later space i v _ => exact (hleft ((memWrite_phase _ space i v).trans hf)).elim
  | started later w hr _ _ => exact absurd hf hr.ne_fault
  | ran later w u hr _ _ _ => exact absurd hf hr.ne_fault
  | completed later u hp _ _ => exact nomatch hp.symm.trans hf
  | commandReset later v _ hm hv => exact ⟨later, rfl, .inr ⟨v, hm, hv⟩⟩
  | hardwareReset later hm => exact ⟨later, rfl, .inl hm⟩

theorem step_hardReset {s : State} {later : List Move} (hm : s.moves = .hardReset :: later) :
    step s = .next (State.toReset { s with moves := later }) := step_of_move hm

/-- The write of RESET's opcode takes effect in the step that takes it, wherever it is not dropped (rule R215). -/
theorem step_write_reset {s : State} (hb : s.phase ≠ .busy) {v : Nat} {later : List Move}
    (hm : s.moves = .write 0 0 v :: later) (hv : v % 256 = 7) :
    step s = .next (State.toReset { s with moves := later }) :=
  calc step s
    _ = hostWrite { s with moves := later } 0 0 v := step_of_move hm
    _ = exec .reset { s with moves := later } := hostWrite_reset _ hv
    _ = .next (State.toReset { s with moves := later }) := execReset_taken (s := { s with moves := later }) hb

theorem State.toReset_phase_ne_fault (s : State) : s.toReset.phase ≠ .fault := by
  rw [State.toReset_phase]
  decide

/-- Settles O8: a step out of FAULT has taken a reset, and either reset leaves FAULT. -/
theorem faultIsLeftByResetOnly : Obligations.FaultIsLeftByResetOnly := by
  unfold Obligations.FaultIsLeftByResetOnly
  refine fun s u hf hu => ⟨⟨fun hleft => ?_, ?_⟩, fun hleft => ?_⟩
  · obtain ⟨later, -, hm | ⟨v, hm, hv⟩⟩ := exists_reset_of_step_leaves_fault hf hu hleft
    · exact .inl ⟨later, hm⟩
    · exact .inr ⟨v, later, hm, hv⟩
  · rintro (⟨later, hm⟩ | ⟨v, later, hm, hv⟩)
    · cases hu.symm.trans (step_hardReset hm)
      exact State.toReset_phase_ne_fault _
    · cases hu.symm.trans (step_write_reset (by rw [hf]; decide) hm hv)
      exact State.toReset_phase_ne_fault _
  · obtain ⟨later, rfl, hm | ⟨v, hm, -⟩⟩ := exists_reset_of_step_leaves_fault hf hu hleft <;> rw [hm] <;> rfl

/-! ## The faults of `Deserialize` -/

/-- Settles O16: whatever `Deserialize` raises is a sub-cause of `CorruptStream`. -/
theorem malformedStreamsAreCorruptStreams : Obligations.MalformedStreamsAreCorruptStreams := by
  unfold Obligations.MalformedStreamsAreCorruptStreams
  intro packed e h
  rcases deserialize_cases packed with ⟨t, p, rest, out, sent, -, -, -, -, -, -, -, hok, -⟩ | ⟨k, hlow, hhigh, herror⟩
  · cases h.symm.trans hok
  · cases h.symm.trans herror
    exact ⟨rfl, hlow, hhigh⟩

/-! ## Fault entry -/

/-- After a fault no space but IN lists an element, and no tree is held (rule R241). -/
theorem memRead_enterFault (s : State) (k : FaultKind) (v : Word) {space : Nat} (h : 2 ≤ space) (i : Nat) :
    memRead (s.enterFault k v) space i = none :=
  match space, h with
  | 2, _ => readValid_nil ..
  | 3, _ => readValid_nil ..
  | 4, _ => rfl
  | 5, _ => readValid_nil ..
  | 6, _ => readValid_nil ..
  | n + 7, _ => memRead_absent_space _ (Nat.le_add_left 7 n) i

/-- `STATUS` in FAULT: every flag 0 and `STATE` 3 (rule R241). -/
theorem status_make_fault : Status.make .fault false false false false false false = 0x03 := by decide

theorem State.keepsInput_enterFault (s : State) (k : FaultKind) (v : Word) : s.keepsInput (s.enterFault k v) :=
  ⟨rfl, rfl, rfl, rfl, rfl, rfl, rfl⟩

/-- Settles O11: each register as fault entry writes it, and the spaces it empties. -/
theorem faultEntryWritesTheFaultState : Obligations.FaultEntryWritesTheFaultState := by
  unfold Obligations.FaultEntryWritesTheFaultState
  exact fun s k v => ⟨s.enterFault_err k v, s.enterFault_errInfo k v, status_make_fault, s.enterFault_outLen k v,
    s.enterFault_bitLen k v, s.enterFault_cursor k v, s.enterFault_nleaf k v, s.enterFault_tree k v,
    s.keepsInput_enterFault k v, fun _ i h => memRead_enterFault s k v h i⟩

/-- Settles O12: the codes as the table of rule R230 lists them. -/
theorem faultCodes : Obligations.FaultCodes := by
  unfold Obligations.FaultCodes
  exact ⟨rfl, rfl, rfl, rfl, rfl, rfl, rfl⟩

end Sys2Proof.Machine

/-! PROOFS. Reset (spec/70_reset_and_hazards.md rules R260 and R261). `State.reset` is the state `toReset` leaves but for the
epoch, which no host read and no clause of the invariant sees. -/

namespace Sys2Proof.Machine

theorem State.reset_eq_toReset : State.reset = { State.reset.toReset with epoch := 0 } := rfl

theorem hostRead_epoch (s : State) (n space i : Nat) : hostRead { s with epoch := n } space i = hostRead s space i := rfl

theorem State.epoch_inv {s : State} (h : s.Inv) (n : Nat) : ({ s with epoch := n } : State).Inv :=
  ⟨{ h.spaces with }, { h.status with }, { h.tree with }, { h.results with }⟩

theorem State.toReset_phase_ne_busy (s : State) : s.toReset.phase ≠ .busy := by
  rw [State.toReset_phase]
  decide

/-- `CMD` reads 0 after a reset: the block is not BUSY, where the register would have no value (rule R62). -/
theorem hostRead_cmd_toReset (s : State) : hostRead s.toReset 0 0 = some (.byte 0) :=
  hostRead_of_not_busy s.toReset_phase_ne_busy 0 0

theorem hostRead_id_toReset (s : State) : hostRead s.toReset 0 9 = some (.word 0x48554601) :=
  hostRead_of_not_busy s.toReset_phase_ne_busy 0 9

/-- No element of a data space has a defined value after a reset (rule R260). -/
theorem hostRead_data_toReset (s : State) {space : Nat} (h : 1 ≤ space) (i : Nat) : hostRead s.toReset space i = none :=
  hostRead_eq_none (memRead_toReset s h i)

/-- The host reads in `State.reset` what it reads after any later reset. -/
theorem hostRead_reset (space i : Nat) : hostRead State.reset space i = hostRead State.reset.toReset space i :=
  hostRead_epoch State.reset.toReset 0 space i

/-- Settles O55: the registers as `State.reset` writes them, and the host's reads as after any reset. -/
theorem resetStateIsAsStated : Obligations.ResetStateIsAsStated := by
  unfold Obligations.ResetStateIsAsStated
  simp only [hostRead_reset]
  exact ⟨rfl, rfl, rfl, rfl, rfl, rfl, rfl, rfl, rfl, hostRead_cmd_toReset _, hostRead_id_toReset _,
    fun _ i h => hostRead_data_toReset _ h i⟩

/-- Settles O56: the hardware reset is `toReset` in every phase, and an accepted RESET is the same `toReset`. -/
theorem hardwareResetFromAnyState : Obligations.HardwareResetFromAnyState := by
  unfold Obligations.HardwareResetFromAnyState
  intro s later hm
  exact ⟨State.toReset { s with moves := later }, step_hardReset hm, State.toReset_status _, State.toReset_err _,
    State.toReset_errInfo _, State.toReset_inLen _, State.toReset_outLen _, State.toReset_bitLen _,
    State.toReset_cursor _, State.toReset_nleaf _, State.toReset_tree _, State.toReset_cmd _, State.toReset_moves _,
    State.toReset_params _, hostRead_cmd_toReset _, hostRead_id_toReset _, fun _ i h => hostRead_data_toReset _ h i,
    fun hb => execReset_taken (s := { s with moves := later }) hb⟩

/-- Settles O57: a reset leaves a state of the invariant under legal parameters, and the default parameters are legal. -/
theorem resetStateMeetsInvariant : Obligations.ResetStateMeetsInvariant := by
  unfold Obligations.ResetStateMeetsInvariant
  have hparams : State.reset.params.wf = true := by decide
  rw [State.reset_eq_toReset]
  exact State.epoch_inv (State.toReset_inv State.reset hparams) 0

end Sys2Proof.Machine
